-- ==== Sys2Proof/Word.lean ====
section
/-! DEFINITION. The widths of the block: bytes of system memory, 32-bit registers and command words, the 1-bit bank
operand, and the type of the values the spec calls `NUM` (00_scope.md rules R4 to R6, R8, 30_encoding.md rule R100). -/

namespace Sys2Proof

/-- One byte of system memory (20_memory.md rule R71). -/
abbrev Byte := BitVec 8

/-- A register or a command word: `XLEN = 32` (00_scope.md rule R4, 10_state.md rule R21). -/
abbrev Word := BitVec 32

/-- The operand `BANK` of format `C1`, one bit: 0 the colour bank, 1 the alpha bank (30_encoding.md rule R100). -/
abbrev Bank := BitVec 1

/-- A `NUM` value (00_scope.md rule R5). Under `EXACT` a rational; under `F32` a finite binary32 value, which is a
rational too. Rule R8: no NaN and no infinity arises; the two zeros are one value (assumption log, entry 4). -/
abbrev Num := Rat

end Sys2Proof
end

