-- ==== Sys2Proof/Config.lean ====
section
/-! DEFINITION. The OPEN parameters of 00_scope.md rule R4 and the free values: constants without a body, so that
whatever is proved of the machine holds for every value of each of them. -/

namespace Sys2Proof

/-- The parameter `NUM` (00_scope.md rule R5): `F32` binary32, rounded to nearest even after every operation;
`EXACT` the rationals. -/
inductive NumMode where
  | f32
  | exactQ
  deriving DecidableEq, Repr, Inhabited

/-- The parameter `CHROMA_BIAS` (00_scope.md rule R4, 42_lut_builder.md rule R175). -/
inductive ChromaBias where
  | half
  | code
  deriving DecidableEq, Repr, Inhabited

/-- One row of the parameter `PRIMARIES` (40_resolver.md rule R133): the xy coordinates of red, green, blue and white,
as decimal literals not yet turned into `NUM` values. -/
structure Chromaticities where
  rX : Rat
  rY : Rat
  gX : Rat
  gY : Rat
  bX : Rat
  bY : Rat
  wX : Rat
  wY : Rat
  deriving DecidableEq, Repr, Inhabited

/-- The four OPEN parameters together (00_scope.md rule R4; 10_state.md rule R46: parameters of the step relation, not
state). `CMC_BASE` is a multiple of 4096 below `2^32` (92_eei_decisions.md D2), hence its upper 20 bits. -/
structure Params where
  num : NumMode
  bias : ChromaBias
  cmcPage : BitVec 20
  primaries : Nat → Option Chromaticities
  deriving Inhabited

/-- `CMC_BASE` as a byte address (20_memory.md rule R85). -/
def Params.cmcBase (p : Params) : Nat := p.cmcPage.toNat * 4096

/-- `NUM` of this machine: OPEN (assumption log, entry 1). -/
opaque Config.numMode : NumMode

/-- `CHROMA_BIAS` of this machine: OPEN (assumption log, entry 1). -/
opaque Config.chromaBias : ChromaBias

/-- The upper 20 bits of `CMC_BASE` of this machine: OPEN (assumption log, entry 1). -/
opaque Config.cmcPage : BitVec 20

/-- `PRIMARIES` of this machine: OPEN (assumption log, entry 1). -/
opaque Config.primaries : Nat → Option Chromaticities

/-- The parameters the machine runs with. -/
def Config.params : Params where
  num := Config.numMode
  bias := Config.chromaBias
  cmcPage := Config.cmcPage
  primaries := Config.primaries

/-- FREE VALUE: what the `n`th host read of `LUT_DATA` over an unwritten entry returns (10_state.md rule R37,
93_implementation_defined.md U3; assumption log, entry 3). -/
opaque Config.unwrittenLutWord : Nat → Word

/-- FREE VALUE: the binary32 value of a magnitude past the binary32 range. 00_scope.md rule R8 says that none arises;
only a `PRIMARIES` table far from any chromaticity could bring one about (assumption log, entry 5). -/
opaque Config.overflowNum : Rat → Num

/-- FREE VALUE: the binary32 pattern of a magnitude past the binary32 range (assumption log, entry 5). -/
opaque Config.overflowWord : Rat → Word

end Sys2Proof
end

