-- ==== Sys2Proof/Machine/Regs.lean ====
section
/-! DEFINITION. The register map of 10_state.md rule R21: names, offsets, access types and the bits that are not
reserved. -/

namespace Sys2Proof.Machine

/-- The 37 registers of 10_state.md rule R21. -/
inductive RegName where
  | id | cmd | status | cm | kr | kg | kb
  | surfBase | surfStride | surfW | surfH | surfFmt
  | frmW | frmH | frmFmt | frmCicp
  | yBase | yStride | uBase | uStride | vBase | vStride
  | tile | encCtrl | decCtrl | lutCfg | lutAddr | lutData | lutCur
  | ts0ExpW | ts0ExpH | ts0Info | ts0Cicp
  | ts1ExpW | ts1ExpH | ts1Info | ts1Cicp
  deriving DecidableEq, Repr

/-- The access column of 10_state.md rule R21. -/
inductive Access where
  | rw
  | ro
  | wo
  deriving DecidableEq, Repr

/-- Every row of the table of 10_state.md rule R21, in its order. -/
def allRegs : List RegName :=
  [.id, .cmd, .status, .cm, .kr, .kg, .kb,
   .surfBase, .surfStride, .surfW, .surfH, .surfFmt,
   .frmW, .frmH, .frmFmt, .frmCicp,
   .yBase, .yStride, .uBase, .uStride, .vBase, .vStride,
   .tile, .encCtrl, .decCtrl, .lutCfg, .lutAddr, .lutData, .lutCur,
   .ts0ExpW, .ts0ExpH, .ts0Info, .ts0Cicp,
   .ts1ExpW, .ts1ExpH, .ts1Info, .ts1Cicp]

/-- Byte offset from `CMC_BASE` (10_state.md rule R21). -/
def regOffset : RegName → BitVec 12
  | .id => 0x000 | .cmd => 0x004 | .status => 0x008 | .cm => 0x010
  | .kr => 0x014 | .kg => 0x018 | .kb => 0x01C
  | .surfBase => 0x020 | .surfStride => 0x024 | .surfW => 0x028 | .surfH => 0x02C | .surfFmt => 0x030
  | .frmW => 0x040 | .frmH => 0x044 | .frmFmt => 0x048 | .frmCicp => 0x04C
  | .yBase => 0x050 | .yStride => 0x054 | .uBase => 0x058 | .uStride => 0x05C
  | .vBase => 0x060 | .vStride => 0x064
  | .tile => 0x070 | .encCtrl => 0x074 | .decCtrl => 0x078
  | .lutCfg => 0x07C | .lutAddr => 0x080 | .lutData => 0x084 | .lutCur => 0x088
  | .ts0ExpW => 0x0A0 | .ts0ExpH => 0x0A4 | .ts0Info => 0x0A8 | .ts0Cicp => 0x0AC
  | .ts1ExpW => 0x0C0 | .ts1ExpH => 0x0C4 | .ts1Info => 0x0C8 | .ts1Cicp => 0x0CC

/-- The access type of each row of 10_state.md rule R21. -/
def regAccess : RegName → Access
  | .cmd => .wo
  | .id | .status | .kr | .kg | .kb | .lutData | .lutCur => .ro
  | .ts0Info | .ts0Cicp | .ts1Info | .ts1Cicp => .ro
  | _ => .rw

/-- The bits the field tables name; every other bit is reserved, reads 0 and ignores writes (10_state.md rule R21).
Rules: `CM` R25, `SURF_FMT` R28, `FRM_FMT` R30, `FRM_CICP` R31, `ENC_CTRL` R34, `DEC_CTRL` R35, `LUT_CFG` R36,
`LUT_ADDR` R37, `LUT_CUR` R38, `STATUS` R24, `TS<b>_INFO` R41, `TS<b>_CICP` R42; the other registers are full. -/
def regMask : RegName → Word
  | .status => 0x000071FF
  | .cm => 0x81FFFFFF
  | .surfFmt => 0x00000003
  | .frmFmt => 0x00000F1F
  | .frmCicp => 0x01FFFFFF
  | .encCtrl => 0x00000007
  | .decCtrl => 0x00000001
  | .lutCfg => 0x0000071F
  | .lutAddr => 0x0001FFFF
  | .lutCur => 0x8000071F
  | .ts0Info | .ts1Info => 0x0003071F
  | .ts0Cicp | .ts1Cicp => 0x01FFFFFF
  | _ => 0xFFFFFFFF

/-- The register at an offset of the window; none where the offset is unmapped (10_state.md rule R45). -/
def regAt (off : BitVec 12) : Option RegName :=
  allRegs.find? fun r => regOffset r == off

end Sys2Proof.Machine
end

