-- ==== Sys2Proof/Machine/Script.lean ====
section
/-! DEFINITION. What the host can do to the machine: the transactions of a host script (30_encoding.md rule R111), the
platform's reset between commands (70_reset_and_hazards.md rule R320), and the pseudo-instructions of rule R112. -/

namespace Sys2Proof.Machine

/-- The `<n>` of the script lines `MW<n>` and `MR<n>` (30_encoding.md rule R111). -/
inductive AccessSize where
  | one
  | two
  | four
  deriving DecidableEq, Repr

/-- One transaction of the host, in program order (30_encoding.md rule R111). -/
inductive HostTx where
  /-- `WR <reg>, <value>`: a 32-bit write at an offset of the register window. -/
  | regWrite (off : BitVec 12) (value : Word)
  /-- `RD <reg>`: a 32-bit read at an offset of the register window. -/
  | regRead (off : BitVec 12)
  /-- `MW<n> <addr>, <value>`: an `n`-byte little-endian write at a system address. -/
  | memWrite (addr : Word) (size : AccessSize) (value : Word)
  /-- `MR<n> <addr>`: an `n`-byte read at a system address. -/
  | memRead (addr : Word) (size : AccessSize)
  /-- `MB <addr>: b0 b1 …`: bytes written to successive addresses. -/
  | memBytes (addr : Word) (bytes : List Byte)
  /-- The platform applies reset, between commands (70_reset_and_hazards.md rule R320). -/
  | platformReset
  deriving DecidableEq, Repr

/-- Bytes of an access. -/
def accessBytes : AccessSize → Nat
  | .one => 1
  | .two => 2
  | .four => 4

/-- The bytes `[a, a + n)` meet the register window (20_memory.md rules R70, R78 (e)). -/
def touchesWindow (p : Params) (a n : Nat) : Bool :=
  decide (a < p.cmcBase + 4096) && decide (p.cmcBase < a + n)

/-- A host access of `n` bytes at `a` is defined: it lies in `[0, 2^AW)`, and where it meets the register window it is
a naturally aligned 32-bit access (10_state.md rule R21, 20_memory.md rule R70). -/
def accessDefined (p : Params) (a n : Nat) : Bool :=
  decide (a + n ≤ 2 ^ 32) && (!touchesWindow p a n || (n == 4 && a % 4 == 0))

/-- The script line `WR <reg>, <value>`; its encoding is the pair (offset, value) (30_encoding.md rule R111). -/
def wr (r : RegName) (v : Word) : HostTx := .regWrite (regOffset r) v

/-- The script line `RD <reg>` (30_encoding.md rule R111). -/
def rd (r : RegName) : HostTx := .regRead (regOffset r)

/-- The pseudo-instruction `SURFACE` (30_encoding.md rule R112). -/
def surfaceScript (base stride w h fmt : Word) : List HostTx :=
  [wr .surfBase base, wr .surfStride stride, wr .surfW w, wr .surfH h, wr .surfFmt fmt]

/-- The pseudo-instruction `PLANES` (30_encoding.md rule R112). -/
def planesScript (yb ys ub us vb vs : Word) : List HostTx :=
  [wr .yBase yb, wr .yStride ys, wr .uBase ub, wr .uStride us, wr .vBase vb, wr .vStride vs]

/-- The pseudo-instruction `FMT` for `FRM_FMT` (30_encoding.md rule R112). -/
def fmtValue (depth xsh ysh mono swap : Nat) : Word :=
  BitVec.ofNat 32 (depth + xsh * 2 ^ 8 + ysh * 2 ^ 9 + mono * 2 ^ 10 + swap * 2 ^ 11)

end Sys2Proof.Machine
end

