-- ==== Sys2Proof/Syntax.lean ====
section
/-! DEFINITION. The commands: one constructor per row of spec/opcode_table.json (30_encoding.md rule R101). -/

namespace Sys2Proof

/-- A command of the block (30_encoding.md rules R100, R101). Every operand but `BANK` is a fixed named register. -/
inductive Instr where
  /-- `RESOLVE`, 40_resolver.md rule R130. -/
  | resolve
  /-- `BUILD_LUT`, 42_lut_builder.md rule R170. -/
  | buildLut
  /-- `ENCODE_COLOR`, 44_encoder.md rule R200. -/
  | encodeColor
  /-- `ENCODE_ALPHA`, 44_encoder.md rule R207. -/
  | encodeAlpha
  /-- `DECODE_COLOR`, 45_decoder.md rule R230. -/
  | decodeColor
  /-- `DECODE_ALPHA`, 45_decoder.md rule R238. -/
  | decodeAlpha
  /-- `TILE_VALIDATE b`, 46_tile_assembly.md rule R273. -/
  | tileValidate (bank : Bank)
  /-- `TILE_RESET b`, 46_tile_assembly.md rule R274. -/
  | tileReset (bank : Bank)
  deriving DecidableEq, Repr

end Sys2Proof
end

