-- ==== Sys2Proof/WellFormed.lean ====
section
/-! DEFINITION. Which commands and which host transactions are defined at all. -/

namespace Sys2Proof

/-- Every term of `Instr` is a command: the one operand `BANK` has exactly the two values its one bit can hold
(30_encoding.md rule R100), so the type admits no ill-formed command. -/
def Instr.wellFormed : Instr → Bool
  | .resolve => true
  | .buildLut => true
  | .encodeColor => true
  | .encodeAlpha => true
  | .decodeColor => true
  | .decodeAlpha => true
  | .tileValidate b => decide (b.toNat ≤ 1)
  | .tileReset b => decide (b.toNat ≤ 1)

namespace Machine

/-- A host transaction the spec defines (10_state.md rule R21, 30_encoding.md rule R111). -/
def HostTx.wellFormed (p : Params) : HostTx → Bool
  | .regWrite off _ => off.toNat % 4 == 0
  | .regRead off => off.toNat % 4 == 0
  | .memWrite a size _ => accessDefined p a.toNat (accessBytes size)
  | .memRead a size => accessDefined p a.toNat (accessBytes size)
  | .memBytes a bs => decide (a.toNat + bs.length ≤ 2 ^ 32) && !touchesWindow p a.toNat bs.length
  | .platformReset => true

end Machine

end Sys2Proof
end

