-- ==== Sys2Proof/Decode.lean ====
section
/-! DEFINITION. The decoder of command words, total and rejecting by name, and the encoder, both from the opcode map of
30_encoding.md rules R100 to R102. -/

namespace Sys2Proof

/-- Why a word is no command (30_encoding.md rule R102). Whoever writes such a word to `CMD` gets `BadCommand`. -/
inductive DecodeError where
  /-- `OP` is 0x00 or in 0x09 to 0xFF. Raised by `decode`; safe: the rule defines the outcome. -/
  | illegalOpcode
  /-- `OP` is an opcode but a bit that its format fixes to 0 is 1. Raised by `decode`; safe: the rule defines the
  outcome. -/
  | reservedBitSet
  deriving DecidableEq, Repr

/-- One row of the opcode map: a word is the row's command when `word & mask = pattern` (30_encoding.md rule R101). -/
structure OpcodeRow where
  mnemonic : String
  mask : Word
  pattern : Word
  deriving DecidableEq, Repr

/-- The opcode map (30_encoding.md rule R101). -/
def opcodeMap : List OpcodeRow :=
  [⟨"RESOLVE", 0xFFFFFFFF, 0x00000001⟩,
   ⟨"BUILD_LUT", 0xFFFFFFFF, 0x00000002⟩,
   ⟨"ENCODE_COLOR", 0xFFFFFFFF, 0x00000003⟩,
   ⟨"ENCODE_ALPHA", 0xFFFFFFFF, 0x00000004⟩,
   ⟨"DECODE_COLOR", 0xFFFFFFFF, 0x00000005⟩,
   ⟨"DECODE_ALPHA", 0xFFFFFFFF, 0x00000006⟩,
   ⟨"TILE_VALIDATE", 0xFFFFFEFF, 0x00000007⟩,
   ⟨"TILE_RESET", 0xFFFFFEFF, 0x00000008⟩]

/-- `(word & mask) = pattern`. -/
def rowMatches (r : OpcodeRow) (w : Word) : Bool := w &&& r.mask == r.pattern

/-- The field `OP`, bits 7:0 (30_encoding.md rule R100). -/
def wordOp (w : Word) : BitVec 8 := w.extractLsb' 0 8

/-- The field `BANK` of format `C1`, bit 8 (30_encoding.md rule R100). -/
def wordBank (w : Word) : Bank := w.extractLsb' 8 1

/-- Format `C0`: bits 31:8 are 0 (30_encoding.md rule R100). -/
def zeroAboveC0 (w : Word) : Bool := w.extractLsb' 8 24 == 0#24

/-- Format `C1`: bits 31:9 are 0 (30_encoding.md rule R100). -/
def zeroAboveC1 (w : Word) : Bool := w.extractLsb' 9 23 == 0#23

/-- A command of a format, if the bits the format fixes to 0 are 0. -/
def formatted (zeros : Bool) (i : Instr) : Except DecodeError Instr :=
  if zeros then .ok i else .error .reservedBitSet

/-- The command a word encodes (30_encoding.md rules R100 to R102). -/
def decode (w : Word) : Except DecodeError Instr :=
  if wordOp w = 0x01#8 then formatted (zeroAboveC0 w) .resolve
  else if wordOp w = 0x02#8 then formatted (zeroAboveC0 w) .buildLut
  else if wordOp w = 0x03#8 then formatted (zeroAboveC0 w) .encodeColor
  else if wordOp w = 0x04#8 then formatted (zeroAboveC0 w) .encodeAlpha
  else if wordOp w = 0x05#8 then formatted (zeroAboveC0 w) .decodeColor
  else if wordOp w = 0x06#8 then formatted (zeroAboveC0 w) .decodeAlpha
  else if wordOp w = 0x07#8 then formatted (zeroAboveC1 w) (.tileValidate (wordBank w))
  else if wordOp w = 0x08#8 then formatted (zeroAboveC1 w) (.tileReset (wordBank w))
  else .error .illegalOpcode

/-- A word of format `C1`: zeros, `BANK`, `OP` (30_encoding.md rule R100). -/
def formatC1 (op : BitVec 8) (b : Bank) : Word := 0#23 ++ b ++ op

/-- A word of format `C0`: zeros, `OP` (30_encoding.md rule R100). -/
def formatC0 (op : BitVec 8) : Word := 0#24 ++ op

/-- The word of a command (30_encoding.md rules R100, R101). -/
def encode : Instr → Word
  | .resolve => formatC0 0x01
  | .buildLut => formatC0 0x02
  | .encodeColor => formatC0 0x03
  | .encodeAlpha => formatC0 0x04
  | .decodeColor => formatC0 0x05
  | .decodeAlpha => formatC0 0x06
  | .tileValidate b => formatC1 0x07 b
  | .tileReset b => formatC1 0x08 b

/-- What the decoder reads from an instruction of `nbits` bits numbered as spec/opcode_table.json numbers them. A
command is one 32-bit word (30_encoding.md rule R100), so a number with a bit above 31 is none. -/
def decodeTableWord (nbits w : Nat) : Option Instr :=
  let v := w % 2 ^ nbits
  if v < 2 ^ 32 then
    match decode (BitVec.ofNat 32 v) with
    | .ok i => some i
    | .error _ => none
  else none

end Sys2Proof
end

