-- ==== Sys2Proof/Machine/Num.lean ====
section
/-! DEFINITION. The arithmetic of `NUM` (00_scope.md rules R5, R8, R9, R13): binary32 rounding, the operations of both
instances, clamping, quantising and the binary32 pattern of a value. -/

namespace Sys2Proof.Machine

/-- `n / d` rounded to the nearest integer, ties to even; `d > 0`. -/
def roundHalfEven (n d : Nat) : Nat :=
  let q := n / d
  let r := n % d
  if 2 * r < d then q
  else if d < 2 * r then q + 1
  else q + q % 2

/-- A magnitude `|v|` in units of `2^-149`, the least binary32 step: numerator of a fraction over `v.den`. -/
def f32Scaled (v : Rat) : Nat := v.num.natAbs * 2 ^ 149

/-- The exponent of the binary32 step around `|v|`, counted from `2^-149`: 0 below `2^-125`, one more for every
doubling. -/
def f32Step (v : Rat) : Nat := Nat.log2 (f32Scaled v / v.den) - 23

/-- `|v|` in binary32 steps, rounded to nearest, ties to even. -/
def f32Mantissa (v : Rat) : Nat := roundHalfEven (f32Scaled v) (v.den * 2 ^ f32Step v)

/-- The binary32 pattern of `|v|` rounded to nearest, ties to even: the carry out of a mantissa of `2^24` moves to the
next exponent, and a subnormal has exponent field 0. A value of `0x7F800000` or more is past the binary32 range. -/
def f32Magnitude (v : Rat) : Nat := f32Step v * 2 ^ 23 + f32Mantissa v

/-- `v` is past the binary32 range. 00_scope.md rule R8: it does not happen. -/
def f32Overflows (v : Rat) : Bool := decide (0x7F800000 ≤ f32Magnitude v)

/-- The value `v` rounded to binary32, nearest, ties to even (00_scope.md rule R5). -/
def roundF32 (v : Rat) : Num :=
  if f32Overflows v then Config.overflowNum v
  else
    let a : Rat := mkRat (f32Mantissa v * 2 ^ f32Step v) (2 ^ 149)
    if v.num < 0 then -a else a

/-- The result of one operation whose exact result is `v` (00_scope.md rule R5). -/
def numRound (m : NumMode) (v : Rat) : Num :=
  match m with
  | .f32 => roundF32 v
  | .exactQ => v

/-- `a + b` in `NUM` (00_scope.md rule R8). -/
def numAdd (m : NumMode) (a b : Num) : Num := numRound m (a + b)

/-- `a - b` in `NUM` (00_scope.md rule R8). -/
def numSub (m : NumMode) (a b : Num) : Num := numRound m (a - b)

/-- `a * b` in `NUM` (00_scope.md rule R8). -/
def numMul (m : NumMode) (a b : Num) : Num := numRound m (a * b)

/-- `a / b` in `NUM` (00_scope.md rule R8). -/
def numDiv (m : NumMode) (a b : Num) : Num := numRound m (a / b)

/-- `lit("…")`: a decimal literal (00_scope.md rules R5, R8). -/
def numLit (m : NumMode) (q : Rat) : Num := numRound m q

/-- `num(i)`: every integer a rule converts has `|i| ≤ 65535`, which is exact in both instances (00_scope.md rule R5). -/
def numOf (i : Nat) : Num := (i : Rat)

/-- `clamp01` (00_scope.md rule R8). -/
def clamp01 (v : Num) : Num :=
  if v < 0 then 0 else if 1 < v then 1 else v

/-- `rnd(v) = floor(v + 0.5)`, the addition in `NUM`, the floor exact (00_scope.md rule R9). -/
def rnd (m : NumMode) (v : Num) : Int := (numAdd m v (numLit m (1 / 2))).floor

/-- `quant(v, m) = rnd(clamp01(v) * num(m))` for `m` in {255, 65535} (00_scope.md rule R9). -/
def quant (m : NumMode) (v : Num) (top : Nat) : Nat :=
  (rnd m (numMul m (clamp01 v) (numOf top))).toNat

/-- `enc32(v)`: the pattern of the binary32 value nearest to `v`, a zero of either sign as `0x00000000` (00_scope.md
rule R13). -/
def enc32 (v : Num) : Word :=
  if f32Overflows v then Config.overflowWord v
  else if v.num < 0 ∧ f32Magnitude v ≠ 0 then BitVec.ofNat 32 (0x80000000 + f32Magnitude v)
  else BitVec.ofNat 32 (f32Magnitude v)

/-- `clampI(v, lo, hi)` (00_scope.md rule R7). -/
def clampI (v lo hi : Int) : Int := max lo (min hi v)

end Sys2Proof.Machine
end

