-- ==== Sys2Proof/Machine/State.lean ====
section
/-! DEFINITION. The state of the machine as plain data (10_state.md rule R20): the registers of rule R21, the LUT
memory, the two tile-state banks, system memory, the host's transactions; and the state after reset (rule R47,
70_reset_and_hazards.md rule R320). -/

namespace Sys2Proof.Machine

/-- Why the machine stops with a fault. No command of the block raises one (60_exceptions.md rule R290). -/
inductive Fault where
  /-- A host memory transaction reaches past `2^AW - 1`. Raised by the host bus (`nextTx`), never by a command. Safe:
  the spec has no such address (20_memory.md rule R70). -/
  | addressOutOfRange
  deriving DecidableEq, Repr

/-- Why the machine refuses to go on. -/
inductive Refusal where
  /-- An instruction that has no meaning yet. Raised by `exec`'s arms; safe. No arm raises it in this model. -/
  | notModelled (mnemonic : String)
  /-- A host access to the register window that is not a naturally aligned 32-bit access. Raised by the host bus
  (`nextTx`), never by a command. Safe: 93_implementation_defined.md U9 says `refuse`. -/
  | undefinedRegisterAccess
  deriving DecidableEq, Repr

/-- System memory, a map from byte address to byte (20_memory.md rule R71), in canonical form: addresses strictly
rising, no byte listed that an unlisted address reads as. -/
abbrev Memory := List Host.Cell

/-- The coefficient registers `KR`, `KG`, `KB`: `NUM` values (10_state.md rule R26). -/
structure Coefs where
  kr : Num
  kg : Num
  kb : Num
  deriving DecidableEq, Repr

/-- The surface registers `SURF_*` (10_state.md rules R27, R28). -/
structure Surface where
  base : Word
  stride : Word
  width : Word
  height : Word
  fmt : Word
  deriving DecidableEq, Repr

/-- The frame registers `FRM_*` (10_state.md rules R29 to R31). -/
structure Frame where
  width : Word
  height : Word
  fmt : Word
  cicp : Word
  deriving DecidableEq, Repr

/-- The register pair of one plane: `Y_*`, `U_*` or `V_*` (10_state.md rule R32). -/
structure Plane where
  base : Word
  stride : Word
  deriving DecidableEq, Repr

/-- The LUT memory (10_state.md rule R39). Entry `i` of a table is *written* when `i` is below the length of its list,
and *unwritten* otherwise: 42_lut_builder.md rule R176, the only writer, marks an initial run and nothing else
(assumption log, entry 7). -/
structure LutMem where
  luma : List Num
  chroma : List Num
  deriving DecidableEq, Repr

/-- One tile-state bank `TS<b>_*` (10_state.md rules R40 to R42). -/
structure TileBank where
  expW : Word
  expH : Word
  info : Word
  cicp : Word
  deriving DecidableEq, Repr

/-- The whole state. `ID` is a constant, `CMD` stores nothing and `LUT_DATA` is a window on the LUT memory (10_state.md
rules R20, R22, R23, R37), so these three have no field. -/
structure State where
  /-- `STATUS`, rule R24. -/
  status : Word
  /-- `CM`, rule R25. -/
  cm : Word
  /-- `KR`, `KG`, `KB`, rule R26. -/
  coefs : Coefs
  /-- `SURF_*`, rules R27, R28. -/
  surf : Surface
  /-- `FRM_*`, rules R29 to R31. -/
  frm : Frame
  /-- `Y_BASE`, `Y_STRIDE`, rule R32. -/
  yPlane : Plane
  /-- `U_BASE`, `U_STRIDE`, rule R32. -/
  uPlane : Plane
  /-- `V_BASE`, `V_STRIDE`, rule R32. -/
  vPlane : Plane
  /-- `TILE`, rule R33. -/
  tile : Word
  /-- `ENC_CTRL`, rule R34. -/
  encCtrl : Word
  /-- `DEC_CTRL`, rule R35. -/
  decCtrl : Word
  /-- `LUT_CFG`, rule R36. -/
  lutCfg : Word
  /-- `LUT_ADDR`, rule R37. -/
  lutAddr : Word
  /-- `LUT_CUR`, rule R38. -/
  lutCur : Word
  /-- The LUT memory, rule R39. -/
  lut : LutMem
  /-- Bank 0, `TS0_*`, rules R40 to R42. -/
  ts0 : TileBank
  /-- Bank 1, `TS1_*`, rules R40 to R42. -/
  ts1 : TileBank
  /-- System memory, 20_memory.md rule R71: outside the block, read and written by it. -/
  mem : Memory
  /-- The MODEL's own: the host's transactions still to come, oldest first (30_encoding.md rule R111). -/
  host : List HostTx
  /-- The MODEL's own: the values the host has read, newest first (30_encoding.md rule R111, `RD` and `MR`). -/
  hostReads : List Word
  /-- The MODEL's own: how many free values have been used (10_state.md rule R37, 93_implementation_defined.md U3). -/
  freeCount : Nat
  deriving DecidableEq, Repr

/-- A bank in which nothing is recorded (10_state.md rule R40). -/
def TileBank.zero : TileBank := ⟨0, 0, 0, 0⟩

/-- The state after reset (10_state.md rule R47, 70_reset_and_hazards.md rule R320), with nothing listed in memory and
no transaction pending. -/
def State.reset : State where
  status := 0
  cm := 0
  coefs := ⟨0, 0, 0⟩
  surf := ⟨0, 0, 0, 0, 0⟩
  frm := ⟨0, 0, 0, 0⟩
  yPlane := ⟨0, 0⟩
  uPlane := ⟨0, 0⟩
  vPlane := ⟨0, 0⟩
  tile := 0
  encCtrl := 0
  decCtrl := 0
  lutCfg := 0
  lutAddr := 0
  lutCur := 0
  lut := ⟨[], []⟩
  ts0 := TileBank.zero
  ts1 := TileBank.zero
  mem := []
  host := []
  hostReads := []
  freeCount := 0

end Sys2Proof.Machine
end

