-- ==== Sys2Proof/Machine/Operands.lean ====
section
/-! DEFINITION. How register words become operands (30_encoding.md rule R113): fields, the enumerations carried in
registers, colour models, frame formats, and the addresses of pixels and samples (20_memory.md rules R75, R76). -/

namespace Sys2Proof.Machine

/-- `w[hi:lo]` as an unsigned integer (00_scope.md rule R6). -/
def getField (w : Word) (hi lo : Nat) : Nat := w.toNat / 2 ^ lo % 2 ^ (hi + 1 - lo)

/-- `w[i]` (00_scope.md rule R6). -/
def getBit (w : Word) (i : Nat) : Bool := w.getLsbD i

/-- The bits `hi` down to `lo`. -/
def fieldMask (hi lo : Nat) : Word := BitVec.ofNat 32 ((2 ^ (hi + 1 - lo) - 1) * 2 ^ lo)

/-- `REG.FIELD <- v`: one field written, the others left (00_scope.md rule R11). -/
def setField (w : Word) (hi lo : Nat) (v : Nat) : Word :=
  (w &&& ~~~fieldMask hi lo) ||| (BitVec.ofNat 32 (v * 2 ^ lo) &&& fieldMask hi lo)

/-- `1` for true. -/
def bitNat (b : Bool) : Nat := if b then 1 else 0

/-- `ceil2(n) = (n + 1) >> 1` (00_scope.md rule R7). -/
def ceil2 (n : Nat) : Nat := (n + 1) / 2

/-! ## Enumerations -/

/-- The surface pixel format (10_state.md rule R28, 30_encoding.md rule R103). -/
inductive PixelFormat where
  | bgra8
  | rgba16
  | rgbaf32
  | invalid
  deriving DecidableEq, Repr

/-- `SURF_FMT[1:0]` (30_encoding.md rule R103). -/
def pixelFormat (w : Word) : PixelFormat :=
  match getField w 1 0 with
  | 0 => .bgra8
  | 1 => .rgba16
  | 2 => .rgbaf32
  | _ => .invalid

/-- Bytes of one pixel (20_memory.md rule R75). No rule uses the format `invalid`. -/
def bpp : PixelFormat → Nat
  | .bgra8 => 4
  | .rgba16 => 8
  | .rgbaf32 => 16
  | .invalid => 0

/-- Bytes of one channel element (20_memory.md rule R73). No rule uses the format `invalid`. -/
def channelBytes : PixelFormat → Nat
  | .bgra8 => 1
  | .rgba16 => 2
  | .rgbaf32 => 4
  | .invalid => 1

/-- A channel of a pixel. -/
inductive Channel where
  | b
  | g
  | r
  | a
  deriving DecidableEq, Repr

/-- Byte offset of a channel inside its pixel (20_memory.md rule R75). -/
def channelOffset : PixelFormat → Channel → Nat
  | .bgra8, .b => 0
  | .bgra8, .g => 1
  | .bgra8, .r => 2
  | .bgra8, .a => 3
  | .rgba16, .b => 4
  | .rgba16, .g => 2
  | .rgba16, .r => 0
  | .rgba16, .a => 6
  | .rgbaf32, .b => 8
  | .rgbaf32, .g => 4
  | .rgbaf32, .r => 0
  | .rgbaf32, .a => 12
  | .invalid, _ => 0

/-- The matrix class of a colour model (40_resolver.md rule R131). -/
inductive MatrixClass where
  | linear
  | identity
  | ycgco
  | ycgcoRe
  | ycgcoRo
  deriving DecidableEq, Repr

/-- The code of a class in `STATUS.MCLASS` (10_state.md rule R24). -/
def classCode : MatrixClass → Nat
  | .linear => 0
  | .identity => 1
  | .ycgco => 2
  | .ycgcoRe => 3
  | .ycgcoRo => 4

/-- YCgCo, YCgCo-Re or YCgCo-Ro. -/
def isYCgCoFamily : MatrixClass → Bool
  | .ycgco | .ycgcoRe | .ycgcoRo => true
  | .linear | .identity => false

/-- YCgCo-Re or YCgCo-Ro. -/
def isYCgCoR : MatrixClass → Bool
  | .ycgcoRe | .ycgcoRo => true
  | .linear | .identity | .ycgco => false

/-- The status codes (60_exceptions.md rule R291), also those no command raises (rule R292). -/
inductive Status where
  | ok
  | nullParameter
  | outOfMemory
  | unknownYUVFormat
  | unsupportedBitDepth
  | unsupportedOutputPixelFormat
  | tileFormatMismatch
  | tileNclxProfileMismatch
  | colorSizeMismatch
  | alphaSizeMismatch
  | codecInitFailed
  | decodeFailed
  | encodeFailed
  | userCancelled
  | badCommand
  | badConfig
  | badAddress
  deriving DecidableEq, Repr

/-- The number of a status code (60_exceptions.md rule R291). -/
def statusCode : Status → Nat
  | .ok => 0x00
  | .nullParameter => 0x01
  | .outOfMemory => 0x02
  | .unknownYUVFormat => 0x03
  | .unsupportedBitDepth => 0x04
  | .unsupportedOutputPixelFormat => 0x05
  | .tileFormatMismatch => 0x06
  | .tileNclxProfileMismatch => 0x07
  | .colorSizeMismatch => 0x08
  | .alphaSizeMismatch => 0x09
  | .codecInitFailed => 0x0A
  | .decodeFailed => 0x0B
  | .encodeFailed => 0x0C
  | .userCancelled => 0x0D
  | .badCommand => 0x40
  | .badConfig => 0x41
  | .badAddress => 0x42

/-! ## Colour models -/

/-- A colour model (30_encoding.md rule R106). -/
structure ColourModel where
  cp : Nat
  tc : Nat
  mc : Nat
  fr : Bool
  deriving DecidableEq, Repr

/-- The fields of `CM`, `FRM_CICP`, `TS<b>_CICP` (30_encoding.md rule R106). -/
def colourModel (w : Word) : ColourModel where
  cp := getField w 7 0
  tc := getField w 15 8
  mc := getField w 23 16
  fr := getBit w 24

/-- `pack(cp, tc, mc, fr)` (30_encoding.md rule R106); the `CICP(…)` of rule R112. -/
def packModel (cp tc mc : Nat) (fr : Bool) : Word :=
  BitVec.ofNat 32 (cp + tc * 2 ^ 8 + mc * 2 ^ 16 + bitNat fr * 2 ^ 24)

/-- `CICP(…) + VALID` (30_encoding.md rule R112). -/
def packModelValid (cp tc mc : Nat) (fr : Bool) : Word := packModel cp tc mc fr + 0x80000000

/-- `w[24:0]`: all four fields of a colour model (30_encoding.md rule R106). -/
def modelBits (w : Word) : Word := w &&& fieldMask 24 0

/-- `CM.VALID` (10_state.md rule R25). -/
def cmValid (w : Word) : Bool := getBit w 31

/-! ## Frame formats and plane geometry -/

/-- The fields of `FRM_FMT` (10_state.md rule R30). -/
structure FrameFormat where
  depth : Nat
  xsh : Nat
  ysh : Nat
  mono : Bool
  uvswap : Bool
  deriving DecidableEq, Repr

/-- `FRM_FMT` (10_state.md rule R30). -/
def frameFormat (w : Word) : FrameFormat where
  depth := getField w 4 0
  xsh := getField w 8 8
  ysh := getField w 9 9
  mono := getBit w 10
  uvswap := getBit w 11

/-- Bytes of one plane sample (20_memory.md rule R76). -/
def bps (depth : Nat) : Nat := if depth = 8 then 1 else 2

/-- The fields of `LUT_CFG` (10_state.md rule R36). -/
structure LutConfig where
  depth : Nat
  mono : Bool
  ident : Bool
  full : Bool
  deriving DecidableEq, Repr

/-- `LUT_CFG` (10_state.md rule R36). -/
def lutConfig (w : Word) : LutConfig where
  depth := getField w 4 0
  mono := getBit w 8
  ident := getBit w 9
  full := getBit w 10

/-- `ENC_CTRL.CFMT` (10_state.md rule R34). -/
def encFormat (w : Word) : Nat := getField w 2 0

/-- `DEC_CTRL.CHECK_SIZE` (10_state.md rule R35). -/
def checkSize (w : Word) : Bool := getBit w 0

/-- `TILE.COL` (10_state.md rule R33). -/
def tileCol (w : Word) : Nat := getField w 15 0

/-- `TILE.ROW` (10_state.md rule R33). -/
def tileRow (w : Word) : Nat := getField w 31 16

/-- `XSH` of a requested chroma format (30_encoding.md rule R104). -/
def cfmtXsh (cfmt : Nat) : Nat := if cfmt = 3 then 0 else 1

/-- `YSH` of a requested chroma format (30_encoding.md rule R104). -/
def cfmtYsh (cfmt : Nat) : Nat := if cfmt = 0 ∨ cfmt = 1 then 1 else 0

/-- `MONO` of a requested chroma format (30_encoding.md rule R104). -/
def cfmtMono (cfmt : Nat) : Bool := cfmt == 0

/-- A chroma dimension: `cw = (W + XSH) >> XSH`, `ch = (H + YSH) >> YSH` (43_chroma_subsampler.md rule R191). -/
def chromaDim (n sh : Nat) : Nat := (n + sh) / 2 ^ sh

/-! ## Addresses -/

/-- `PixAddr(x, y)` (20_memory.md rule R75). -/
def pixAddr (f : Surface) (x y : Nat) : Nat :=
  f.base.toNat + y * f.stride.toNat + x * bpp (pixelFormat f.fmt)

/-- The address of a channel of a pixel (20_memory.md rule R75). -/
def channelAddr (f : Surface) (x y : Nat) (c : Channel) : Nat :=
  pixAddr f x y + channelOffset (pixelFormat f.fmt) c

/-- `SampAddr(P, x, y)` (20_memory.md rule R76). -/
def sampAddr (pl : Plane) (bytes x y : Nat) : Nat :=
  pl.base.toNat + y * pl.stride.toNat + x * bytes

/-- The plane that holds the U samples of the frame to decode (20_memory.md rule R76). -/
def decodeUPlane (s : State) : Plane := if (frameFormat s.frm.fmt).uvswap then s.vPlane else s.uPlane

/-- The plane that holds the V samples of the frame to decode (20_memory.md rule R76). -/
def decodeVPlane (s : State) : Plane := if (frameFormat s.frm.fmt).uvswap then s.uPlane else s.vPlane

/-! ## Tile-state banks -/

/-- Bank `b`: 0 the colour image, 1 the alpha image (46_tile_assembly.md rule R276). -/
def bank (s : State) (b : Bank) : TileBank := if b = 0#1 then s.ts0 else s.ts1

end Sys2Proof.Machine
end

