-- ==== Sys2Proof/Machine/Flags.lean ====
section
/-! DEFINITION. The status flags and status words (10_state.md rules R24, R38, R41, R44): how each is computed. -/

namespace Sys2Proof.Machine

/-- `STATUS.CODE <- code` (10_state.md rule R24). -/
def statusWithCode (w : Word) (c : Status) : Word := setField w 7 0 (statusCode c)

/-- `STATUS.MCLASS <- code(cls)`, `STATUS.COEF_VALID <- 1` (40_resolver.md rule R137). -/
def statusResolved (w : Word) (cls : MatrixClass) : Word :=
  setField (setField w 14 12 (classCode cls)) 8 8 1

/-- What `LUT_CUR` records of a table build (42_lut_builder.md rule R176). -/
def lutCurWord (depth : Nat) (mono ident full : Bool) : Word :=
  BitVec.ofNat 32 (depth + bitNat mono * 2 ^ 8 + bitNat ident * 2 ^ 9 + bitNat full * 2 ^ 10 + 2 ^ 31)

/-- What the recording of a first tile makes of `TS<b>_INFO`: `DEPTH`, `CLASS`, `SEEN`, `AUTH` (46_tile_assembly.md rule
R272, 10_state.md rule R41). -/
def infoRecorded (w : Word) (depth cls : Nat) (auth : Bool) : Word :=
  setField (setField (setField (setField w 4 0 depth) 10 8 cls) 16 16 1) 17 17 (bitNat auth)

/-- `TS<b>_INFO.DEPTH` (10_state.md rule R41). -/
def infoDepth (w : Word) : Nat := getField w 4 0

/-- `TS<b>_INFO.CLASS` (10_state.md rule R41). -/
def infoClass (w : Word) : Nat := getField w 10 8

/-- `TS<b>_INFO.AUTH` (10_state.md rule R41). -/
def infoAuth (w : Word) : Bool := getBit w 17

/-- What an encode writes to `FRM_FMT`: depth 8, the shifts and `MONO` of the chroma format, `UVSWAP = 0`
(44_encoder.md rule R206). -/
def encodedFrameFormat (cfmt : Nat) : Word :=
  BitVec.ofNat 32 (8 + cfmtXsh cfmt * 2 ^ 8 + cfmtYsh cfmt * 2 ^ 9 + bitNat (cfmtMono cfmt) * 2 ^ 10)

end Sys2Proof.Machine
end

