-- ==== Sys2Proof/Machine/Ops.lean ====
section
/-! DEFINITION. The operations every command shares: system memory (00_scope.md rule R10, 20_memory.md rules R71, R72),
the updates of State, the address checks (20_memory.md rules R77, R78), failing and succeeding (60_exceptions.md rules
R290, R294). -/

namespace Sys2Proof.Machine

/-! ## System memory -/

/-- What an address reads as that memory does not list. DESIGN CHOICE, unsafe (assumption log, entry 2): the spec leaves
memory after reset to the platform. -/
def unlistedByte : Byte := 0

/-- The byte at an address (20_memory.md rule R71). -/
def memByte : Memory → Nat → Byte
  | [], _ => unlistedByte
  | (k, v) :: rest, a => if k = a then v else memByte rest a

/-- The byte at an address written, the canonical form kept (20_memory.md rule R71). -/
def memPut : Memory → Nat → Byte → Memory
  | [], a, b => if b = unlistedByte then [] else [(a, b)]
  | (k, v) :: rest, a, b =>
    if a < k then (if b = unlistedByte then (k, v) :: rest else (a, b) :: (k, v) :: rest)
    else if a = k then (if b = unlistedByte then rest else (a, b) :: rest)
    else (k, v) :: memPut rest a b

/-- Every listed address is at least `lo` and below `2^AW`, the addresses rise strictly, and no byte is listed that an
unlisted address reads as. -/
def memWfFrom : Nat → Memory → Bool
  | _, [] => true
  | lo, (k, v) :: rest =>
    decide (lo ≤ k) && decide (k < 2 ^ 32) && decide (v ≠ unlistedByte) && memWfFrom (k + 1) rest

/-- The canonical form of memory. -/
def memWf (m : Memory) : Bool := memWfFrom 0 m

/-- `MemRead(addr, n)`: `n` bytes, the least significant first (00_scope.md rule R10, 20_memory.md rule R72). -/
def memRead (m : Memory) (a : Nat) : Nat → Nat
  | 0 => 0
  | n + 1 => (memByte m a).toNat + 256 * memRead m (a + 1) n

/-- `MemWrite(addr, n, v)`: the low `8n` bits of `v`, the least significant byte first (00_scope.md rule R10). -/
def memWrite (m : Memory) (a : Nat) : Nat → Nat → Memory
  | 0, _ => m
  | n + 1, v => memWrite (memPut m a (BitVec.ofNat 8 v)) (a + 1) n (v / 256)

/-- Bytes written to successive addresses (30_encoding.md rule R111, `MB`). -/
def memBytesWrite (m : Memory) (a : Nat) : List Byte → Memory
  | [] => m
  | b :: rest => memBytesWrite (memPut m a b) (a + 1) rest

/-- One element a command writes: `size` bytes at `addr` (20_memory.md rule R73). -/
structure Store where
  addr : Nat
  size : Nat
  value : Nat
  deriving DecidableEq, Repr

/-- The elements a command writes, applied. Their order is not observable (20_memory.md rule R80). -/
def memStores (m : Memory) (st : List Store) : Memory :=
  st.foldl (fun m e => memWrite m e.addr e.size e.value) m

/-- An address is one of an element's bytes. -/
def storeCovers (e : Store) (a : Nat) : Bool := decide (e.addr ≤ a) && decide (a < e.addr + e.size)

/-- An element for every position of a `w` by `h` rectangle, row by row. -/
def gridStores (w h : Nat) (f : Nat → Nat → List Store) : List Store :=
  (List.range h).flatMap fun y => (List.range w).flatMap fun x => f x y

/-! ## Updates of State -/

/-- `STATUS` written. -/
def setStatus (s : State) (w : Word) : State := { s with status := w }

/-- `KR`, `KG`, `KB` written. -/
def setCoefs (s : State) (k : Coefs) : State := { s with coefs := k }

/-- `FRM_W`, `FRM_H`, `FRM_FMT`, `FRM_CICP` written. -/
def setFrame (s : State) (f : Frame) : State := { s with frm := f }

/-- The LUT memory and `LUT_CUR` written. -/
def setLut (s : State) (t : LutMem) (cur : Word) : State := { s with lut := t, lutCur := cur }

/-- Bank `b` written. -/
def setBank (s : State) (b : Bank) (t : TileBank) : State :=
  if b = 0#1 then { s with ts0 := t } else { s with ts1 := t }

/-- System memory written. -/
def setMem (s : State) (m : Memory) : State := { s with mem := m }

/-- The host's transactions still to come. -/
def setHost (s : State) (q : List HostTx) : State := { s with host := q }

/-- A resolved colour model written: `KR`, `KG`, `KB`, `STATUS.MCLASS`, `STATUS.COEF_VALID` (40_resolver.md rule
R137). -/
def writeResolved (s : State) (cls : MatrixClass) (k : Coefs) : State :=
  setStatus (setCoefs s k) (statusResolved s.status cls)

/-! ## Failing and succeeding -/

/-- `fail(<StatusName>)`: `STATUS.CODE` written, nothing else; nothing is saved, no mode changes and control goes nowhere
(00_scope.md rule R12, 60_exceptions.md rule R294). There is no return from it (rule R299). -/
def fail (s : State) (c : Status) : State := setStatus s (statusWithCode s.status c)

/-- The end of an execute phase: `STATUS.CODE <- 0` (60_exceptions.md rule R290). -/
def succeed (s : State) : State := setStatus s (statusWithCode s.status .ok)

/-- The first failing check in a list of checks in their order (60_exceptions.md rule R293). -/
def firstFailure : List (Bool × Status) → Option Status
  | [] => none
  | (failed, c) :: rest => if failed then some c else firstFailure rest

/-- A command: its check phase found `failure` or none, and `effect` is the state its execute phase reaches
(60_exceptions.md rules R290, R294). -/
def command (failure : Option Status) (effect s : State) : Host.Outcome State Fault Refusal :=
  .next (match failure with
    | some c => fail s c
    | none => succeed effect)

/-- What a word that is no command does (30_encoding.md rule R102). -/
def illegalCommand (s : State) : State := fail s .badCommand

/-! ## Buffers and address checks -/

/-- A buffer of a command (20_memory.md rule R77): `rows` rows of `rowBytes` bytes, in elements of `elem` bytes. -/
structure Buffer where
  base : Nat
  stride : Nat
  rows : Nat
  rowBytes : Nat
  elem : Nat
  deriving DecidableEq, Repr

/-- The upper end of the extent `[base, base + (rows - 1) * stride + rowBytes)` (20_memory.md rule R77). -/
def bufferEnd (b : Buffer) : Nat := b.base + (b.rows - 1) * b.stride + b.rowBytes

/-- Check (b): rule R74. -/
def bufferAligned (b : Buffer) : Bool := b.base % b.elem == 0 && b.stride % b.elem == 0

/-- Check (c): the extent ends at or below `2^AW`. -/
def bufferInRange (b : Buffer) : Bool := decide (bufferEnd b ≤ 2 ^ 32)

/-- Check (e): the extent does not meet the register window. -/
def bufferClearOfWindow (p : Params) (b : Buffer) : Bool :=
  decide (bufferEnd b ≤ p.cmcBase) || decide (p.cmcBase + 4096 ≤ b.base)

/-- Two extents are disjoint. -/
def buffersApart (a b : Buffer) : Bool := decide (bufferEnd a ≤ b.base) || decide (bufferEnd b ≤ a.base)

/-- Check (d): every written buffer is disjoint from every other buffer of the command. -/
def writesApart : List Buffer → List Buffer → Bool
  | [], _ => true
  | w :: ws, reads => ws.all (buffersApart w) && reads.all (buffersApart w) && writesApart ws reads

/-- The checks (b) to (e) of 20_memory.md rule R78 over a command's buffers; all fail with BadAddress. -/
def addressesOk (p : Params) (reads writes : List Buffer) : Bool :=
  (reads ++ writes).all (fun b => bufferAligned b && bufferInRange b && bufferClearOfWindow p b) &&
    writesApart writes reads

/-- The surface as a buffer: `SURF_H` rows of `SURF_W` pixels (20_memory.md rule R77). -/
def surfaceBuffer (f : Surface) : Buffer where
  base := f.base.toNat
  stride := f.stride.toNat
  rows := f.height.toNat
  rowBytes := f.width.toNat * bpp (pixelFormat f.fmt)
  elem := channelBytes (pixelFormat f.fmt)

/-- A plane of `w` by `h` samples of `bytes` bytes as a buffer (20_memory.md rule R77). -/
def planeBuffer (pl : Plane) (w h bytes : Nat) : Buffer where
  base := pl.base.toNat
  stride := pl.stride.toNat
  rows := h
  rowBytes := w * bytes
  elem := bytes

end Sys2Proof.Machine
end

