-- ==== Sys2Proof/Machine/Bus.lean ====
section
/-! DEFINITION. The host's accesses: registers (10_state.md rules R21 to R23, R37, R45), system memory (20_memory.md rule
R70), the platform's reset (70_reset_and_hazards.md rule R320); and which command the host issues next. -/

namespace Sys2Proof.Machine

/-- The LUT entry that `LUT_ADDR` selects, if it is written (10_state.md rule R37). -/
def lutEntry (s : State) : Option Num :=
  if getBit s.lutAddr 16 then s.lut.chroma[getField s.lutAddr 15 0]? else s.lut.luma[getField s.lutAddr 15 0]?

/-- What a host read of `LUT_DATA` returns: for an unwritten entry a free value (10_state.md rule R37). -/
def lutDataRead (s : State) : Word :=
  match lutEntry s with
  | some v => enc32 v
  | none => Config.unwrittenLutWord s.freeCount

/-- What a host read of a register returns (10_state.md rules R21 to R42). -/
def readReg (s : State) : RegName → Word
  | .id => 0x434D4307
  | .cmd => 0
  | .status => s.status
  | .cm => s.cm
  | .kr => enc32 s.coefs.kr
  | .kg => enc32 s.coefs.kg
  | .kb => enc32 s.coefs.kb
  | .surfBase => s.surf.base
  | .surfStride => s.surf.stride
  | .surfW => s.surf.width
  | .surfH => s.surf.height
  | .surfFmt => s.surf.fmt
  | .frmW => s.frm.width
  | .frmH => s.frm.height
  | .frmFmt => s.frm.fmt
  | .frmCicp => s.frm.cicp
  | .yBase => s.yPlane.base
  | .yStride => s.yPlane.stride
  | .uBase => s.uPlane.base
  | .uStride => s.uPlane.stride
  | .vBase => s.vPlane.base
  | .vStride => s.vPlane.stride
  | .tile => s.tile
  | .encCtrl => s.encCtrl
  | .decCtrl => s.decCtrl
  | .lutCfg => s.lutCfg
  | .lutAddr => s.lutAddr
  | .lutData => lutDataRead s
  | .lutCur => s.lutCur
  | .ts0ExpW => s.ts0.expW
  | .ts0ExpH => s.ts0.expH
  | .ts0Info => s.ts0.info
  | .ts0Cicp => s.ts0.cicp
  | .ts1ExpW => s.ts1.expW
  | .ts1ExpH => s.ts1.expH
  | .ts1Info => s.ts1.info
  | .ts1Cicp => s.ts1.cicp

/-- How many free values a host read of a register uses. -/
def freeUsed (s : State) (r : RegName) : Nat := if r = .lutData ∧ lutEntry s = none then 1 else 0

/-- A value the host has read. -/
def noteRead (s : State) (v : Word) : State := { s with hostReads := v :: s.hostReads }

/-- A host read of a register: no side effect on the block (10_state.md rules R21, R37). -/
def hostReadReg (s : State) (r : RegName) : State :=
  { noteRead s (readReg s r) with freeCount := s.freeCount + freeUsed s r }

/-- A register written whatever its access type, `v` having its reserved bits cleared (10_state.md rule R21). -/
def storeReg (s : State) (v : Word) : RegName → State
  | .cm => { s with cm := v }
  | .surfBase => { s with surf := { s.surf with base := v } }
  | .surfStride => { s with surf := { s.surf with stride := v } }
  | .surfW => { s with surf := { s.surf with width := v } }
  | .surfH => { s with surf := { s.surf with height := v } }
  | .surfFmt => { s with surf := { s.surf with fmt := v } }
  | .frmW => { s with frm := { s.frm with width := v } }
  | .frmH => { s with frm := { s.frm with height := v } }
  | .frmFmt => { s with frm := { s.frm with fmt := v } }
  | .frmCicp => { s with frm := { s.frm with cicp := v } }
  | .yBase => { s with yPlane := { s.yPlane with base := v } }
  | .yStride => { s with yPlane := { s.yPlane with stride := v } }
  | .uBase => { s with uPlane := { s.uPlane with base := v } }
  | .uStride => { s with uPlane := { s.uPlane with stride := v } }
  | .vBase => { s with vPlane := { s.vPlane with base := v } }
  | .vStride => { s with vPlane := { s.vPlane with stride := v } }
  | .tile => { s with tile := v }
  | .encCtrl => { s with encCtrl := v }
  | .decCtrl => { s with decCtrl := v }
  | .lutCfg => { s with lutCfg := v }
  | .lutAddr => { s with lutAddr := v }
  | .ts0ExpW => { s with ts0 := { s.ts0 with expW := v } }
  | .ts0ExpH => { s with ts0 := { s.ts0 with expH := v } }
  | .ts1ExpW => { s with ts1 := { s.ts1 with expW := v } }
  | .ts1ExpH => { s with ts1 := { s.ts1 with expH := v } }
  | .id | .cmd | .status | .kr | .kg | .kb | .lutData | .lutCur => s
  | .ts0Info | .ts0Cicp | .ts1Info | .ts1Cicp => s

/-- A host write of a register other than `CMD`: ignored where the register is read-only, reserved bits ignored
(10_state.md rule R21). -/
def hostWriteReg (s : State) (r : RegName) (v : Word) : State :=
  match regAccess r with
  | .rw => storeReg s (v &&& regMask r) r
  | .ro | .wo => s

/-- What the next transaction of the host asks for. -/
inductive Fetched where
  /-- The host has issued everything; the block is idle. -/
  | idle
  /-- An access other than a command, done. -/
  | done (s : State)
  /-- A write of a word to `CMD`. -/
  | issued (w : Word) (s : State)
  /-- The access has no address. -/
  | outOfRange
  /-- The access is not defined (93_implementation_defined.md U9). -/
  | undefinedAccess
  deriving DecidableEq, Repr

/-- A 32-bit write at an offset of the register window (10_state.md rules R21, R23, R45). -/
def busRegWrite (off : BitVec 12) (v : Word) (s : State) : Fetched :=
  if off.toNat % 4 = 0 then
    match regAt off with
    | none => .done s
    | some r => if r = .cmd then .issued v s else .done (hostWriteReg s r v)
  else .undefinedAccess

/-- A 32-bit read at an offset of the register window (10_state.md rules R21, R45). -/
def busRegRead (off : BitVec 12) (s : State) : Fetched :=
  if off.toNat % 4 = 0 then
    match regAt off with
    | none => .done (noteRead s 0)
    | some r => .done (hostReadReg s r)
  else .undefinedAccess

/-- A memory transaction at `[a, a + n)`: memory outside the register window, a register access where it is a naturally
aligned 32-bit access inside it, undefined where it meets the window otherwise (20_memory.md rule R70, 10_state.md rule
R21). -/
def busRoute (p : Params) (a n : Nat) (onMemory : Fetched) (onRegister : BitVec 12 → Fetched) : Fetched :=
  if 2 ^ 32 < a + n then .outOfRange
  else if touchesWindow p a n then
    (if n = 4 ∧ a % 4 = 0 then onRegister (BitVec.ofNat 12 (a - p.cmcBase)) else .undefinedAccess)
  else onMemory

/-- The platform's reset, between commands: the block as after reset, system memory not touched
(70_reset_and_hazards.md rule R320); the host and the counter of free values are outside the block. -/
def platformReset (s : State) : State :=
  { State.reset with mem := s.mem, host := s.host, hostReads := s.hostReads, freeCount := s.freeCount }

/-- One transaction of the host. -/
def hostTransaction (p : Params) (tx : HostTx) (s : State) : Fetched :=
  match tx with
  | .regWrite off v => busRegWrite off v s
  | .regRead off => busRegRead off s
  | .memWrite a size v =>
    busRoute p a.toNat (accessBytes size)
      (.done (setMem s (memWrite s.mem a.toNat (accessBytes size) v.toNat)))
      (fun off => busRegWrite off v s)
  | .memRead a size =>
    busRoute p a.toNat (accessBytes size)
      (.done (noteRead s (BitVec.ofNat 32 (memRead s.mem a.toNat (accessBytes size)))))
      (fun off => busRegRead off s)
  | .memBytes a bs =>
    if 2 ^ 32 < a.toNat + bs.length then .outOfRange
    else if touchesWindow p a.toNat bs.length then .undefinedAccess
    else .done (setMem s (memBytesWrite s.mem a.toNat bs))
  | .platformReset => .done (platformReset s)

/-- The host's next transaction, taken from its script (30_encoding.md rule R111). -/
def nextTx (s : State) : Fetched :=
  match s.host with
  | [] => .idle
  | tx :: rest => hostTransaction Config.params tx (setHost s rest)

/-- A write of a word to `CMD` (10_state.md rule R23). -/
def cmdWrite (w : Word) : HostTx := wr .cmd w

/-- The pseudo-instruction of a command: `WR CMD` of its word (30_encoding.md rule R112). -/
def commandScript (i : Instr) : List HostTx := [cmdWrite (encode i)]

end Sys2Proof.Machine
end

