-- ==== Sys2Proof/Machine/Resolver.lean ====
section
/-! DEFINITION. The colour model resolver and the command RESOLVE (40_resolver.md). -/

namespace Sys2Proof.Machine

/-- `classify(mc)` (40_resolver.md rule R131). -/
def classify (mc : Nat) : MatrixClass :=
  if mc = 0 then .identity
  else if mc = 8 then .ycgco
  else if mc = 16 then .ycgcoRe
  else if mc = 17 then .ycgcoRo
  else .linear

/-- The table `KTAB` as decimal literals (kr, kb) (40_resolver.md rule R132). -/
def ktab (mc : Nat) : Option (Rat × Rat) :=
  if mc = 1 then some (2126 / 10000, 722 / 10000)
  else if mc = 4 then some (30 / 100, 11 / 100)
  else if mc = 5 then some (299 / 1000, 114 / 1000)
  else if mc = 6 then some (299 / 1000, 114 / 1000)
  else if mc = 7 then some (212 / 1000, 87 / 1000)
  else if mc = 9 then some (2627 / 10000, 593 / 10000)
  else none

/-- `FALLBACK` as decimal literals (kr, kb) (40_resolver.md rule R134). -/
def fallback : Rat × Rat := (299 / 1000, 114 / 1000)

/-- A row of `PRIMARIES` with its literals turned into `NUM` values (40_resolver.md rule R133). -/
def primariesNum (m : NumMode) (c : Chromaticities) : Chromaticities where
  rX := numLit m c.rX
  rY := numLit m c.rY
  gX := numLit m c.gX
  gY := numLit m c.gY
  bX := numLit m c.bX
  bY := numLit m c.bY
  wX := numLit m c.wX
  wY := numLit m c.wY

/-- `num(1) - (x + y)` (40_resolver.md rule R133). -/
def zOf (m : NumMode) (x y : Num) : Num := numSub m (numOf 1) (numAdd m x y)

/-- `a * b - c * d` (40_resolver.md rule R133). -/
def crossDiff (m : NumMode) (a b c d : Num) : Num := numSub m (numMul m a b) (numMul m c d)

/-- `a1 * c1 + a2 * c2 + a3 * c3`, left to right (40_resolver.md rule R133). -/
def sum3 (m : NumMode) (a1 c1 a2 c2 a3 c3 : Num) : Num :=
  numAdd m (numAdd m (numMul m a1 c1) (numMul m a2 c2)) (numMul m a3 c3)

/-- `den` of 40_resolver.md rule R133. -/
def deriveDen (m : NumMode) (c : Chromaticities) : Num :=
  let rZ := zOf m c.rX c.rY
  let gZ := zOf m c.gX c.gY
  let bZ := zOf m c.bX c.bY
  numMul m c.wY (sum3 m c.rX (crossDiff m c.gY bZ c.bY gZ) c.gX (crossDiff m c.bY rZ c.rY bZ)
    c.bX (crossDiff m c.rY gZ c.gY rZ))

/-- `krn` of 40_resolver.md rule R133. -/
def deriveKrn (m : NumMode) (c : Chromaticities) : Num :=
  let gZ := zOf m c.gX c.gY
  let bZ := zOf m c.bX c.bY
  let wZ := zOf m c.wX c.wY
  numMul m c.rY (sum3 m c.wX (crossDiff m c.gY bZ c.bY gZ) c.wY (crossDiff m c.bX gZ c.gX bZ)
    wZ (crossDiff m c.gX c.bY c.bX c.gY))

/-- `kbn` of 40_resolver.md rule R133. -/
def deriveKbn (m : NumMode) (c : Chromaticities) : Num :=
  let rZ := zOf m c.rX c.rY
  let gZ := zOf m c.gX c.gY
  let wZ := zOf m c.wX c.wY
  numMul m c.bY (sum3 m c.wX (crossDiff m c.rY gZ c.gY rZ) c.wY (crossDiff m c.gX rZ c.rX gZ)
    wZ (crossDiff m c.rX c.gY c.gX c.rY))

/-- `derive(cp)`: none where `PRIMARIES[cp]` is undefined or `den = num(0)` (40_resolver.md rule R133). -/
def derive (p : Params) (cp : Nat) : Option (Num × Num) :=
  match p.primaries cp with
  | none => none
  | some row =>
    let c := primariesNum p.num row
    if deriveDen p.num c = 0 then none
    else some (numDiv p.num (deriveKrn p.num c) (deriveDen p.num c),
      numDiv p.num (deriveKbn p.num c) (deriveDen p.num c))

/-- The triple of a pair (kr, kb): `kg = (num(1) - kr) - kb` (40_resolver.md rule R135). -/
def tripleOf (m : NumMode) (kr kb : Num) : Coefs where
  kr := kr
  kg := numSub m (numSub m (numOf 1) kr) kb
  kb := kb

/-- The triple of a pair of decimal literals. -/
def literalTriple (m : NumMode) (k : Rat × Rat) : Coefs := tripleOf m (numLit m k.1) (numLit m k.2)

/-- A divisor of the transforms would be zero (40_resolver.md rule R136). -/
def degenerate (m : NumMode) (k : Coefs) : Bool :=
  decide (k.kg = 0) || decide (numSub m (numOf 1) k.kr = 0) || decide (numSub m (numOf 1) k.kb = 0)

/-- The triple before the guard of 40_resolver.md rule R136. -/
def candidate (p : Params) (cp mc : Nat) : Coefs :=
  match ktab mc with
  | some k => literalTriple p.num k
  | none =>
    if mc = 12 then
      match derive p cp with
      | some k => tripleOf p.num k.1 k.2
      | none => literalTriple p.num fallback
    else literalTriple p.num fallback

/-- The coefficients of `resolve(cp, mc)`, the class being `classify(mc)` (40_resolver.md rule R137). -/
def resolveCoefs (p : Params) (cp mc : Nat) : Coefs :=
  if degenerate p.num (candidate p cp mc) then literalTriple p.num fallback else candidate p cp mc

/-- A command resolves the colour model `cm`: what its execute phase writes of it (40_resolver.md rule R137). -/
def resolveInto (p : Params) (cm : ColourModel) (s : State) : State :=
  writeResolved s (classify cm.mc) (resolveCoefs p cm.cp cm.mc)

/-- The default `PRIMARIES` table (40_resolver.md rule R133). -/
def defaultPrimaries (cp : Nat) : Option Chromaticities :=
  if cp = 1 then some ⟨64 / 100, 33 / 100, 3 / 10, 6 / 10, 15 / 100, 6 / 100, 3127 / 10000, 329 / 1000⟩
  else if cp = 4 then some ⟨67 / 100, 33 / 100, 21 / 100, 71 / 100, 14 / 100, 8 / 100, 310 / 1000, 316 / 1000⟩
  else if cp = 5 then some ⟨64 / 100, 33 / 100, 29 / 100, 60 / 100, 15 / 100, 6 / 100, 3127 / 10000, 3290 / 10000⟩
  else if cp = 6 then some ⟨630 / 1000, 340 / 1000, 310 / 1000, 595 / 1000, 155 / 1000, 70 / 1000, 3127 / 10000, 3290 / 10000⟩
  else if cp = 7 then some ⟨630 / 1000, 340 / 1000, 310 / 1000, 595 / 1000, 155 / 1000, 70 / 1000, 3127 / 10000, 3290 / 10000⟩
  else if cp = 8 then some ⟨681 / 1000, 319 / 1000, 243 / 1000, 692 / 1000, 145 / 1000, 49 / 1000, 310 / 1000, 316 / 1000⟩
  else if cp = 9 then some ⟨708 / 1000, 292 / 1000, 170 / 1000, 797 / 1000, 131 / 1000, 46 / 1000, 3127 / 10000, 3290 / 10000⟩
  else if cp = 10 then some ⟨1, 0, 0, 1, 0, 0, 3333 / 10000, 3333 / 10000⟩
  else if cp = 11 then some ⟨680 / 1000, 320 / 1000, 265 / 1000, 690 / 1000, 150 / 1000, 60 / 1000, 314 / 1000, 351 / 1000⟩
  else if cp = 12 then some ⟨680 / 1000, 320 / 1000, 265 / 1000, 690 / 1000, 150 / 1000, 60 / 1000, 3127 / 10000, 3290 / 10000⟩
  else if cp = 22 then some ⟨630 / 1000, 340 / 1000, 295 / 1000, 605 / 1000, 155 / 1000, 77 / 1000, 3127 / 10000, 3290 / 10000⟩
  else none

/-- The parameters of the test vectors (92_eei_decisions.md, "Open parameters, collected"): `CMC_BASE = 0x40000000`, the
default `PRIMARIES`, and a choice of `NUM` and `CHROMA_BIAS`. -/
def vectorParams (m : NumMode) (b : ChromaBias) : Params where
  num := m
  bias := b
  cmcPage := 0x40000
  primaries := defaultPrimaries

/-! ## RESOLVE -/

/-- The execute phase of RESOLVE (40_resolver.md rule R130). -/
def resolveEffect (p : Params) (s : State) : State := resolveInto p (colourModel s.cm) s

/-- RESOLVE: no check (40_resolver.md rule R130). -/
def execResolve (s : State) : Host.Outcome State Fault Refusal :=
  command none (resolveEffect Config.params s) s

end Sys2Proof.Machine
end

