-- ==== Sys2Proof/Machine/Lut.lean ====
section
/-! DEFINITION. The sample range / lookup-table builder and the command BUILD_LUT (42_lut_builder.md). -/

namespace Sys2Proof.Machine

/-- `depthOK(bd)` (42_lut_builder.md rule R171). -/
def depthOk (bd : Nat) : Bool := bd == 8 || bd == 10 || bd == 12 || bd == 16

/-- `max = 2^bd - 1`, the largest sample code (42_lut_builder.md rule R172). -/
def maxCode (bd : Nat) : Nat := 2 ^ bd - 1

/-- The two calibrations of the limited range (42_lut_builder.md rule R173). -/
inductive RangeKind where
  | luma
  | chroma
  deriving DecidableEq, Repr

/-- `lo` of the table `LIM` (42_lut_builder.md rule R172). -/
def limLo (bd : Nat) : Nat := 16 * 2 ^ (bd - 8)

/-- `hiY` or `hiC` of the table `LIM` (42_lut_builder.md rule R172). -/
def limHi (bd : Nat) (kind : RangeKind) : Nat :=
  match kind with
  | .luma => 235 * 2 ^ (bd - 8)
  | .chroma => 240 * 2 ^ (bd - 8)

/-- `hi - lo` (42_lut_builder.md rules R172, R173). -/
def limSpan (bd : Nat) (kind : RangeKind) : Nat := limHi bd kind - limLo bd

/-- `rescale(i, bd, kind)`, in unbounded integers, `div` the floor (42_lut_builder.md rule R173). -/
def rescale (i bd : Nat) (kind : RangeKind) : Nat :=
  (clampI ((((i : Int) - limLo bd) * maxCode bd + (limSpan bd kind / 2 : Nat)) / (limSpan bd kind : Int))
    0 (maxCode bd)).toNat

/-- `cY(i)` or `cC(i)`: the code itself in full range, rescaled in limited range (42_lut_builder.md rules R174, R175). -/
def rangedCode (bd : Nat) (full : Bool) (kind : RangeKind) (i : Nat) : Nat :=
  if full then i else rescale i bd kind

/-- `num(c) / num(2^bd - 1)` (42_lut_builder.md rules R174, R175). -/
def normalise (m : NumMode) (bd c : Nat) : Num := numDiv m (numOf c) (numOf (maxCode bd))

/-- `lumaEntry(bd, full, i)` (42_lut_builder.md rule R174). -/
def lumaEntry (m : NumMode) (bd : Nat) (full : Bool) (i : Nat) : Num :=
  normalise m bd (rangedCode bd full .luma i)

/-- `bias(bd)` (42_lut_builder.md rule R175); at depth 8 the `encbias` of 41_color_matrix.md rule R152. -/
def chromaBias (p : Params) (bd : Nat) : Num :=
  match p.bias with
  | .half => numLit p.num (1 / 2)
  | .code => numDiv p.num (numOf (2 ^ (bd - 1))) (numOf (maxCode bd))

/-- `chromaEntry(bd, full, ident, i)` (42_lut_builder.md rule R175). -/
def chromaEntry (p : Params) (bd : Nat) (full ident : Bool) (i : Nat) : Num :=
  if ident then lumaEntry p.num bd full i
  else numSub p.num (normalise p.num bd (rangedCode bd full .chroma i)) (chromaBias p bd)

/-- The list `f i, f (i + 1), …` of `n` entries. -/
def tabulate (f : Nat → Num) : Nat → Nat → List Num
  | _, 0 => []
  | i, n + 1 => f i :: tabulate f (i + 1) n

/-- The LUT memory that `buildTables(bd, mono, ident, full)` leaves (42_lut_builder.md rule R176). -/
def buildTables (p : Params) (bd : Nat) (mono ident full : Bool) : LutMem where
  luma := tabulate (lumaEntry p.num bd full) 0 (2 ^ bd)
  chroma := if mono then [] else tabulate (chromaEntry p bd full ident) 0 (2 ^ bd)

/-- `buildTables`: the LUT memory and `LUT_CUR` written (42_lut_builder.md rule R176). -/
def buildInto (p : Params) (bd : Nat) (mono ident full : Bool) (s : State) : State :=
  setLut s (buildTables p bd mono ident full) (lutCurWord bd mono ident full)

/-- A table read by a conversion. The rules read only entries that the same command has written (10_state.md rule R39),
so the value past the end of the list is never used. -/
def lutRead (t : List Num) (i : Nat) : Num := t.getD i 0

/-! ## BUILD_LUT -/

/-- The check phase of BUILD_LUT (42_lut_builder.md rule R170). -/
def buildLutCheck (s : State) : Option Status :=
  firstFailure [(!depthOk (lutConfig s.lutCfg).depth, .unsupportedBitDepth)]

/-- The execute phase of BUILD_LUT (42_lut_builder.md rule R170). -/
def buildLutEffect (p : Params) (s : State) : State :=
  buildInto p (lutConfig s.lutCfg).depth (lutConfig s.lutCfg).mono (lutConfig s.lutCfg).ident
    (lutConfig s.lutCfg).full s

/-- BUILD_LUT (42_lut_builder.md rule R170). -/
def execBuildLut (s : State) : Host.Outcome State Fault Refusal :=
  command (buildLutCheck s) (buildLutEffect Config.params s) s

end Sys2Proof.Machine
end

