-- ==== Sys2Proof/Machine/Matrix.lean ====
section
/-! DEFINITION. The colour matrix converter: forward and inverse transforms and the quantisation at each end
(41_color_matrix.md). -/

namespace Sys2Proof.Machine

/-- A pixel's `NUM` values Y, U, V. -/
structure Yuv where
  y : Num
  u : Num
  v : Num
  deriving DecidableEq, Repr

/-- A pixel's `NUM` values R, G, B. -/
structure Rgb where
  r : Num
  g : Num
  b : Num
  deriving DecidableEq, Repr

/-! ## Forward -/

/-- `n8(c) = num(c) / num(255)` (41_color_matrix.md rule R150). -/
def n8 (m : NumMode) (c : Nat) : Num := numDiv m (numOf c) (numOf 255)

/-- `fwd(kr, kg, kb, R, G, B)` for the class `LINEAR` (41_color_matrix.md rule R151). -/
def fwd (m : NumMode) (k : Coefs) (r g b : Nat) : Yuv :=
  let y := numAdd m (numAdd m (numMul m k.kr (n8 m r)) (numMul m k.kg (n8 m g))) (numMul m k.kb (n8 m b))
  { y := y
    u := numDiv m (numSub m (n8 m b) y) (numMul m (numOf 2) (numSub m (numOf 1) k.kb))
    v := numDiv m (numSub m (n8 m r) y) (numMul m (numOf 2) (numSub m (numOf 1) k.kr)) }

/-- `qY(Y)` (41_color_matrix.md rule R152). -/
def quantLuma (m : NumMode) (y : Num) : Nat := quant m y 255

/-- `qC(C)`, `encbias` being the bias of the 8-bit chroma table (41_color_matrix.md rule R152). -/
def quantChroma (p : Params) (c : Num) : Nat := quant p.num (numAdd p.num c (chromaBias p 8)) 255

/-! ## Inverse -/

/-- `invLinear` (41_color_matrix.md rule R153). -/
def invLinear (m : NumMode) (k : Coefs) (t : LutMem) (yc uc vc : Nat) : Rgb :=
  let y := lutRead t.luma yc
  let cb := lutRead t.chroma uc
  let cr := lutRead t.chroma vc
  { r := numAdd m y (numMul m (numMul m (numOf 2) (numSub m (numOf 1) k.kr)) cr)
    g := numSub m y (numDiv m
      (numMul m (numOf 2)
        (numAdd m (numMul m (numMul m k.kr (numSub m (numOf 1) k.kr)) cr)
          (numMul m (numMul m k.kb (numSub m (numOf 1) k.kb)) cb)))
      k.kg)
    b := numAdd m y (numMul m (numMul m (numOf 2) (numSub m (numOf 1) k.kb)) cb) }

/-- `invIdentity` (41_color_matrix.md rule R154). -/
def invIdentity (t : LutMem) (yc uc vc : Nat) : Rgb where
  r := lutRead t.chroma vc
  g := lutRead t.luma yc
  b := lutRead t.chroma uc

/-- `invYCgCo` (41_color_matrix.md rule R155). -/
def invYCgCo (m : NumMode) (t : LutMem) (yc uc vc : Nat) : Rgb :=
  let y := lutRead t.luma yc
  let cg := lutRead t.chroma uc
  let co := lutRead t.chroma vc
  { r := numAdd m (numSub m y cg) co
    g := numAdd m y cg
    b := numSub m (numSub m y cg) co }

/-- `M`, the largest RGB code: the RGB depth is `bd - 2` for YCgCo-Re and `bd - 1` for YCgCo-Ro (41_color_matrix.md
rule R156). -/
def reversibleMax (cls : MatrixClass) (bd : Nat) : Nat :=
  match cls with
  | .ycgcoRe => 2 ^ (bd - 2) - 1
  | _ => 2 ^ (bd - 1) - 1

/-- The integer triple (Ri, Gi, Bi) of `invYCgCoR`, halving by floor, Ri from the clamped Bi (41_color_matrix.md rule
R156). -/
def reversibleRgb (top bd yc uc vc : Nat) : Nat × Nat × Nat :=
  let cg : Int := (uc : Int) - 2 ^ (bd - 1)
  let co : Int := (vc : Int) - 2 ^ (bd - 1)
  let t : Int := yc - cg / 2
  let gi := clampI (t + cg) 0 top
  let bi := clampI (t - co / 2) 0 top
  let ri := clampI (bi + co) 0 top
  (ri.toNat, gi.toNat, bi.toNat)

/-- `invYCgCoR` (41_color_matrix.md rule R156). -/
def invYCgCoR (m : NumMode) (cls : MatrixClass) (bd yc uc vc : Nat) : Rgb :=
  let top := reversibleMax cls bd
  let i := reversibleRgb top bd yc uc vc
  { r := numDiv m (numOf i.1) (numOf top)
    g := numDiv m (numOf i.2.1) (numOf top)
    b := numDiv m (numOf i.2.2) (numOf top) }

/-- The monochrome inverse (41_color_matrix.md rule R157). -/
def invMono (t : LutMem) (yc : Nat) : Rgb where
  r := lutRead t.luma yc
  g := lutRead t.luma yc
  b := lutRead t.luma yc

/-! ## Output quantisation -/

/-- The stored element of a channel value (41_color_matrix.md rule R158). -/
def quantOut (m : NumMode) (f : PixelFormat) (c : Num) : Nat :=
  match f with
  | .bgra8 => quant m c 255
  | .rgba16 => quant m c 65535
  | .rgbaf32 => (enc32 (clamp01 c)).toNat
  | .invalid => 0

end Sys2Proof.Machine
end

