-- ==== Sys2Proof/Machine/Subsample.lean ====
section
/-! DEFINITION. The 2x2 chroma subsampler and the chroma index (43_chroma_subsampler.md). -/

namespace Sys2Proof.Machine

/-- `Blk(bx, by)` in raster order (43_chroma_subsampler.md rule R190). -/
def blockPixels (w h bx rowB : Nat) : List (Nat × Nat) :=
  [(2 * bx, 2 * rowB), (2 * bx + 1, 2 * rowB), (2 * bx, 2 * rowB + 1), (2 * bx + 1, 2 * rowB + 1)].filter
    fun q => decide (q.1 < w) && decide (q.2 < h)

/-- `Prow`: a block's pixels of one row, left first (43_chroma_subsampler.md rule R193). -/
def rowPixels (w bx y : Nat) : List (Nat × Nat) :=
  [(2 * bx, y), (2 * bx + 1, y)].filter fun q => decide (q.1 < w)

/-- `mean` (43_chroma_subsampler.md rule R196). Lists of other lengths do not arise (rule R190). -/
def mean (m : NumMode) : List Num → Num
  | [a1] => numDiv m a1 (numOf 1)
  | [a1, a2] => numDiv m (numAdd m a1 a2) (numOf 2)
  | [a1, a2, a3, a4] => numDiv m (numAdd m (numAdd m (numAdd m a1 a2) a3) a4) (numOf 4)
  | _ => 0

/-- The `NUM` chroma of chroma position `(cx, cy)` of an image `w` by `h` in the chroma format `cfmt` 1, 2 or 3, `u`
being the chroma of each pixel (43_chroma_subsampler.md rules R192, R193, R194). -/
def chromaAt (m : NumMode) (cfmt w h : Nat) (u : Nat → Nat → Num) (cx cy : Nat) : Num :=
  if cfmt = 1 then mean m ((blockPixels w h cx cy).map fun q => u q.1 q.2)
  else if cfmt = 2 then mean m ((rowPixels w cx cy).map fun q => u q.1 q.2)
  else u cx cy

/-- One coordinate of `cidx` (43_chroma_subsampler.md rule R195). -/
def chromaIndex (n sh x : Nat) : Nat := min (x / 2 ^ sh) (chromaDim n sh - 1)

end Sys2Proof.Machine
end

