-- ==== Sys2Proof/Machine/Tile.lean ====
section
/-! DEFINITION. Tiled image assembly and the commands TILE_VALIDATE and TILE_RESET (46_tile_assembly.md). -/

namespace Sys2Proof.Machine

/-- `frameClass` (46_tile_assembly.md rule R270). -/
def frameClass (f : FrameFormat) : Nat :=
  if f.mono then 1
  else if f.xsh = 1 then (if f.ysh = 1 then 2 else 3)
  else (if f.ysh = 1 then 5 else 4)

/-- `isFirst` (46_tile_assembly.md rule R271). -/
def isFirstTile (s : State) : Bool := tileCol s.tile == 0 && tileRow s.tile == 0

/-- `validateTile(b)` (46_tile_assembly.md rules R272, R277): the recorded value against the current one. -/
def validateTile (b : Bank) (s : State) : Option Status :=
  let t := bank s b
  if isFirstTile s then none
  else firstFailure
    [(decide ((frameFormat s.frm.fmt).depth ≠ infoDepth t.info), .tileFormatMismatch),
     (decide (frameClass (frameFormat s.frm.fmt) ≠ infoClass t.info), .tileFormatMismatch),
     (infoAuth t.info && decide (modelBits s.frm.cicp ≠ modelBits t.cicp), .tileNclxProfileMismatch)]

/-- The bank a first tile leaves (46_tile_assembly.md rule R272, `recordTile`). -/
def recordedBank (s : State) (t : TileBank) : TileBank :=
  let unset := decide (t.expW = 0) || decide (t.expH = 0)
  let auth := !cmValid s.cm
  { expW := if unset then s.frm.width else t.expW
    expH := if unset then s.frm.height else t.expH
    info := infoRecorded t.info (frameFormat s.frm.fmt).depth (frameClass (frameFormat s.frm.fmt)) auth
    cicp := if auth then modelBits s.frm.cicp else 0 }

/-- `recordTile(b)` (46_tile_assembly.md rule R272). -/
def recordTile (b : Bank) (s : State) : State :=
  if isFirstTile s then setBank s b (recordedBank s (bank s b)) else s

/-- The placement rectangle `(x0, y0, copyW, copyH)` (46_tile_assembly.md rule R275). -/
structure Placement where
  x0 : Nat
  y0 : Nat
  copyW : Nat
  copyH : Nat
  deriving DecidableEq, Repr

/-- `placement()`, the subtractions cut off at 0 (46_tile_assembly.md rule R275). -/
def placement (s : State) : Placement :=
  let x0 := tileCol s.tile * s.frm.width.toNat
  let y0 := tileRow s.tile * s.frm.height.toNat
  { x0 := x0
    y0 := y0
    copyW := min s.frm.width.toNat (s.surf.width.toNat - x0)
    copyH := min s.frm.height.toNat (s.surf.height.toNat - y0) }

/-- The size check of a decode (45_decoder.md rules R231 step 6, R239 step 6). -/
def sizeDiffers (b : Bank) (s : State) : Bool :=
  checkSize s.decCtrl && decide ((bank s b).expW ≠ 0) && decide ((bank s b).expH ≠ 0) &&
    (decide (s.frm.width ≠ (bank s b).expW) || decide (s.frm.height ≠ (bank s b).expH))

/-! ## TILE_VALIDATE -/

/-- The check phase of TILE_VALIDATE (46_tile_assembly.md rule R273). -/
def tileValidateCheck (b : Bank) (s : State) : Option Status :=
  (firstFailure [(decide (s.frm.width = 0) || decide (s.frm.height = 0), .badConfig)]).or (validateTile b s)

/-- TILE_VALIDATE (46_tile_assembly.md rule R273). -/
def execTileValidate (b : Bank) (s : State) : Host.Outcome State Fault Refusal :=
  command (tileValidateCheck b s) (recordTile b s) s

/-! ## TILE_RESET -/

/-- TILE_RESET: no check (46_tile_assembly.md rule R274). -/
def execTileReset (b : Bank) (s : State) : Host.Outcome State Fault Refusal :=
  command none (setBank s b TileBank.zero) s

end Sys2Proof.Machine
end

