-- ==== Sys2Proof/Machine/Decoder.lean ====
section
/-! DEFINITION. The planar YUV to packed RGB decoder: DECODE_COLOR and DECODE_ALPHA (45_decoder.md). -/

namespace Sys2Proof.Machine

/-! ## Operands of a decode -/

/-- The effective colour model of a colour decode (45_decoder.md rule R232). -/
def effectiveModel (s : State) : ColourModel := if cmValid s.cm then colourModel s.cm else colourModel s.frm.cicp

/-- `cw` of a decode (43_chroma_subsampler.md rule R191). -/
def decChromaW (s : State) : Nat := chromaDim s.frm.width.toNat (frameFormat s.frm.fmt).xsh

/-- `ch` of a decode (43_chroma_subsampler.md rule R191). -/
def decChromaH (s : State) : Nat := chromaDim s.frm.height.toNat (frameFormat s.frm.fmt).ysh

/-- A sample word of a plane, saturated to `2^bd - 1` (45_decoder.md rule R234). -/
def fetchSample (s : State) (pl : Plane) (x y : Nat) : Nat :=
  let bd := (frameFormat s.frm.fmt).depth
  min (memRead s.mem (sampAddr pl (bps bd) x y) (bps bd)) (maxCode bd)

/-- `yc` (45_decoder.md rule R234). -/
def fetchY (s : State) (x y : Nat) : Nat := fetchSample s s.yPlane x y

/-- The chroma position of a luma position, `cidx(x, y)` (43_chroma_subsampler.md rule R195). -/
def cidx (s : State) (x y : Nat) : Nat × Nat :=
  (chromaIndex s.frm.width.toNat (frameFormat s.frm.fmt).xsh x,
   chromaIndex s.frm.height.toNat (frameFormat s.frm.fmt).ysh y)

/-- `uc` (45_decoder.md rule R234). -/
def fetchU (s : State) (x y : Nat) : Nat := fetchSample s (decodeUPlane s) (cidx s x y).1 (cidx s x y).2

/-- `vc` (45_decoder.md rule R234). -/
def fetchV (s : State) (x y : Nat) : Nat := fetchSample s (decodeVPlane s) (cidx s x y).1 (cidx s x y).2

/-! ## Pixels -/

/-- `pixel` of a colour frame (45_decoder.md rule R235). -/
def colourPixel (m : NumMode) (cls : MatrixClass) (k : Coefs) (bd : Nat) (t : LutMem) (yc uc vc : Nat) : Rgb :=
  match cls with
  | .linear => invLinear m k t yc uc vc
  | .identity => invIdentity t yc uc vc
  | .ycgco => invYCgCo m t yc uc vc
  | .ycgcoRe => invYCgCoR m .ycgcoRe bd yc uc vc
  | .ycgcoRo => invYCgCoR m .ycgcoRo bd yc uc vc

/-- The tables of a colour decode (45_decoder.md rule R233). -/
def colourTables (p : Params) (s : State) : LutMem :=
  let f := frameFormat s.frm.fmt
  let eff := effectiveModel s
  buildTables p f.depth f.mono (decide (classify eff.mc = .identity)) eff.fr

/-- The `NUM` colour of the frame position `(x, y)`, from the tables the same command has built (45_decoder.md rules
R234, R235). -/
def decodedPixel (p : Params) (s : State) (t : LutMem) (x y : Nat) : Rgb :=
  let f := frameFormat s.frm.fmt
  let eff := effectiveModel s
  if f.mono then invMono t (fetchY s x y)
  else colourPixel p.num (classify eff.mc) (resolveCoefs p eff.cp eff.mc) f.depth t
    (fetchY s x y) (fetchU s x y) (fetchV s x y)

/-- One channel element of a pixel of the surface (45_decoder.md rules R236, R240). -/
def channelStore (m : NumMode) (f : Surface) (px py : Nat) (c : Channel) (v : Num) : Store :=
  ⟨channelAddr f px py c, channelBytes (pixelFormat f.fmt), quantOut m (pixelFormat f.fmt) v⟩

/-- `writeColour(px, py, R, G, B)` (45_decoder.md rule R236). -/
def colourStores (m : NumMode) (f : Surface) (px py : Nat) (v : Rgb) : List Store :=
  [channelStore m f px py .b v.b, channelStore m f px py .g v.g, channelStore m f px py .r v.r]

/-- `writeAlpha(px, py, A)` (45_decoder.md rule R240). -/
def alphaStores (m : NumMode) (f : Surface) (px py : Nat) (v : Num) : List Store :=
  [channelStore m f px py .a v]

/-! ## Buffers -/

/-- The Y plane as a buffer (20_memory.md rules R77, R79). -/
def yBuffer (s : State) : Buffer :=
  planeBuffer s.yPlane s.frm.width.toNat s.frm.height.toNat (bps (frameFormat s.frm.fmt).depth)

/-- The planes DECODE_COLOR reads (20_memory.md rule R79). -/
def decodeColorReads (s : State) : List Buffer :=
  let f := frameFormat s.frm.fmt
  if f.mono then [yBuffer s]
  else [yBuffer s,
    planeBuffer (decodeUPlane s) (decChromaW s) (decChromaH s) (bps f.depth),
    planeBuffer (decodeVPlane s) (decChromaW s) (decChromaH s) (bps f.depth)]

/-- A dimension a decode uses is 0 (45_decoder.md rules R231, R239, step 4). -/
def decodeEmpty (s : State) : Bool :=
  decide (s.frm.width = 0) || decide (s.frm.height = 0) || decide (s.surf.width = 0) || decide (s.surf.height = 0)

/-- The stride of the surface or of the Y plane is shorter than its row (45_decoder.md rules R231, R239, step 4). -/
def decodeStrideShort (s : State) : Bool :=
  decide (s.surf.stride.toNat < s.surf.width.toNat * bpp (pixelFormat s.surf.fmt)) ||
    decide (s.yPlane.stride.toNat < s.frm.width.toNat * bps (frameFormat s.frm.fmt).depth)

/-- The stride of the U or of the V plane is shorter than its row (45_decoder.md rule R231, step 4). -/
def chromaStrideShort (s : State) : Bool :=
  decide (s.uPlane.stride.toNat < decChromaW s * bps (frameFormat s.frm.fmt).depth) ||
    decide (s.vPlane.stride.toNat < decChromaW s * bps (frameFormat s.frm.fmt).depth)

/-! ## DECODE_COLOR -/

/-- The check phase of DECODE_COLOR (45_decoder.md rule R231). -/
def decodeColorCheck (p : Params) (s : State) : Option Status :=
  let f := frameFormat s.frm.fmt
  let eff := effectiveModel s
  let cls := classify eff.mc
  (firstFailure
    [(decide (s.surf.base = 0) || decide (s.yPlane.base = 0), .nullParameter),
     (!f.mono && (decide (s.uPlane.base = 0) || decide (s.vPlane.base = 0)), .nullParameter),
     (!depthOk f.depth, .unsupportedBitDepth),
     (decide (pixelFormat s.surf.fmt = .invalid), .unsupportedOutputPixelFormat),
     (decodeEmpty s, .badConfig),
     (!f.mono && isYCgCoFamily cls && (decide (f.xsh = 1) || decide (f.ysh = 1)), .badConfig),
     (!f.mono && isYCgCoR cls && !eff.fr, .badConfig),
     (decodeStrideShort s, .badConfig),
     (!f.mono && chromaStrideShort s, .badConfig),
     (!addressesOk p (decodeColorReads s) [surfaceBuffer s.surf], .badAddress),
     (sizeDiffers 0 s, .colorSizeMismatch)]).or (validateTile 0 s)

/-- The elements DECODE_COLOR writes (45_decoder.md rule R230). -/
def decodeColorStores (p : Params) (s : State) : List Store :=
  let pl := placement s
  let t := colourTables p s
  gridStores pl.copyW pl.copyH fun x y =>
    colourStores p.num s.surf (pl.x0 + x) (pl.y0 + y) (decodedPixel p s t x y)

/-- The execute phase of DECODE_COLOR (45_decoder.md rule R230). -/
def decodeColorEffect (p : Params) (s : State) : State :=
  let f := frameFormat s.frm.fmt
  let eff := effectiveModel s
  setMem
    (buildInto p f.depth f.mono (decide (classify eff.mc = .identity)) eff.fr
      (resolveInto p eff (recordTile 0 s)))
    (memStores s.mem (decodeColorStores p s))

/-- DECODE_COLOR (45_decoder.md rule R230). -/
def execDecodeColor (s : State) : Host.Outcome State Fault Refusal :=
  command (decodeColorCheck Config.params s) (decodeColorEffect Config.params s) s

/-! ## DECODE_ALPHA -/

/-- The check phase of DECODE_ALPHA (45_decoder.md rule R239). -/
def decodeAlphaCheck (p : Params) (s : State) : Option Status :=
  (firstFailure
    [(decide (s.surf.base = 0) || decide (s.yPlane.base = 0), .nullParameter),
     (!depthOk (frameFormat s.frm.fmt).depth, .unsupportedBitDepth),
     (decide (pixelFormat s.surf.fmt = .invalid), .unsupportedOutputPixelFormat),
     (decodeEmpty s, .badConfig),
     (decodeStrideShort s, .badConfig),
     (!addressesOk p [yBuffer s] [surfaceBuffer s.surf], .badAddress),
     (sizeDiffers 1 s, .alphaSizeMismatch)]).or (validateTile 1 s)

/-- The tables of an alpha decode: monochrome, with the frame's own range flag (45_decoder.md rule R238). -/
def alphaTables (p : Params) (s : State) : LutMem :=
  buildTables p (frameFormat s.frm.fmt).depth true false (colourModel s.frm.cicp).fr

/-- The elements DECODE_ALPHA writes (45_decoder.md rule R238). -/
def decodeAlphaStores (p : Params) (s : State) : List Store :=
  let pl := placement s
  let t := alphaTables p s
  gridStores pl.copyW pl.copyH fun x y =>
    alphaStores p.num s.surf (pl.x0 + x) (pl.y0 + y) (lutRead t.luma (fetchY s x y))

/-- The execute phase of DECODE_ALPHA (45_decoder.md rule R238). -/
def decodeAlphaEffect (p : Params) (s : State) : State :=
  setMem
    (buildInto p (frameFormat s.frm.fmt).depth true false (colourModel s.frm.cicp).fr (recordTile 1 s))
    (memStores s.mem (decodeAlphaStores p s))

/-- DECODE_ALPHA (45_decoder.md rule R238). -/
def execDecodeAlpha (s : State) : Host.Outcome State Fault Refusal :=
  command (decodeAlphaCheck Config.params s) (decodeAlphaEffect Config.params s) s

end Sys2Proof.Machine
end

