-- ==== Sys2Proof/Machine/Encoder.lean ====
section
/-! DEFINITION. The BGRA to planar YUV encoder: ENCODE_COLOR and ENCODE_ALPHA (44_encoder.md). -/

namespace Sys2Proof.Machine

/-! ## Reading the surface -/

/-- The byte of a channel of the `BGRA8` surface (44_encoder.md rules R203 to R205). -/
def surfByte (s : State) (x y : Nat) (c : Channel) : Nat := memRead s.mem (channelAddr s.surf x y c) 1

/-- `fwd` of the pixel at `(x, y)` (44_encoder.md rule R205). -/
def pixelYuv (p : Params) (k : Coefs) (s : State) (x y : Nat) : Yuv :=
  fwd p.num k (surfByte s x y .r) (surfByte s x y .g) (surfByte s x y .b)

/-! ## Writing the planes -/

/-- One 8-bit sample of a plane. -/
def sampleStore (pl : Plane) (x y v : Nat) : Store := ⟨sampAddr pl 1 x y, 1, v⟩

/-- `encodeMono(ch)` (44_encoder.md rule R203). -/
def monoStores (s : State) (ch : Channel) : List Store :=
  let w := s.surf.width.toNat
  let h := s.surf.height.toNat
  gridStores w h (fun x y => [sampleStore s.yPlane x y (surfByte s x y ch)]) ++
    gridStores (ceil2 w) (ceil2 h) (fun x y => [sampleStore s.uPlane x y 0, sampleStore s.vPlane x y 0])

/-- `encodeIdentity()` (44_encoder.md rule R204, 41_color_matrix.md rule R159). -/
def identityStores (s : State) : List Store :=
  gridStores s.surf.width.toNat s.surf.height.toNat fun x y =>
    [sampleStore s.yPlane x y (surfByte s x y .g),
     sampleStore s.uPlane x y (surfByte s x y .b),
     sampleStore s.vPlane x y (surfByte s x y .r)]

/-- The U code at chroma position `(cx, cy)` (44_encoder.md rule R205). -/
def encodedU (p : Params) (k : Coefs) (cfmt : Nat) (s : State) (cx cy : Nat) : Nat :=
  quantChroma p (chromaAt p.num cfmt s.surf.width.toNat s.surf.height.toNat
    (fun x y => (pixelYuv p k s x y).u) cx cy)

/-- The V code at chroma position `(cx, cy)` (44_encoder.md rule R205). -/
def encodedV (p : Params) (k : Coefs) (cfmt : Nat) (s : State) (cx cy : Nat) : Nat :=
  quantChroma p (chromaAt p.num cfmt s.surf.width.toNat s.surf.height.toNat
    (fun x y => (pixelYuv p k s x y).v) cx cy)

/-- `cw` of an encode (43_chroma_subsampler.md rule R191). -/
def encChromaW (s : State) (cfmt : Nat) : Nat := chromaDim s.surf.width.toNat (cfmtXsh cfmt)

/-- `ch` of an encode (43_chroma_subsampler.md rule R191). -/
def encChromaH (s : State) (cfmt : Nat) : Nat := chromaDim s.surf.height.toNat (cfmtYsh cfmt)

/-- `encodeStandard(kr, kg, kb, CFMT)` (44_encoder.md rule R205). -/
def standardStores (p : Params) (k : Coefs) (cfmt : Nat) (s : State) : List Store :=
  gridStores s.surf.width.toNat s.surf.height.toNat
      (fun x y => [sampleStore s.yPlane x y (quantLuma p.num (pixelYuv p k s x y).y)]) ++
    gridStores (encChromaW s cfmt) (encChromaH s cfmt)
      (fun cx cy => [sampleStore s.uPlane cx cy (encodedU p k cfmt s cx cy),
                     sampleStore s.vPlane cx cy (encodedV p k cfmt s cx cy)])

/-! ## Frame metadata -/

/-- `writeFrameMeta(CFMT, kind)`, with the colour model a colour frame carries (44_encoder.md rule R206). -/
def encodedFrame (s : State) (cfmt : Nat) (cicp : Word) : Frame where
  width := s.surf.width
  height := s.surf.height
  fmt := encodedFrameFormat cfmt
  cicp := if cfmtMono cfmt then packModel 2 2 2 true else cicp

/-! ## Buffers -/

/-- The planes an encode writes (20_memory.md rule R79). -/
def encodeWrites (s : State) (cfmt : Nat) : List Buffer :=
  [planeBuffer s.yPlane s.surf.width.toNat s.surf.height.toNat 1,
   planeBuffer s.uPlane (encChromaW s cfmt) (encChromaH s cfmt) 1,
   planeBuffer s.vPlane (encChromaW s cfmt) (encChromaH s cfmt) 1]

/-- A base register an encode needs is 0 (44_encoder.md rules R201, R207, step 1). -/
def encodeNull (s : State) : Bool :=
  decide (s.surf.base = 0) || decide (s.yPlane.base = 0) || decide (s.uPlane.base = 0) || decide (s.vPlane.base = 0)

/-- A stride is shorter than its row (44_encoder.md rules R201, R207, step 3). -/
def encodeStrideShort (s : State) (cfmt : Nat) : Bool :=
  decide (s.surf.stride.toNat < 4 * s.surf.width.toNat) || decide (s.yPlane.stride.toNat < s.surf.width.toNat) ||
    decide (s.uPlane.stride.toNat < encChromaW s cfmt) || decide (s.vPlane.stride.toNat < encChromaW s cfmt)

/-! ## ENCODE_COLOR -/

/-- The check phase of ENCODE_COLOR (44_encoder.md rule R201). -/
def encodeColorCheck (p : Params) (s : State) : Option Status :=
  let cfmt := encFormat s.encCtrl
  let cls := classify (colourModel s.cm).mc
  firstFailure
    [(encodeNull s, .nullParameter),
     (decide (3 < cfmt), .unknownYUVFormat),
     (decide (pixelFormat s.surf.fmt ≠ .bgra8), .badConfig),
     (decide (s.surf.width = 0) || decide (s.surf.height = 0), .badConfig),
     (decide (cfmt ≠ 0) && isYCgCoFamily cls, .badConfig),
     (decide (cls = .identity) && (decide (cfmt = 1) || decide (cfmt = 2)), .badConfig),
     (encodeStrideShort s cfmt, .badConfig),
     (!addressesOk p [surfaceBuffer s.surf] (encodeWrites s cfmt), .badAddress)]

/-- The samples ENCODE_COLOR writes (44_encoder.md rule R200). -/
def encodeColorStores (p : Params) (s : State) : List Store :=
  let cm := colourModel s.cm
  let cfmt := encFormat s.encCtrl
  if cfmt = 0 then monoStores s .r
  else if classify cm.mc = .identity then identityStores s
  else standardStores p (resolveCoefs p cm.cp cm.mc) cfmt s

/-- The execute phase of ENCODE_COLOR (44_encoder.md rule R200). -/
def encodeColorEffect (p : Params) (s : State) : State :=
  let cm := colourModel s.cm
  setFrame (resolveInto p cm (setMem s (memStores s.mem (encodeColorStores p s))))
    (encodedFrame s (encFormat s.encCtrl) (packModel cm.cp cm.tc cm.mc true))

/-- ENCODE_COLOR (44_encoder.md rule R200). -/
def execEncodeColor (s : State) : Host.Outcome State Fault Refusal :=
  command (encodeColorCheck Config.params s) (encodeColorEffect Config.params s) s

/-! ## ENCODE_ALPHA -/

/-- The check phase of ENCODE_ALPHA (44_encoder.md rule R207). -/
def encodeAlphaCheck (p : Params) (s : State) : Option Status :=
  firstFailure
    [(encodeNull s, .nullParameter),
     (decide (pixelFormat s.surf.fmt ≠ .bgra8), .badConfig),
     (decide (s.surf.width = 0) || decide (s.surf.height = 0), .badConfig),
     (encodeStrideShort s 0, .badConfig),
     (!addressesOk p [surfaceBuffer s.surf] (encodeWrites s 0), .badAddress)]

/-- The execute phase of ENCODE_ALPHA (44_encoder.md rule R207). -/
def encodeAlphaEffect (s : State) : State :=
  setFrame (setMem s (memStores s.mem (monoStores s .a))) (encodedFrame s 0 0)

/-- ENCODE_ALPHA (44_encoder.md rule R207). -/
def execEncodeAlpha (s : State) : Host.Outcome State Fault Refusal :=
  command (encodeAlphaCheck Config.params s) (encodeAlphaEffect s) s

end Sys2Proof.Machine
end

