-- ==== Sys2Proof/Machine/Dispatch.lean ====
section
/-! DEFINITION. One arm per command: the meaning each row of the opcode table has. -/

namespace Sys2Proof.Machine

def exec (i : Instr) (s : State) : Host.Outcome State Fault Refusal :=
  match i with
  | .resolve => Sys2Proof.Machine.execResolve s
  | .buildLut => Sys2Proof.Machine.execBuildLut s
  | .encodeColor => Sys2Proof.Machine.execEncodeColor s
  | .encodeAlpha => Sys2Proof.Machine.execEncodeAlpha s
  | .decodeColor => Sys2Proof.Machine.execDecodeColor s
  | .decodeAlpha => Sys2Proof.Machine.execDecodeAlpha s
  | .tileValidate b => Sys2Proof.Machine.execTileValidate b s
  | .tileReset b => Sys2Proof.Machine.execTileReset b s

end Sys2Proof.Machine
end

