-- ==== Sys2Proof/Machine/Step.lean ====
section
/-! DEFINITION. One step: the host's next transaction. There is no program counter: the unit of execution is one command,
issued by one host write to `CMD`, in the order of the host's writes (10_state.md rules R23, R43, 20_memory.md rule
R81). -/

namespace Sys2Proof.Machine

/-- A word written to `CMD`: the command it encodes runs to completion before the write completes (10_state.md rule R23);
a word that is no command is an illegal command (30_encoding.md rule R102). -/
def runWord (w : Word) (s : State) : Host.Outcome State Fault Refusal :=
  match decode w with
  | .ok i => exec i s
  | .error _ => .next (illegalCommand s)

/-- One step of the machine. With no transaction left the block is idle and holds its state (30_encoding.md rule R111). -/
def step (s : State) : Host.Outcome State Fault Refusal :=
  match nextTx s with
  | .idle => .next s
  | .done t => .next t
  | .issued w t => runWord w t
  | .outOfRange => .fault .addressOutOfRange
  | .undefinedAccess => .refused .undefinedRegisterAccess

/-- `s` with the command of `nbits` bits `w` as the host's next transaction: a write to `CMD`, the place `step` takes its
next command from. -/
def State.withFetchWord (s : State) (nbits w : Nat) : State :=
  setHost s (cmdWrite (BitVec.ofNat 32 (w % 2 ^ nbits)) :: s.host)

end Sys2Proof.Machine
end

