-- ==== Sys2Proof/Safety.lean ====
section
/-! DEFINITION. The terms claims use: the invariant of every state, what the checks of each command say in terms of the
registers alone, how a status word changes, which addresses are samples or channel elements, and which host scripts are
defined. -/

namespace Sys2Proof.Machine

/-! ## Status words, bit by bit -/

/-- A status word with `CODE` replaced, the bits 31:8 kept (10_state.md rule R24). -/
def withCode (w : Word) (c : Nat) : Word := (w &&& 0xFFFFFF00) ||| BitVec.ofNat 32 (c % 256)

/-- A status word after a successful command that resolves a colour model of class code `cls`: `CODE = 0`,
`COEF_VALID = 1`, `MCLASS = cls`, the other bits kept (10_state.md rule R24, 40_resolver.md rule R137). -/
def withResolved (w : Word) (cls : Nat) : Word :=
  (w &&& 0xFFFF8E00) ||| 0x00000100 ||| BitVec.ofNat 32 (cls % 8 * 2 ^ 12)

/-- `STATUS.CODE` (10_state.md rule R24). -/
def codeOf (s : State) : Nat := getField s.status 7 0

/-- The state a failed check leaves: `STATUS.CODE` written, nothing else (60_exceptions.md rule R294). -/
def failedWith (s : State) (c : Nat) : State := { s with status := withCode s.status c }

/-! ## The first failing check of each command, as a status number, in terms of the registers -/

/-- 42_lut_builder.md rule R170. -/
def buildLutVerdict (s : State) : Option Nat :=
  let bd := getField s.lutCfg 4 0
  if bd = 8 ∨ bd = 10 ∨ bd = 12 ∨ bd = 16 then none else some 0x04

/-- 44_encoder.md rule R201. -/
def encodeColorVerdict (p : Params) (s : State) : Option Nat :=
  let cfmt := getField s.encCtrl 2 0
  let mc := getField s.cm 23 16
  let w := s.surf.width.toNat
  let h := s.surf.height.toNat
  let cw := if cfmt = 3 then w else (w + 1) / 2
  let ch := if cfmt = 0 ∨ cfmt = 1 then (h + 1) / 2 else h
  if s.surf.base = 0 ∨ s.yPlane.base = 0 ∨ s.uPlane.base = 0 ∨ s.vPlane.base = 0 then some 0x01
  else if 3 < cfmt then some 0x03
  else if getField s.surf.fmt 1 0 ≠ 0 ∨ w = 0 ∨ h = 0 then some 0x41
  else if cfmt ≠ 0 ∧ (mc = 8 ∨ mc = 16 ∨ mc = 17) then some 0x41
  else if mc = 0 ∧ (cfmt = 1 ∨ cfmt = 2) then some 0x41
  else if s.surf.stride.toNat < 4 * w ∨ s.yPlane.stride.toNat < w ∨ s.uPlane.stride.toNat < cw ∨
      s.vPlane.stride.toNat < cw then some 0x41
  else if addressesOk p [⟨s.surf.base.toNat, s.surf.stride.toNat, h, 4 * w, 1⟩]
      [⟨s.yPlane.base.toNat, s.yPlane.stride.toNat, h, w, 1⟩,
       ⟨s.uPlane.base.toNat, s.uPlane.stride.toNat, ch, cw, 1⟩,
       ⟨s.vPlane.base.toNat, s.vPlane.stride.toNat, ch, cw, 1⟩] then none
  else some 0x42

/-- 44_encoder.md rule R207. -/
def encodeAlphaVerdict (p : Params) (s : State) : Option Nat :=
  let w := s.surf.width.toNat
  let h := s.surf.height.toNat
  if s.surf.base = 0 ∨ s.yPlane.base = 0 ∨ s.uPlane.base = 0 ∨ s.vPlane.base = 0 then some 0x01
  else if getField s.surf.fmt 1 0 ≠ 0 ∨ w = 0 ∨ h = 0 then some 0x41
  else if s.surf.stride.toNat < 4 * w ∨ s.yPlane.stride.toNat < w ∨ s.uPlane.stride.toNat < (w + 1) / 2 ∨
      s.vPlane.stride.toNat < (w + 1) / 2 then some 0x41
  else if addressesOk p [⟨s.surf.base.toNat, s.surf.stride.toNat, h, 4 * w, 1⟩]
      [⟨s.yPlane.base.toNat, s.yPlane.stride.toNat, h, w, 1⟩,
       ⟨s.uPlane.base.toNat, s.uPlane.stride.toNat, (h + 1) / 2, (w + 1) / 2, 1⟩,
       ⟨s.vPlane.base.toNat, s.vPlane.stride.toNat, (h + 1) / 2, (w + 1) / 2, 1⟩] then none
  else some 0x42

/-- 46_tile_assembly.md rule R272, `validateTile(b)`: tile (0, 0) passes; any other tile compares depth, class and, where
the bank is authoritative, all four fields of the colour model with the record. -/
def tileVerdict (b : Bank) (s : State) : Option Nat :=
  let t := bank s b
  if s.tile = 0 then none
  else if getField s.frm.fmt 4 0 ≠ getField t.info 4 0 then some 0x06
  else if frameClass (frameFormat s.frm.fmt) ≠ getField t.info 10 8 then some 0x06
  else if getBit t.info 17 = true ∧ s.frm.cicp &&& 0x01FFFFFF ≠ t.cicp &&& 0x01FFFFFF then some 0x07
  else none

/-- 46_tile_assembly.md rule R273. -/
def tileValidateVerdict (b : Bank) (s : State) : Option Nat :=
  if s.frm.width = 0 ∨ s.frm.height = 0 then some 0x41 else tileVerdict b s

/-- The size check of a decode on bank `b` (45_decoder.md rules R231, R239, step 6). -/
abbrev sizeMismatch (b : Bank) (s : State) : Prop :=
  s.decCtrl.getLsbD 0 = true ∧ (bank s b).expW ≠ 0 ∧ (bank s b).expH ≠ 0 ∧
    (s.frm.width ≠ (bank s b).expW ∨ s.frm.height ≠ (bank s b).expH)

/-- 45_decoder.md rule R231. -/
def decodeColorVerdict (p : Params) (s : State) : Option Nat :=
  let f := frameFormat s.frm.fmt
  let eff := if getBit s.cm 31 then s.cm else s.frm.cicp
  let mc := getField eff 23 16
  let n := if f.depth = 8 then 1 else 2
  let cw := (s.frm.width.toNat + f.xsh) / 2 ^ f.xsh
  let ch := (s.frm.height.toNat + f.ysh) / 2 ^ f.ysh
  let reads : List Buffer :=
    [⟨s.yPlane.base.toNat, s.yPlane.stride.toNat, s.frm.height.toNat, s.frm.width.toNat * n, n⟩] ++
      (if f.mono then [] else
        [⟨s.uPlane.base.toNat, s.uPlane.stride.toNat, ch, cw * n, n⟩,
         ⟨s.vPlane.base.toNat, s.vPlane.stride.toNat, ch, cw * n, n⟩])
  if s.surf.base = 0 ∨ s.yPlane.base = 0 then some 0x01
  else if f.mono = false ∧ (s.uPlane.base = 0 ∨ s.vPlane.base = 0) then some 0x01
  else if ¬ (f.depth = 8 ∨ f.depth = 10 ∨ f.depth = 12 ∨ f.depth = 16) then some 0x04
  else if getField s.surf.fmt 1 0 = 3 then some 0x05
  else if s.frm.width = 0 ∨ s.frm.height = 0 ∨ s.surf.width = 0 ∨ s.surf.height = 0 then some 0x41
  else if f.mono = false ∧ (mc = 8 ∨ mc = 16 ∨ mc = 17) ∧ (f.xsh = 1 ∨ f.ysh = 1) then some 0x41
  else if f.mono = false ∧ (mc = 16 ∨ mc = 17) ∧ getBit eff 24 = false then some 0x41
  else if s.surf.stride.toNat < s.surf.width.toNat * bpp (pixelFormat s.surf.fmt) ∨
      s.yPlane.stride.toNat < s.frm.width.toNat * n then some 0x41
  else if f.mono = false ∧ (s.uPlane.stride.toNat < cw * n ∨ s.vPlane.stride.toNat < cw * n) then some 0x41
  else if addressesOk p reads [surfaceBuffer s.surf] = false then some 0x42
  else if sizeMismatch 0 s then some 0x08
  else tileVerdict 0 s

/-- 45_decoder.md rule R239. -/
def decodeAlphaVerdict (p : Params) (s : State) : Option Nat :=
  let f := frameFormat s.frm.fmt
  let n := if f.depth = 8 then 1 else 2
  if s.surf.base = 0 ∨ s.yPlane.base = 0 then some 0x01
  else if ¬ (f.depth = 8 ∨ f.depth = 10 ∨ f.depth = 12 ∨ f.depth = 16) then some 0x04
  else if getField s.surf.fmt 1 0 = 3 then some 0x05
  else if s.frm.width = 0 ∨ s.frm.height = 0 ∨ s.surf.width = 0 ∨ s.surf.height = 0 then some 0x41
  else if s.surf.stride.toNat < s.surf.width.toNat * bpp (pixelFormat s.surf.fmt) ∨
      s.yPlane.stride.toNat < s.frm.width.toNat * n then some 0x41
  else if addressesOk p
      [⟨s.yPlane.base.toNat, s.yPlane.stride.toNat, s.frm.height.toNat, s.frm.width.toNat * n, n⟩]
      [surfaceBuffer s.surf] = false then some 0x42
  else if sizeMismatch 1 s then some 0x09
  else tileVerdict 1 s

/-- The codes a command can end with (60_exceptions.md rule R300). -/
def commandCodes : Instr → List Nat
  | .resolve => [0x00]
  | .buildLut => [0x00, 0x04]
  | .encodeColor => [0x00, 0x01, 0x03, 0x41, 0x42]
  | .encodeAlpha => [0x00, 0x01, 0x41, 0x42]
  | .decodeColor => [0x00, 0x01, 0x04, 0x05, 0x06, 0x07, 0x08, 0x41, 0x42]
  | .decodeAlpha => [0x00, 0x01, 0x04, 0x05, 0x06, 0x07, 0x09, 0x41, 0x42]
  | .tileValidate _ => [0x00, 0x06, 0x07, 0x41]
  | .tileReset _ => [0x00]

/-! ## binary32 -/

/-- `w` is the value of a finite binary32 pattern (00_scope.md rule R5): a mantissa below `2^24` in one of the steps
`2^-149` to `2^104`. -/
def isBinary32 (w : Rat) : Prop :=
  ∃ m e : Nat, m < 2 ^ 24 ∧ e ≤ 253 ∧ (w = mkRat (m * 2 ^ e) (2 ^ 149) ∨ w = -mkRat (m * 2 ^ e) (2 ^ 149))

/-- The value of a finite binary32 pattern, from its sign, exponent and fraction fields (00_scope.md rules R5, R13). -/
def binary32Value (w : Word) : Rat :=
  let e : Nat := w.toNat / 2 ^ 23 % 2 ^ 8
  let f : Nat := w.toNat % 2 ^ 23
  let a : Rat := if e = 0 then mkRat f (2 ^ 149) else mkRat ((2 ^ 23 + f) * 2 ^ (e - 1)) (2 ^ 149)
  if w.getLsbD 31 then -a else a

/-! ## Which bytes a command's elements are -/

/-- `a` is a byte of a sample of a plane of `w` by `h` samples of `bytes` bytes. -/
def isSampleByte (pl : Plane) (bytes w h a : Nat) : Prop :=
  ∃ x y, x < w ∧ y < h ∧ sampAddr pl bytes x y ≤ a ∧ a < sampAddr pl bytes x y + bytes

/-- `a` is a byte of the channel `c` of a pixel of the placement rectangle (46_tile_assembly.md rule R275). -/
def isPlacedByte (s : State) (c : Channel) (a : Nat) : Prop :=
  ∃ x y, x < (placement s).copyW ∧ y < (placement s).copyH ∧
    channelAddr s.surf ((placement s).x0 + x) ((placement s).y0 + y) c ≤ a ∧
    a < channelAddr s.surf ((placement s).x0 + x) ((placement s).y0 + y) c + channelBytes (pixelFormat s.surf.fmt)

/-! ## The invariant -/

/-- Reserved bits read 0 (10_state.md rule R21). -/
def reservedClear (s : State) : Prop := ∀ r : RegName, readReg s r &&& ~~~regMask r = 0

/-- `STATUS` holds a code the block writes and a matrix class code (60_exceptions.md rule R291, 10_state.md rule R24). -/
def statusLegal (s : State) : Prop :=
  codeOf s ∈ [0x00, 0x01, 0x03, 0x04, 0x05, 0x06, 0x07, 0x08, 0x09, 0x40, 0x41, 0x42] ∧
    getField s.status 14 12 ≤ 4

/-- The coefficients are zero until `COEF_VALID` is 1, and no divisor of the transforms is zero after (10_state.md rule
R26, 40_resolver.md rule R136). -/
def coefsLegal (s : State) : Prop :=
  if getBit s.status 8 then degenerate Config.params.num s.coefs = false else s.coefs = ⟨0, 0, 0⟩

/-- `LUT_CUR` says what the LUT memory holds (10_state.md rule R38, 42_lut_builder.md rules R176, R177). -/
def lutDescribed (s : State) : Prop :=
  if getBit s.lutCur 31 then
    depthOk (lutConfig s.lutCur).depth = true ∧
      s.lut = buildTables Config.params (lutConfig s.lutCur).depth (lutConfig s.lutCur).mono
        (lutConfig s.lutCur).ident (lutConfig s.lutCur).full
  else s.lutCur = 0 ∧ s.lut = ⟨[], []⟩

/-- A tile-state bank: no class above 5, nothing recorded while `SEEN` is 0, no colour model while `AUTH` is 0
(10_state.md rules R41, R42, 46_tile_assembly.md rule R270). -/
def bankLegal (t : TileBank) : Prop :=
  infoClass t.info ≤ 5 ∧ (getBit t.info 16 = false → t.info = 0) ∧ (infoAuth t.info = false → t.cicp = 0)

/-- What holds of every state the machine reaches. -/
def Inv (s : State) : Prop :=
  memWf s.mem = true ∧ reservedClear s ∧ statusLegal s ∧ coefsLegal s ∧ lutDescribed s ∧
    bankLegal s.ts0 ∧ bankLegal s.ts1

/-! ## Safe runs -/

/-- Every transaction the host has still to issue is one the spec defines. -/
def hostDefined (s : State) : Prop := ∀ tx ∈ s.host, HostTx.wellFormed Config.params tx = true

/-- `n` steps from `s`, stopping at the first fault or refusal. -/
def runSteps (n : Nat) (s : State) : Host.Outcome State Fault Refusal := Host.Core.run Sys2Proof.core n s

end Sys2Proof.Machine
end

