-- ==== Sys2Proof/Certificates/Slice0/Obligations.lean ====
section
/-! DEFINITION. The statements for the provers: one proposition per claim, each citing the rules of spec/ it rests on. -/

section

open Sys2Proof Sys2Proof.Machine

/-! ## Reset and the host's accesses -/

/-- 10_state.md rule R47: every register at its reset value, every table entry unwritten. -/
def Obligations.ResetRegisters : Prop :=
  (∀ r : RegName, r ≠ .lutData → readReg State.reset r = if r = .id then 0x434D4307 else 0) ∧
    ∀ a : Word, lutEntry { State.reset with lutAddr := a } = none

/-- 70_reset_and_hazards.md rule R320: the platform's reset leaves system memory alone. That the host's script, the values
it has read and the counter of free values stand is the model's choice (assumption log, entry 10). -/
def Obligations.PlatformResetKeepsMemory : Prop :=
  ∀ (s : State) (rest : List HostTx), s.host = .platformReset :: rest →
    step s = .next { State.reset with
      mem := s.mem, host := rest, hostReads := s.hostReads, freeCount := s.freeCount }

/-- 10_state.md rule R21: the register map; a write to a read/write register leaves in it the value written, reserved bits
0, whatever the host does next, and no other register, table entry or byte of memory changes; the next read of it gives
that value. `LUT_DATA` is left out of the frame because it shows the entry that `LUT_ADDR` selects. -/
def Obligations.HostRegisterWriteThenRead : Prop :=
  (∀ row ∈ [(RegName.id, (0x000 : BitVec 12), Access.ro, (0xFFFFFFFF : Word)), (.cmd, 0x004, .wo, 0xFFFFFFFF),
      (.status, 0x008, .ro, 0x000071FF), (.cm, 0x010, .rw, 0x81FFFFFF), (.kr, 0x014, .ro, 0xFFFFFFFF),
      (.kg, 0x018, .ro, 0xFFFFFFFF), (.kb, 0x01C, .ro, 0xFFFFFFFF), (.surfBase, 0x020, .rw, 0xFFFFFFFF),
      (.surfStride, 0x024, .rw, 0xFFFFFFFF), (.surfW, 0x028, .rw, 0xFFFFFFFF), (.surfH, 0x02C, .rw, 0xFFFFFFFF),
      (.surfFmt, 0x030, .rw, 0x00000003), (.frmW, 0x040, .rw, 0xFFFFFFFF), (.frmH, 0x044, .rw, 0xFFFFFFFF),
      (.frmFmt, 0x048, .rw, 0x00000F1F), (.frmCicp, 0x04C, .rw, 0x01FFFFFF), (.yBase, 0x050, .rw, 0xFFFFFFFF),
      (.yStride, 0x054, .rw, 0xFFFFFFFF), (.uBase, 0x058, .rw, 0xFFFFFFFF), (.uStride, 0x05C, .rw, 0xFFFFFFFF),
      (.vBase, 0x060, .rw, 0xFFFFFFFF), (.vStride, 0x064, .rw, 0xFFFFFFFF), (.tile, 0x070, .rw, 0xFFFFFFFF),
      (.encCtrl, 0x074, .rw, 0x00000007), (.decCtrl, 0x078, .rw, 0x00000001), (.lutCfg, 0x07C, .rw, 0x0000071F),
      (.lutAddr, 0x080, .rw, 0x0001FFFF), (.lutData, 0x084, .ro, 0xFFFFFFFF), (.lutCur, 0x088, .ro, 0x8000071F),
      (.ts0ExpW, 0x0A0, .rw, 0xFFFFFFFF), (.ts0ExpH, 0x0A4, .rw, 0xFFFFFFFF), (.ts0Info, 0x0A8, .ro, 0x0003071F),
      (.ts0Cicp, 0x0AC, .ro, 0x01FFFFFF), (.ts1ExpW, 0x0C0, .rw, 0xFFFFFFFF), (.ts1ExpH, 0x0C4, .rw, 0xFFFFFFFF),
      (.ts1Info, 0x0C8, .ro, 0x0003071F), (.ts1Cicp, 0x0CC, .ro, 0x01FFFFFF)],
    regOffset row.1 = row.2.1 ∧ regAccess row.1 = row.2.2.1 ∧ regMask row.1 = row.2.2.2) ∧
  ∀ (s : State) (r : RegName) (v : Word) (rest : List HostTx),
    regAccess r = .rw → s.host = wr r v :: rest →
    ∃ t, step s = .next t ∧
      t.host = rest ∧ t.hostReads = s.hostReads ∧ t.freeCount = s.freeCount ∧
      t.mem = s.mem ∧ t.lut = s.lut ∧ t.coefs = s.coefs ∧
      readReg t r = v &&& regMask r ∧
      (∀ r', r' ≠ r → r' ≠ .lutData → readReg t r' = readReg s r') ∧
      ∀ rest', rest = rd r :: rest' →
        step t = .next { t with host := rest', hostReads := (v &&& regMask r) :: s.hostReads }

/-- 10_state.md rules R21 to R24, R26: a register read changes nothing of the block, `CMD` reads 0, `ID` its constant, the
coefficients their `enc32` patterns, the registers that commands write the words held, and a write to a read-only register
is ignored. -/
def Obligations.RegisterReadsAndReadOnly : Prop :=
  (∀ (s : State) (r : RegName) (rest : List HostTx), r ≠ .lutData → s.host = rd r :: rest →
    step s = .next { s with host := rest, hostReads := readReg s r :: s.hostReads }) ∧
  (∀ s : State, readReg s .cmd = 0 ∧ readReg s .id = 0x434D4307 ∧ readReg s .status = s.status ∧
    readReg s .kr = enc32 s.coefs.kr ∧ readReg s .kg = enc32 s.coefs.kg ∧ readReg s .kb = enc32 s.coefs.kb ∧
    readReg s .frmW = s.frm.width ∧ readReg s .frmH = s.frm.height ∧ readReg s .frmFmt = s.frm.fmt ∧
    readReg s .frmCicp = s.frm.cicp ∧ readReg s .lutCur = s.lutCur ∧
    readReg s .ts0ExpW = s.ts0.expW ∧ readReg s .ts0ExpH = s.ts0.expH ∧ readReg s .ts0Info = s.ts0.info ∧
    readReg s .ts0Cicp = s.ts0.cicp ∧ readReg s .ts1ExpW = s.ts1.expW ∧ readReg s .ts1ExpH = s.ts1.expH ∧
    readReg s .ts1Info = s.ts1.info ∧ readReg s .ts1Cicp = s.ts1.cicp) ∧
  (∀ (s : State) (r : RegName) (v : Word) (rest : List HostTx),
    r ∈ [RegName.id, .status, .kr, .kg, .kb, .lutData, .lutCur, .ts0Info, .ts0Cicp, .ts1Info, .ts1Cicp] →
    s.host = wr r v :: rest → step s = .next { s with host := rest })

/-- 10_state.md rule R45, for the naturally aligned accesses rule R21 defines: an unmapped offset reads 0 and ignores
writes. -/
def Obligations.UnmappedOffsets : Prop :=
  ∀ (s : State) (off : BitVec 12) (v : Word) (rest : List HostTx),
    off.toNat % 4 = 0 → (∀ r : RegName, regOffset r ≠ off) →
    (s.host = .regWrite off v :: rest → step s = .next { s with host := rest }) ∧
    (s.host = .regRead off :: rest → step s = .next { s with host := rest, hostReads := 0 :: s.hostReads })

/-- 10_state.md rule R37: `LUT_DATA` reads `enc32` of the entry `LUT_ADDR` selects, if it is written; of an unwritten
entry some value, of which nothing more is said (assumption log, entry 3). -/
def Obligations.LutReadBack : Prop :=
  ∀ (s : State) (rest : List HostTx), s.host = rd .lutData :: rest →
    (∀ v, (if s.lutAddr.getLsbD 16 then s.lut.chroma else s.lut.luma)[s.lutAddr.toNat % 2 ^ 16]? = some v →
      step s = .next { s with host := rest, hostReads := enc32 v :: s.hostReads }) ∧
    ((if s.lutAddr.getLsbD 16 then s.lut.chroma else s.lut.luma)[s.lutAddr.toNat % 2 ^ 16]? = none →
      ∃ w, step s = .next { s with
        host := rest, hostReads := w :: s.hostReads, freeCount := s.freeCount + 1 })

/-- 30_encoding.md rule R111, 20_memory.md rules R70, R72, 00_scope.md rule R10: a number in memory is its bytes, the least
significant first; `MW<n>` outside the register window stores `n` bytes so and changes no other byte, whatever the host
does next; `MR<n>` reads them. That `MW<n>` keeps the low `n` bytes of a 32-bit value and that `MR<n>` extends by zeros is
the model's reading (assumption log, entry 17), and so is the last clause: an aligned 4-byte transaction inside the
register window is the register access at that offset (assumption log, entry 12). -/
def Obligations.HostMemoryWriteThenRead : Prop :=
  (∀ (m : Memory) (a n : Nat),
    memRead m a n = ((List.range n).map fun i => (memByte m (a + i)).toNat * 256 ^ i).sum) ∧
  (∀ (s : State) (a : Word) (size : AccessSize) (v : Word) (rest : List HostTx),
    memWf s.mem = true → a.toNat + accessBytes size ≤ 2 ^ 32 →
    (a.toNat + accessBytes size ≤ Config.params.cmcBase ∨ Config.params.cmcBase + 4096 ≤ a.toNat) →
    (s.host = .memWrite a size v :: rest →
      ∃ m, step s = .next { s with mem := m, host := rest } ∧ memWf m = true ∧
        (∀ x, memByte m x =
          if a.toNat ≤ x ∧ x < a.toNat + accessBytes size then BitVec.ofNat 8 (v.toNat / 256 ^ (x - a.toNat))
          else memByte s.mem x) ∧
        ∀ rest', rest = .memRead a size :: rest' →
          step { s with mem := m, host := rest } = .next { s with
            mem := m, host := rest'
            hostReads := BitVec.ofNat 32 (v.toNat % 256 ^ accessBytes size) :: s.hostReads }) ∧
    (s.host = .memRead a size :: rest →
      step s = .next { s with
        host := rest
        hostReads := BitVec.ofNat 32 (memRead s.mem a.toNat (accessBytes size)) :: s.hostReads })) ∧
  ∀ (s : State) (a v : Word) (rest : List HostTx),
    Config.params.cmcBase ≤ a.toNat → a.toNat < Config.params.cmcBase + 4096 → a.toNat % 4 = 0 →
    (s.host = .memWrite a .four v :: rest →
      step s = step { s with
        host := .regWrite (BitVec.ofNat 12 (a.toNat - Config.params.cmcBase)) v :: rest }) ∧
    (s.host = .memRead a .four :: rest →
      step s = step { s with
        host := .regRead (BitVec.ofNat 12 (a.toNat - Config.params.cmcBase)) :: rest })

/-- 30_encoding.md rule R111: `MB` writes its bytes to successive addresses and no other byte. -/
def Obligations.HostBytesWritten : Prop :=
  ∀ (s : State) (a : Word) (bs : List Byte) (rest : List HostTx),
    memWf s.mem = true → a.toNat + bs.length ≤ 2 ^ 32 →
    (a.toNat + bs.length ≤ Config.params.cmcBase ∨ Config.params.cmcBase + 4096 ≤ a.toNat) →
    s.host = .memBytes a bs :: rest →
    ∃ m, step s = .next { s with mem := m, host := rest } ∧ memWf m = true ∧
      ∀ x, memByte m x =
        if a.toNat ≤ x ∧ x < a.toNat + bs.length then bs.getD (x - a.toNat) 0 else memByte s.mem x

/-- A script whose every transaction is defined runs to its end (30_encoding.md rule R111, 70_reset_and_hazards.md rule
R330): the machine stops in no fault and no refusal, and then it is idle. What counts as defined is the model's reading of
10_state.md rule R21 and 20_memory.md rule R70 (assumption log, entries 11 and 12). -/
def Obligations.ScriptRunsToItsEnd : Prop :=
  ∀ s : State, hostDefined s →
    ∃ t, runSteps s.host.length s = .next t ∧ t.host = [] ∧ step t = .next t

/-! ## Command words and the step -/

/-- 30_encoding.md rule R101: words written out from the encodings decode to their commands. -/
def Obligations.DecodeSampleWords : Prop :=
  decode 0b00000000000000000000000000000001#32 = .ok .resolve ∧
  decode 0b00000000000000000000000000000010#32 = .ok .buildLut ∧
  decode 0b00000000000000000000000000000011#32 = .ok .encodeColor ∧
  decode 0b00000000000000000000000000000100#32 = .ok .encodeAlpha ∧
  decode 0b00000000000000000000000000000101#32 = .ok .decodeColor ∧
  decode 0b00000000000000000000000000000110#32 = .ok .decodeAlpha ∧
  decode 0b00000000000000000000000100000111#32 = .ok (.tileValidate 1#1) ∧
  decode 0b00000000000000000000000000001000#32 = .ok (.tileReset 0#1)

/-- 30_encoding.md rules R100, R101: decoding and encoding agree on every word and every command. -/
def Obligations.DecodeIffEncode : Prop :=
  ∀ (w : Word) (i : Instr), decode w = .ok i ↔ encode i = w

/-- 30_encoding.md rule R101: each command is selected by `(word & mask) = match`, with the bank in bit 8. -/
def Obligations.OpcodeMapSelects : Prop :=
  ∀ w : Word,
    (decode w = .ok .resolve ↔ w &&& 0xFFFFFFFF = 0x00000001) ∧
    (decode w = .ok .buildLut ↔ w &&& 0xFFFFFFFF = 0x00000002) ∧
    (decode w = .ok .encodeColor ↔ w &&& 0xFFFFFFFF = 0x00000003) ∧
    (decode w = .ok .encodeAlpha ↔ w &&& 0xFFFFFFFF = 0x00000004) ∧
    (decode w = .ok .decodeColor ↔ w &&& 0xFFFFFFFF = 0x00000005) ∧
    (decode w = .ok .decodeAlpha ↔ w &&& 0xFFFFFFFF = 0x00000006) ∧
    (∀ b : Bank, decode w = .ok (.tileValidate b) ↔ w &&& 0xFFFFFEFF = 0x00000007 ∧ b.getLsbD 0 = w.getLsbD 8) ∧
    (∀ b : Bank, decode w = .ok (.tileReset b) ↔ w &&& 0xFFFFFEFF = 0x00000008 ∧ b.getLsbD 0 = w.getLsbD 8)

/-- 30_encoding.md rule R102: which words are no command, and that writing one to `CMD` writes `STATUS.CODE` 0x40 and
changes nothing else. -/
def Obligations.IllegalWordIsBadCommand : Prop :=
  (∀ w : Word, (∃ e, decode w = .error e) ↔
    w.toNat % 256 = 0 ∨ 9 ≤ w.toNat % 256 ∨ 2 ^ 9 ≤ w.toNat ∨ (w.toNat % 256 ≤ 6 ∧ w.getLsbD 8 = true)) ∧
  ∀ (s : State) (w : Word) (e : DecodeError) (rest : List HostTx),
    s.host = cmdWrite w :: rest → decode w = .error e →
      step s = .next { s with host := rest, status := withCode s.status 0x40 }

/-- A step runs the decoded command (10_state.md rule R23): a word written to `CMD` that decodes to `i` makes the step
`exec i`, with the transaction taken off the host's script. The second clause is the model's choice (assumption log, entry
8): `withFetchWord` puts a write of the word to `CMD` in front of the host's script, and the step then runs it. With no
transaction left the block is idle and holds its state (30_encoding.md rule R111). -/
def Obligations.StepRunsDecodedCommand : Prop :=
  (∀ (s : State) (w : Word) (i : Instr) (rest : List HostTx),
    s.host = cmdWrite w :: rest → decode w = .ok i → step s = exec i { s with host := rest }) ∧
  (∀ (s : State) (i : Instr), step (s.withFetchWord 32 (encode i).toNat) = exec i s) ∧
  (∀ s : State, s.host = [] → step s = .next s)

/-! ## Failing -/

/-- 60_exceptions.md rule R294: a command always completes; one that ends with a code other than 0 is indistinguishable,
except for `STATUS.CODE`, from one never issued. -/
def Obligations.FailureChangesOnlyCode : Prop :=
  ∀ (i : Instr) (s : State), ∃ t, exec i s = .next t ∧
    (codeOf t ≠ 0 → t = { s with status := withCode s.status (codeOf t) })

/-- 60_exceptions.md rule R300: the codes each command, and any other word, can end with. -/
def Obligations.CommandStatusCodes : Prop :=
  (∀ (i : Instr) (s : State), ∃ t, exec i s = .next t ∧ codeOf t ∈ commandCodes i) ∧
  ∀ (w : Word) (e : DecodeError) (s : State), decode w = .error e →
    ∃ t, runWord w s = .next t ∧ codeOf t = 0x40

/-- 60_exceptions.md rule R299: re-issuing a failed command with unchanged registers and memory fails the same way. -/
def Obligations.FailedCommandFailsAgain : Prop :=
  ∀ (i : Instr) (s t : State), exec i s = .next t → codeOf t ≠ 0 → exec i t = .next t

/-- 44_encoder.md rules R201, R207, 45_decoder.md rules R231, R239: a command that moves pixels reports its first failing
check and changes nothing else. -/
def Obligations.FirstFailingCheckReported : Prop :=
  ∀ (s : State) (c : Nat),
    (encodeColorVerdict Config.params s = some c →
      exec .encodeColor s = .next { s with status := withCode s.status c }) ∧
    (encodeAlphaVerdict Config.params s = some c →
      exec .encodeAlpha s = .next { s with status := withCode s.status c }) ∧
    (decodeColorVerdict Config.params s = some c →
      exec .decodeColor s = .next { s with status := withCode s.status c }) ∧
    (decodeAlphaVerdict Config.params s = some c →
      exec .decodeAlpha s = .next { s with status := withCode s.status c })

/-! ## Arithmetic -/

/-- 00_scope.md rules R5, R8, R13: every operation and literal of `NUM` is the exact result rounded under `F32`, the exact
result under `EXACT`; the rounded value is a binary32 value, no binary32 value is nearer, and of two equally near ones it
is the one whose pattern is even; `enc32` is the pattern of the rounded value, a finite one and never the negative zero.
Two clauses go past those rules and are the model's (assumption log, entry 4): that `num(i)` is `i` beyond the 65535 of
rule R5, and that a division by zero, which no rule performs, has the rational quotient 0. Magnitudes past the binary32
range are left out: rule R8 says that none arises (assumption log, entry 5). -/
def Obligations.Binary32RoundsToNearestEven : Prop :=
  (∀ a b : Rat,
    numAdd .f32 a b = roundF32 (a + b) ∧ numSub .f32 a b = roundF32 (a - b) ∧
    numMul .f32 a b = roundF32 (a * b) ∧ numDiv .f32 a b = roundF32 (a / b) ∧ numLit .f32 a = roundF32 a ∧
    numAdd .exactQ a b = a + b ∧ numSub .exactQ a b = a - b ∧
    numMul .exactQ a b = a * b ∧ numDiv .exactQ a b = a / b ∧ numLit .exactQ a = a) ∧
  (∀ i : Nat, numOf i = (i : Rat)) ∧
  ∀ v : Rat, f32Overflows v = false →
    isBinary32 (roundF32 v) ∧
    (∀ w : Rat, isBinary32 w →
      |v - roundF32 v| ≤ |v - w| ∧
      (|v - roundF32 v| = |v - w| → w ≠ roundF32 v → (enc32 v).getLsbD 0 = false)) ∧
    binary32Value (enc32 v) = roundF32 v ∧ enc32 v ≠ 0x80000000 ∧ (enc32 v).toNat / 2 ^ 23 % 2 ^ 8 < 255

/-- 00_scope.md rule R9: `rnd` adds one half in `NUM` and takes the exact floor, `quant` clamps, scales and rounds, and
`quant(v, m)` is in `[0, m]`. -/
def Obligations.QuantisationRange : Prop :=
  ∀ (m : NumMode) (v : Sys2Proof.Num),
    rnd m v = ⌊numAdd m v (numLit m (1 / 2))⌋ ∧
    ∀ top : Nat, top = 255 ∨ top = 65535 →
      (quant m v top : Int) =
        rnd m (numMul m (if v < 0 then 0 else if 1 < v then 1 else v) (numOf top)) ∧ quant m v top ≤ top

/-- 41_color_matrix.md rule R152: the encoder's quantisation of luma and chroma, its bias for both settings, and the
neutral code. -/
def Obligations.EncoderQuantisation : Prop :=
  ∀ (p : Params) (c : Sys2Proof.Num),
    quantLuma p.num c = quant p.num c 255 ∧
    (p.bias = .half → quantChroma p c = quant p.num (numAdd p.num c (numLit p.num (1 / 2))) 255) ∧
    (p.bias = .code →
      quantChroma p c = quant p.num (numAdd p.num c (numDiv p.num (numOf 128) (numOf 255))) 255) ∧
    quantLuma p.num c ≤ 255 ∧ quantChroma p c ≤ 255 ∧ quantChroma p 0 = 128

/-! ## The resolver -/

/-- 40_resolver.md rules R130, R137: RESOLVE completes in every state, writes `KR`, `KG`, `KB` and `STATUS`, and leaves
every other register, the tables and all of memory. -/
def Obligations.ResolveResult : Prop :=
  ∀ s : State,
    exec .resolve s = .next { s with
      coefs := resolveCoefs Config.params (s.cm.toNat % 2 ^ 8) (s.cm.toNat / 2 ^ 16 % 2 ^ 8)
      status := withResolved s.status
        (match s.cm.toNat / 2 ^ 16 % 2 ^ 8 with
          | 0 => 1
          | 8 => 2
          | 16 => 3
          | 17 => 4
          | _ => 0) }

/-- 40_resolver.md rule R132: the table-backed pairs. -/
def Obligations.TableBackedCoefficients : Prop :=
  ∀ (p : Params) (cp : Nat), ∀ row ∈ [((1 : Nat), (2126 / 10000 : Rat), (722 / 10000 : Rat)),
      (4, 30 / 100, 11 / 100), (5, 299 / 1000, 114 / 1000), (6, 299 / 1000, 114 / 1000),
      (7, 212 / 1000, 87 / 1000), (9, 2627 / 10000, 593 / 10000)],
    (resolveCoefs p cp row.1).kr = numLit p.num row.2.1 ∧ (resolveCoefs p cp row.1).kb = numLit p.num row.2.2

/-- 40_resolver.md rule R134: every code without a pair of its own takes the BT.601 pair. -/
def Obligations.FallbackCoefficients : Prop :=
  ∀ (p : Params) (cp mc : Nat), mc ∉ [1, 4, 5, 6, 7, 9] →
    (mc = 12 → p.primaries cp = none ∨ derive p cp = none) →
    (resolveCoefs p cp mc).kr = numLit p.num (299 / 1000) ∧ (resolveCoefs p cp mc).kb = numLit p.num (114 / 1000)

/-- 40_resolver.md rule R135: `kg = (num(1) - kr) - kb`, in that order. -/
def Obligations.GreenCoefficient : Prop :=
  ∀ (p : Params) (cp mc : Nat),
    (resolveCoefs p cp mc).kg =
      numSub p.num (numSub p.num (numOf 1) (resolveCoefs p cp mc).kr) (resolveCoefs p cp mc).kb

/-- 40_resolver.md rule R136: no divisor of the transforms is zero, whatever the `PRIMARIES` table; a pair that would make
one zero is replaced by the fallback; and with the default table no code ever needs the guard. -/
def Obligations.DivisorsNeverZero : Prop :=
  (∀ (p : Params) (cp mc : Nat),
    (resolveCoefs p cp mc).kg ≠ 0 ∧ numSub p.num (numOf 1) (resolveCoefs p cp mc).kr ≠ 0 ∧
      numSub p.num (numOf 1) (resolveCoefs p cp mc).kb ≠ 0 ∧
    ((candidate p cp mc).kg = 0 ∨ numSub p.num (numOf 1) (candidate p cp mc).kr = 0 ∨
        numSub p.num (numOf 1) (candidate p cp mc).kb = 0 →
      (resolveCoefs p cp mc).kr = numLit p.num (299 / 1000) ∧
        (resolveCoefs p cp mc).kb = numLit p.num (114 / 1000))) ∧
  ∀ (m : NumMode) (b : ChromaBias) (cp mc : Nat), cp < 256 → mc < 256 →
    resolveCoefs (vectorParams m b) cp mc = candidate (vectorParams m b) cp mc

/-- 40_resolver.md rule R130, its property: the coefficients sum to 1 exactly under `EXACT`; under `F32`, with the default
table, to 1, or to `1 - 2^-24` for the fallback and BT.601 pair. -/
def Obligations.CoefficientSum : Prop :=
  (∀ (p : Params) (cp mc : Nat), p.num = .exactQ →
    (resolveCoefs p cp mc).kr + (resolveCoefs p cp mc).kg + (resolveCoefs p cp mc).kb = 1) ∧
  ∀ (b : ChromaBias) (cp mc : Nat), cp < 256 → mc < 256 →
    let k := resolveCoefs (vectorParams .f32 b) cp mc
    numAdd .f32 (numAdd .f32 k.kr k.kg) k.kb =
      if mc ∈ [1, 4, 7, 9] ∨ (mc = 12 ∧ cp ∈ [1, 4, 5, 6, 7, 8, 9, 10, 11, 12, 22]) then 1 else 1 - 1 / 2 ^ 24

/-- 40_resolver.md rules R133, R137: the closed form with its order of operations; that a code `MC = 12` takes its pair
where it is defined and makes no divisor zero; and what the form computes under `EXACT`: the coefficients are the
luminances of the three primaries in the amounts whose sum is the white point of luminance 1. -/
def Obligations.ChromaticityDerivation : Prop :=
  (∀ (p : Params) (cp : Nat), p.primaries cp = none → derive p cp = none) ∧
  (∀ (p : Params) (cp : Nat) (c : Chromaticities), p.primaries cp = some c →
    let lit : Rat → Sys2Proof.Num := numLit p.num
    let mul : Sys2Proof.Num → Sys2Proof.Num → Sys2Proof.Num := numMul p.num
    let sub : Sys2Proof.Num → Sys2Proof.Num → Sys2Proof.Num := numSub p.num
    let add : Sys2Proof.Num → Sys2Proof.Num → Sys2Proof.Num := numAdd p.num
    let rX := lit c.rX
    let rY := lit c.rY
    let gX := lit c.gX
    let gY := lit c.gY
    let bX := lit c.bX
    let bY := lit c.bY
    let wX := lit c.wX
    let wY := lit c.wY
    let rZ := sub (numOf 1) (add rX rY)
    let gZ := sub (numOf 1) (add gX gY)
    let bZ := sub (numOf 1) (add bX bY)
    let wZ := sub (numOf 1) (add wX wY)
    let den := mul wY (add (add (mul rX (sub (mul gY bZ) (mul bY gZ))) (mul gX (sub (mul bY rZ) (mul rY bZ))))
      (mul bX (sub (mul rY gZ) (mul gY rZ))))
    let krn := mul rY (add (add (mul wX (sub (mul gY bZ) (mul bY gZ))) (mul wY (sub (mul bX gZ) (mul gX bZ))))
      (mul wZ (sub (mul gX bY) (mul bX gY))))
    let kbn := mul bY (add (add (mul wX (sub (mul rY gZ) (mul gY rZ))) (mul wY (sub (mul gX rZ) (mul rX gZ))))
      (mul wZ (sub (mul rX gY) (mul gX rY))))
    derive p cp = if den = 0 then none else some (numDiv p.num krn den, numDiv p.num kbn den)) ∧
  (∀ (p : Params) (cp : Nat) (kr kb : Sys2Proof.Num), derive p cp = some (kr, kb) →
    numSub p.num (numSub p.num (numOf 1) kr) kb ≠ 0 → numSub p.num (numOf 1) kr ≠ 0 →
    numSub p.num (numOf 1) kb ≠ 0 →
    resolveCoefs p cp 12 = ⟨kr, numSub p.num (numSub p.num (numOf 1) kr) kb, kb⟩) ∧
  ∀ (p : Params) (cp : Nat) (c : Chromaticities) (kr kb : Sys2Proof.Num),
    p.num = .exactQ → p.primaries cp = some c → derive p cp = some (kr, kb) →
    ∃ sr sg sb : Rat,
      sr * c.rX + sg * c.gX + sb * c.bX = c.wX / c.wY ∧
      sr * c.rY + sg * c.gY + sb * c.bY = 1 ∧
      sr * (1 - c.rX - c.rY) + sg * (1 - c.gX - c.gY) + sb * (1 - c.bX - c.bY) = (1 - c.wX - c.wY) / c.wY ∧
      kr = sr * c.rY ∧ kb = sb * c.bY ∧ 1 - kr - kb = sg * c.gY

/-! ## The lookup tables -/

/-- 42_lut_builder.md rules R170, R176: BUILD_LUT of a supported depth completes, writes `2^DEPTH` entries of the luma
table and, unless `MONO`, of the chroma table, marks every other entry unwritten, records the arguments in `LUT_CUR`; of
an unsupported depth it fails. -/
def Obligations.BuildLutResult : Prop :=
  ∀ s : State,
    let bd := s.lutCfg.toNat % 2 ^ 5
    let mono := s.lutCfg.getLsbD 8
    let ident := s.lutCfg.getLsbD 9
    let full := s.lutCfg.getLsbD 10
    (bd = 8 ∨ bd = 10 ∨ bd = 12 ∨ bd = 16 →
      ∃ t : LutMem,
        exec .buildLut s = .next { s with
          lut := t, lutCur := (s.lutCfg &&& 0x71F) ||| 0x80000000, status := withCode s.status 0x00 } ∧
        (∀ i, t.luma[i]? =
          if i < 2 ^ bd then some (lumaEntry Config.params.num bd full i) else none) ∧
        (∀ i, t.chroma[i]? =
          if mono = false ∧ i < 2 ^ bd then some (chromaEntry Config.params bd full ident i) else none)) ∧
    (¬ (bd = 8 ∨ bd = 10 ∨ bd = 12 ∨ bd = 16) →
      exec .buildLut s = .next { s with status := withCode s.status 0x04 })

/-- 42_lut_builder.md rules R172, R173: the limits of each depth, the rescale, its bounds and its fixed points, and that
full range is not rescaled. -/
def Obligations.LimitedToFullRescale : Prop :=
  ∀ row ∈ [((8 : Nat), (16 : Nat), (235 : Nat), (240 : Nat), (255 : Nat)), (10, 64, 940, 960, 1023),
      (12, 256, 3760, 3840, 4095), (16, 4096, 60160, 61440, 65535)],
    ∀ kind : RangeKind,
      let bd := row.1
      let lo := row.2.1
      let hi := if kind = .luma then row.2.2.1 else row.2.2.2.1
      let top := row.2.2.2.2
      (∀ i : Nat, (rescale i bd kind : Int) =
        max 0 (min (top : Int) ((((i : Int) - lo) * top + ((hi - lo) / 2 : Nat)) / (hi - lo : Nat)))) ∧
      (∀ i : Nat, i ≤ lo → rescale i bd kind = 0) ∧ (∀ i : Nat, hi ≤ i → rescale i bd kind = top) ∧
      (∀ i j : Nat, i ≤ j → rescale i bd kind ≤ rescale j bd kind) ∧
      (∀ i : Nat, rangedCode bd true kind i = i ∧ rangedCode bd false kind i = rescale i bd kind) ∧
      rescale (2 ^ (bd - 1)) bd .chroma = 2 ^ (bd - 1)

/-- 42_lut_builder.md rules R174, R179 (a) to (c), for both instances of `NUM` and all four depths: an entry is the code,
rescaled in limited range, divided by the largest code; the full-range luma table rises strictly from 0 to 1; the limited-range
one never falls, is 0 up to `lo` and 1 from `hi`. -/
def Obligations.LumaTableMonotone : Prop :=
  ∀ (m : NumMode) (bd : Nat), bd = 8 ∨ bd = 10 ∨ bd = 12 ∨ bd = 16 →
    (∀ i, lumaEntry m bd true i = numDiv m (numOf i) (numOf (2 ^ bd - 1)) ∧
      lumaEntry m bd false i = numDiv m (numOf (rescale i bd .luma)) (numOf (2 ^ bd - 1))) ∧
    lumaEntry m bd true 0 = 0 ∧ lumaEntry m bd true (2 ^ bd - 1) = 1 ∧
    (∀ i j, i < j → j < 2 ^ bd → lumaEntry m bd true i < lumaEntry m bd true j) ∧
    (∀ i j, i ≤ j → j < 2 ^ bd → lumaEntry m bd false i ≤ lumaEntry m bd false j) ∧
    (∀ i, i ≤ 16 * 2 ^ (bd - 8) → lumaEntry m bd false i = 0) ∧
    (∀ i, 235 * 2 ^ (bd - 8) ≤ i → i < 2 ^ bd → lumaEntry m bd false i = 1)

/-- 42_lut_builder.md rules R175, R179 (d): an Identity chroma table is the luma table; otherwise an entry is the code,
rescaled in limited range, divided by the largest code, less the bias of the setting; entries lie in `[-1/2, 1/2]` under
`HALF`, in `[-bias, 1 - bias]` under `CODE`, where the neutral code is exactly 0. -/
def Obligations.ChromaTableRange : Prop :=
  ∀ (p : Params) (bd : Nat) (full : Bool), bd = 8 ∨ bd = 10 ∨ bd = 12 ∨ bd = 16 →
    (∀ i, chromaEntry p bd full true i = lumaEntry p.num bd full i) ∧
    (∀ i, chromaEntry p bd full false i =
      numSub p.num
        (numDiv p.num (numOf (if full then i else rescale i bd .chroma)) (numOf (2 ^ bd - 1)))
        (match p.bias with
          | .half => numLit p.num (1 / 2)
          | .code => numDiv p.num (numOf (2 ^ (bd - 1))) (numOf (2 ^ bd - 1)))) ∧
    (p.bias = .half → ∀ i, i < 2 ^ bd →
      -(1 / 2) ≤ chromaEntry p bd full false i ∧ chromaEntry p bd full false i ≤ 1 / 2) ∧
    (p.bias = .code →
      chromaEntry p bd full false (2 ^ (bd - 1)) = 0 ∧
      ∀ i, i < 2 ^ bd →
        -numDiv p.num (numOf (2 ^ (bd - 1))) (numOf (2 ^ bd - 1)) ≤ chromaEntry p bd full false i ∧
        chromaEntry p bd full false i ≤ 1 - numDiv p.num (numOf (2 ^ (bd - 1))) (numOf (2 ^ bd - 1)))

/-! ## The colour transforms -/

/-- 41_color_matrix.md rules R151, R153, under `EXACT`: the inverse of the standard transform, applied to the values the
forward transform gives, returns the normalised colour. -/
def Obligations.LinearInverseOfForward : Prop :=
  ∀ (k : Coefs) (t : LutMem) (r g b yc uc vc : Nat),
    k.kr + k.kg + k.kb = 1 → k.kg ≠ 0 → k.kr ≠ 1 → k.kb ≠ 1 →
    lutRead t.luma yc = (fwd .exactQ k r g b).y → lutRead t.chroma uc = (fwd .exactQ k r g b).u →
    lutRead t.chroma vc = (fwd .exactQ k r g b).v →
    invLinear .exactQ k t yc uc vc = ⟨(r : Rat) / 255, (g : Rat) / 255, (b : Rat) / 255⟩

/-- 41_color_matrix.md rules R154, R155, R157, 45_decoder.md rule R235: the pixel of each matrix class that reads the
tables. -/
def Obligations.TablePixelFormulas : Prop :=
  ∀ (m : NumMode) (k : Coefs) (bd : Nat) (t : LutMem) (yc uc vc : Nat),
    let y := lutRead t.luma yc
    let u := lutRead t.chroma uc
    let v := lutRead t.chroma vc
    colourPixel m .identity k bd t yc uc vc = ⟨v, y, u⟩ ∧
    colourPixel m .ycgco k bd t yc uc vc =
      ⟨numAdd m (numSub m y u) v, numAdd m y u, numSub m (numSub m y u) v⟩ ∧
    colourPixel m .linear k bd t yc uc vc =
      ⟨numAdd m y (numMul m (numMul m (numOf 2) (numSub m (numOf 1) k.kr)) v),
       numSub m y (numDiv m (numMul m (numOf 2)
         (numAdd m (numMul m (numMul m k.kr (numSub m (numOf 1) k.kr)) v)
           (numMul m (numMul m k.kb (numSub m (numOf 1) k.kb)) u))) k.kg),
       numAdd m y (numMul m (numMul m (numOf 2) (numSub m (numOf 1) k.kb)) u)⟩ ∧
    invMono t yc = ⟨y, y, y⟩

/-- 41_color_matrix.md rule R156: the pixel of YCgCo-Re and YCgCo-Ro: halving by floor, `Ri` from the clamped `Bi`, `M` of
the class, each integer divided by `M`; the integers lie in `[0, M]`; and where no clamp acts, lifting them forward again
gives the three codes: no information is lost. -/
def Obligations.ReversibleReconstruction : Prop :=
  ∀ (m : NumMode) (k : Coefs) (tb : LutMem) (top bd yc uc vc : Nat),
    let i := reversibleRgb top bd yc uc vc
    let cg : Int := (uc : Int) - 2 ^ (bd - 1)
    let co : Int := (vc : Int) - 2 ^ (bd - 1)
    let t : Int := yc - cg / 2
    let gi : Int → Int := fun M => max 0 (min M (t + cg))
    let bi : Int → Int := fun M => max 0 (min M (t - co / 2))
    let ri : Int → Int := fun M => max 0 (min M (bi M + co))
    let pixel : Nat → Rgb := fun M =>
      ⟨numDiv m (numOf (ri M).toNat) (numOf M), numDiv m (numOf (gi M).toNat) (numOf M),
       numDiv m (numOf (bi M).toNat) (numOf M)⟩
    colourPixel m .ycgcoRe k bd tb yc uc vc = pixel (2 ^ (bd - 2) - 1) ∧
    colourPixel m .ycgcoRo k bd tb yc uc vc = pixel (2 ^ (bd - 1) - 1) ∧
    (i.1 : Int) = ri top ∧ (i.2.1 : Int) = gi top ∧ (i.2.2 : Int) = bi top ∧
    i.1 ≤ top ∧ i.2.1 ≤ top ∧ i.2.2 ≤ top ∧
    (0 ≤ t + cg → t + cg ≤ top → 0 ≤ t - co / 2 → t - co / 2 ≤ top →
      0 ≤ t - co / 2 + co → t - co / 2 + co ≤ top →
      (i.1 : Int) - i.2.2 = co ∧ (i.2.1 : Int) - (i.2.2 + ((i.1 : Int) - i.2.2) / 2) = cg ∧
      (i.2.2 : Int) + ((i.1 : Int) - i.2.2) / 2 +
        ((i.2.1 : Int) - (i.2.2 + ((i.1 : Int) - i.2.2) / 2)) / 2 = yc)

/-- 41_color_matrix.md rule R161 (a), 42_lut_builder.md rule R178: a byte survives normalising and quantising in both
instances of `NUM`, so a full-range Identity pixel of depth 8 returns its three bytes. -/
def Obligations.IdentityPixelRoundTrip : Prop :=
  (∀ (m : NumMode) (c : Nat), c < 256 → quant m (numDiv m (numOf c) (numOf 255)) 255 = c) ∧
  ∀ (p : Params) (r g b : Nat), r < 256 → g < 256 → b < 256 →
    let v := invIdentity (buildTables p 8 false true true) g b r
    quantOut p.num .bgra8 v.r = r ∧ quantOut p.num .bgra8 v.g = g ∧ quantOut p.num .bgra8 v.b = b

/-! ## Blocks, planes and buffers -/

/-- 43_chroma_subsampler.md rule R190: every pixel of an image lies in exactly one block, a block holds only pixels that
exist, and it has 4, 2 or 1 of them. Its pixels are listed in raster order. -/
def Obligations.BlockPartition : Prop :=
  ∀ w h : Nat,
    (∀ x y, x < w → y < h →
      (x, y) ∈ blockPixels w h (x / 2) (y / 2) ∧
      ∀ bx rowB, (x, y) ∈ blockPixels w h bx rowB → bx = x / 2 ∧ rowB = y / 2) ∧
    (∀ bx rowB q, q ∈ blockPixels w h bx rowB → q.1 < w ∧ q.2 < h) ∧
    (∀ bx rowB, bx < (w + 1) / 2 → rowB < (h + 1) / 2 →
      (blockPixels w h bx rowB).length =
        (if 2 * bx + 1 < w then 2 else 1) * (if 2 * rowB + 1 < h then 2 else 1) ∧
      blockPixels w h bx rowB =
        if 2 * bx + 1 < w then
          (if 2 * rowB + 1 < h then
            [(2 * bx, 2 * rowB), (2 * bx + 1, 2 * rowB), (2 * bx, 2 * rowB + 1), (2 * bx + 1, 2 * rowB + 1)]
          else [(2 * bx, 2 * rowB), (2 * bx + 1, 2 * rowB)])
        else if 2 * rowB + 1 < h then [(2 * bx, 2 * rowB), (2 * bx, 2 * rowB + 1)]
        else [(2 * bx, 2 * rowB)])

/-- 43_chroma_subsampler.md rule R195: the chroma index of a luma position, which the clamp never changes. -/
def Obligations.ChromaIndexInPlane : Prop :=
  ∀ (s : State) (x y : Nat), x < s.frm.width.toNat → y < s.frm.height.toNat →
    cidx s x y =
      (min (x / 2 ^ (frameFormat s.frm.fmt).xsh) (decChromaW s - 1),
       min (y / 2 ^ (frameFormat s.frm.fmt).ysh) (decChromaH s - 1)) ∧
    cidx s x y = (x / 2 ^ (frameFormat s.frm.fmt).xsh, y / 2 ^ (frameFormat s.frm.fmt).ysh) ∧
    (cidx s x y).1 < decChromaW s ∧ (cidx s x y).2 < decChromaH s

/-- 20_memory.md rule R78 (b) to (e), over buffers with at least one byte: aligned, ending at or below `2^AW`, clear of
the register window, and no byte of a written buffer in any other buffer. -/
def Obligations.AddressChecksMeaning : Prop :=
  ∀ (p : Params) (reads writes : List Buffer),
    let last : Buffer → Nat := fun b => b.base + (b.rows - 1) * b.stride + b.rowBytes
    let inside : Buffer → Nat → Prop := fun b a => b.base ≤ a ∧ a < last b
    (∀ b ∈ reads ++ writes, b.base < last b) →
    (addressesOk p reads writes = true ↔
      (∀ b ∈ reads ++ writes,
        b.base % b.elem = 0 ∧ b.stride % b.elem = 0 ∧ last b ≤ 2 ^ 32 ∧
        ∀ a, inside b a → ¬ (p.cmcBase ≤ a ∧ a < p.cmcBase + 4096)) ∧
      writes.Pairwise (fun b c => ∀ a, ¬ (inside b a ∧ inside c a)) ∧
      ∀ b ∈ writes, ∀ c ∈ reads, ∀ a, ¬ (inside b a ∧ inside c a))

/-! ## Encoding -/

/-- 44_encoder.md rules R200, R206: ENCODE_COLOR, its checks passed, completes; it writes `FRM_*`, `KR`, `KG`, `KB`,
`STATUS` and samples of the three planes, and leaves every other register, the tables, the tile state and every other
byte. -/
def Obligations.EncodeColorCompletes : Prop :=
  ∀ s : State, memWf s.mem = true → encodeColorVerdict Config.params s = none →
    let cfmt := s.encCtrl.toNat % 2 ^ 3
    let mc := s.cm.toNat / 2 ^ 16 % 2 ^ 8
    let cw := if cfmt = 3 then s.surf.width.toNat else (s.surf.width.toNat + 1) / 2
    let ch := if cfmt = 0 ∨ cfmt = 1 then (s.surf.height.toNat + 1) / 2 else s.surf.height.toNat
    ∃ m : Memory,
      exec .encodeColor s = .next { s with
        mem := m
        coefs := resolveCoefs Config.params (s.cm.toNat % 2 ^ 8) mc
        status := withResolved s.status
          (if mc = 0 then 1 else if mc = 8 then 2 else if mc = 16 then 3 else if mc = 17 then 4 else 0)
        frm :=
          { width := s.surf.width
            height := s.surf.height
            fmt := if cfmt = 0 then 0x708 else if cfmt = 1 then 0x308 else if cfmt = 2 then 0x108 else 0x008
            cicp := if cfmt = 0 then 0x01020202 else (s.cm &&& 0x00FFFFFF) ||| 0x01000000 } } ∧
      memWf m = true ∧
      ∀ a, ¬ isSampleByte s.yPlane 1 s.surf.width.toNat s.surf.height.toNat a →
        ¬ isSampleByte s.uPlane 1 cw ch a → ¬ isSampleByte s.vPlane 1 cw ch a → memByte m a = memByte s.mem a

/-- 44_encoder.md rule R203: ENCODE_COLOR in 4:0:0 copies the red bytes to the luma plane and zero-fills the chroma
planes. -/
def Obligations.EncodeMonochromeSamples : Prop :=
  ∀ s : State, memWf s.mem = true → encodeColorVerdict Config.params s = none → s.encCtrl.toNat % 2 ^ 3 = 0 →
    ∃ t, exec .encodeColor s = .next t ∧ codeOf t = 0 ∧
      (∀ x y, x < s.surf.width.toNat → y < s.surf.height.toNat →
        memByte t.mem (sampAddr s.yPlane 1 x y) = memByte s.mem (channelAddr s.surf x y .r)) ∧
      ∀ cx cy, cx < (s.surf.width.toNat + 1) / 2 → cy < (s.surf.height.toNat + 1) / 2 →
        memByte t.mem (sampAddr s.uPlane 1 cx cy) = 0 ∧ memByte t.mem (sampAddr s.vPlane 1 cx cy) = 0

/-- 44_encoder.md rule R204: ENCODE_COLOR of an Identity model copies green, blue and red to the Y, U and V planes. -/
def Obligations.EncodeIdentitySamples : Prop :=
  ∀ s : State, memWf s.mem = true → encodeColorVerdict Config.params s = none →
    s.cm.toNat / 2 ^ 16 % 2 ^ 8 = 0 → s.encCtrl.toNat % 2 ^ 3 ≠ 0 →
    ∃ t, exec .encodeColor s = .next t ∧ codeOf t = 0 ∧
      ∀ x y, x < s.surf.width.toNat → y < s.surf.height.toNat →
        memByte t.mem (sampAddr s.yPlane 1 x y) = memByte s.mem (channelAddr s.surf x y .g) ∧
        memByte t.mem (sampAddr s.uPlane 1 x y) = memByte s.mem (channelAddr s.surf x y .b) ∧
        memByte t.mem (sampAddr s.vPlane 1 x y) = memByte s.mem (channelAddr s.surf x y .r)

/-- 44_encoder.md rule R205, 41_color_matrix.md rule R151, 43_chroma_subsampler.md rules R192 to R194, R196: ENCODE_COLOR of
a standard model writes the quantised luma of every pixel, and as chroma the quantised mean over a 2x2 block, over a
block's row, or the pixel's own value. The first two clauses are the mean of 1, 2 and 4 values, added in the order of the
list, and the forward transform, each with its order of operations. -/
def Obligations.EncodeStandardSamples : Prop :=
  (∀ (m : NumMode) (a b c d : Sys2Proof.Num),
    mean m [a] = numDiv m a (numOf 1) ∧ mean m [a, b] = numDiv m (numAdd m a b) (numOf 2) ∧
    mean m [a, b, c, d] = numDiv m (numAdd m (numAdd m (numAdd m a b) c) d) (numOf 4)) ∧
  (∀ (m : NumMode) (k : Coefs) (r g b : Nat),
    let n : Nat → Sys2Proof.Num := fun c => numDiv m (numOf c) (numOf 255)
    let y := numAdd m (numAdd m (numMul m k.kr (n r)) (numMul m k.kg (n g))) (numMul m k.kb (n b))
    fwd m k r g b =
      ⟨y, numDiv m (numSub m (n b) y) (numMul m (numOf 2) (numSub m (numOf 1) k.kb)),
       numDiv m (numSub m (n r) y) (numMul m (numOf 2) (numSub m (numOf 1) k.kr))⟩) ∧
  ∀ s : State, memWf s.mem = true → encodeColorVerdict Config.params s = none →
    s.cm.toNat / 2 ^ 16 % 2 ^ 8 ≠ 0 → s.encCtrl.toNat % 2 ^ 3 ≠ 0 →
    let p := Config.params
    let w := s.surf.width.toNat
    let h := s.surf.height.toNat
    let k := resolveCoefs p (s.cm.toNat % 2 ^ 8) (s.cm.toNat / 2 ^ 16 % 2 ^ 8)
    let yuv : Nat × Nat → Yuv := fun q => fwd p.num k
      (memByte s.mem (channelAddr s.surf q.1 q.2 .r)).toNat
      (memByte s.mem (channelAddr s.surf q.1 q.2 .g)).toNat
      (memByte s.mem (channelAddr s.surf q.1 q.2 .b)).toNat
    let row : Nat → Nat → List (Nat × Nat) := fun cx cy =>
      if 2 * cx + 1 < w then [(2 * cx, cy), (2 * cx + 1, cy)] else [(2 * cx, cy)]
    let block : Nat → Nat → List (Nat × Nat) := fun cx cy =>
      if 2 * cy + 1 < h then row cx (2 * cy) ++ row cx (2 * cy + 1) else row cx (2 * cy)
    ∃ t, exec .encodeColor s = .next t ∧ codeOf t = 0 ∧
      (∀ x y, x < w → y < h →
        (memByte t.mem (sampAddr s.yPlane 1 x y)).toNat = quantLuma p.num (yuv (x, y)).y) ∧
      (s.encCtrl.toNat % 2 ^ 3 = 1 → ∀ cx cy, cx < (w + 1) / 2 → cy < (h + 1) / 2 →
        (memByte t.mem (sampAddr s.uPlane 1 cx cy)).toNat =
          quantChroma p (mean p.num ((block cx cy).map fun q => (yuv q).u)) ∧
        (memByte t.mem (sampAddr s.vPlane 1 cx cy)).toNat =
          quantChroma p (mean p.num ((block cx cy).map fun q => (yuv q).v))) ∧
      (s.encCtrl.toNat % 2 ^ 3 = 2 → ∀ cx cy, cx < (w + 1) / 2 → cy < h →
        (memByte t.mem (sampAddr s.uPlane 1 cx cy)).toNat =
          quantChroma p (mean p.num ((row cx cy).map fun q => (yuv q).u)) ∧
        (memByte t.mem (sampAddr s.vPlane 1 cx cy)).toNat =
          quantChroma p (mean p.num ((row cx cy).map fun q => (yuv q).v))) ∧
      (s.encCtrl.toNat % 2 ^ 3 = 3 → ∀ cx cy, cx < w → cy < h →
        (memByte t.mem (sampAddr s.uPlane 1 cx cy)).toNat = quantChroma p (yuv (cx, cy)).u ∧
        (memByte t.mem (sampAddr s.vPlane 1 cx cy)).toNat = quantChroma p (yuv (cx, cy)).v)

/-- 44_encoder.md rules R207, R203, R206: ENCODE_ALPHA, its checks passed, completes; the alpha bytes go to the luma plane,
the chroma planes are zero, `FRM_*` describes the frame, and nothing else changes. -/
def Obligations.EncodeAlphaResult : Prop :=
  ∀ s : State, memWf s.mem = true → encodeAlphaVerdict Config.params s = none →
    let w := s.surf.width.toNat
    let h := s.surf.height.toNat
    ∃ m : Memory,
      exec .encodeAlpha s = .next { s with
        mem := m, status := withCode s.status 0x00
        frm := { width := s.surf.width, height := s.surf.height, fmt := 0x708, cicp := 0x01020202 } } ∧
      memWf m = true ∧
      (∀ x y, x < w → y < h → memByte m (sampAddr s.yPlane 1 x y) = memByte s.mem (channelAddr s.surf x y .a)) ∧
      (∀ cx cy, cx < (w + 1) / 2 → cy < (h + 1) / 2 →
        memByte m (sampAddr s.uPlane 1 cx cy) = 0 ∧ memByte m (sampAddr s.vPlane 1 cx cy) = 0) ∧
      ∀ a, ¬ isSampleByte s.yPlane 1 w h a → ¬ isSampleByte s.uPlane 1 ((w + 1) / 2) ((h + 1) / 2) a →
        ¬ isSampleByte s.vPlane 1 ((w + 1) / 2) ((h + 1) / 2) a → memByte m a = memByte s.mem a

/-! ## Decoding -/

/-- 45_decoder.md rules R230, R232, R233, R237, 46_tile_assembly.md rules R270, R272: DECODE_COLOR, its checks passed,
completes; it writes the coefficients, `STATUS`, the tables of the effective colour model, on a first tile bank 0, and the
colour channels of the placement rectangle; it leaves every other register and every other byte, alpha among them. -/
def Obligations.DecodeColorCompletes : Prop :=
  ∀ s : State, memWf s.mem = true → decodeColorVerdict Config.params s = none →
    let eff := if s.cm.getLsbD 31 then s.cm else s.frm.cicp
    let mc := eff.toNat / 2 ^ 16 % 2 ^ 8
    let bd := s.frm.fmt.toNat % 2 ^ 5
    let mono := s.frm.fmt.getLsbD 10
    let full := eff.getLsbD 24
    let cls : Nat := if s.frm.fmt.getLsbD 10 then 1
      else if s.frm.fmt.getLsbD 8 then (if s.frm.fmt.getLsbD 9 then 2 else 3)
      else (if s.frm.fmt.getLsbD 9 then 5 else 4)
    ∃ m : Memory,
      exec .decodeColor s = .next { s with
        mem := m
        coefs := resolveCoefs Config.params (eff.toNat % 2 ^ 8) mc
        status := withResolved s.status
          (if mc = 0 then 1 else if mc = 8 then 2 else if mc = 16 then 3 else if mc = 17 then 4 else 0)
        lut := buildTables Config.params bd mono (decide (mc = 0)) full
        lutCur := BitVec.ofNat 32 bd ||| (if mono then 0x100 else 0) ||| (if mc = 0 then 0x200 else 0) |||
          (if full then 0x400 else 0) ||| 0x80000000
        ts0 := if s.tile = 0 then
            { expW := if s.ts0.expW = 0 ∨ s.ts0.expH = 0 then s.frm.width else s.ts0.expW
              expH := if s.ts0.expW = 0 ∨ s.ts0.expH = 0 then s.frm.height else s.ts0.expH
              info := (s.ts0.info &&& 0xFFFCF8E0) ||| BitVec.ofNat 32 bd |||
                BitVec.ofNat 32 (cls * 2 ^ 8) ||| 0x10000 |||
                (if s.cm.getLsbD 31 then 0 else 0x20000)
              cicp := if s.cm.getLsbD 31 then 0 else s.frm.cicp &&& 0x01FFFFFF }
          else s.ts0 } ∧
      (∀ i, (buildTables Config.params bd mono (decide (mc = 0)) full).luma[i]? =
        if i < 2 ^ bd then some (lumaEntry Config.params.num bd full i) else none) ∧
      (∀ i, (buildTables Config.params bd mono (decide (mc = 0)) full).chroma[i]? =
        if mono = false ∧ i < 2 ^ bd then some (chromaEntry Config.params bd full (decide (mc = 0)) i) else none) ∧
      memWf m = true ∧
      ∀ a, ¬ isPlacedByte s .b a → ¬ isPlacedByte s .g a → ¬ isPlacedByte s .r a → memByte m a = memByte s.mem a

/-- 20_memory.md rules R75, R76, 41_color_matrix.md rules R153 to R158, 45_decoder.md rules R232 to R236: where the channels
of a pixel and the samples of a plane lie; and each colour channel element of the placement rectangle holds the quantised
channel of its pixel. The codes are the frame's samples, saturated, chroma from the plane `UVSWAP` selects at the chroma
index; their table entries are those the command leaves in the LUT memory; the pixel is that of a monochrome frame, else
of the effective model's class. -/
def Obligations.DecodeColorPixels : Prop :=
  (∀ (f : Surface) (x y : Nat),
    let pix : Nat → Nat := fun bytes => f.base.toNat + y * f.stride.toNat + x * bytes
    (f.fmt.toNat % 2 ^ 2 = 0 → channelAddr f x y .b = pix 4 + 0 ∧ channelAddr f x y .g = pix 4 + 1 ∧
      channelAddr f x y .r = pix 4 + 2 ∧ channelAddr f x y .a = pix 4 + 3) ∧
    (f.fmt.toNat % 2 ^ 2 = 1 → channelAddr f x y .b = pix 8 + 4 ∧ channelAddr f x y .g = pix 8 + 2 ∧
      channelAddr f x y .r = pix 8 + 0 ∧ channelAddr f x y .a = pix 8 + 6) ∧
    (f.fmt.toNat % 2 ^ 2 = 2 → channelAddr f x y .b = pix 16 + 8 ∧ channelAddr f x y .g = pix 16 + 4 ∧
      channelAddr f x y .r = pix 16 + 0 ∧ channelAddr f x y .a = pix 16 + 12)) ∧
  (∀ (pl : Plane) (n x y : Nat), sampAddr pl n x y = pl.base.toNat + y * pl.stride.toNat + x * n) ∧
  ∀ s : State, memWf s.mem = true → decodeColorVerdict Config.params s = none →
    let p := Config.params
    let m := p.num
    let fmt : Nat := s.surf.fmt.toNat % 2 ^ 2
    let elem : Nat := if fmt = 0 then 1 else if fmt = 1 then 2 else 4
    let stored : Sys2Proof.Num → Nat := fun c =>
      if fmt = 0 then quant p.num c 255 else if fmt = 1 then quant p.num c 65535
      else (enc32 (if c < 0 then 0 else if 1 < c then 1 else c)).toNat
    let pl := placement s
    let eff := if s.cm.getLsbD 31 then s.cm else s.frm.cicp
    let mc : Nat := eff.toNat / 2 ^ 16 % 2 ^ 8
    let k := resolveCoefs p (eff.toNat % 2 ^ 8) mc
    let full := eff.getLsbD 24
    let bd : Nat := s.frm.fmt.toNat % 2 ^ 5
    let mono := s.frm.fmt.getLsbD 10
    let xsh : Nat := if s.frm.fmt.getLsbD 8 then 1 else 0
    let ysh : Nat := if s.frm.fmt.getLsbD 9 then 1 else 0
    let uPl := if s.frm.fmt.getLsbD 11 then s.vPlane else s.uPlane
    let vPl := if s.frm.fmt.getLsbD 11 then s.uPlane else s.vPlane
    let n : Nat := if bd = 8 then 1 else 2
    let code : Plane → Nat → Nat → Nat := fun q x y => min (memRead s.mem (sampAddr q n x y) n) (2 ^ bd - 1)
    ∃ t, exec .decodeColor s = .next t ∧ codeOf t = 0 ∧
      ∀ x y, x < pl.copyW → y < pl.copyH →
        let cx : Nat := min (x / 2 ^ xsh) ((s.frm.width.toNat + xsh) / 2 ^ xsh - 1)
        let cy : Nat := min (y / 2 ^ ysh) ((s.frm.height.toNat + ysh) / 2 ^ ysh - 1)
        let yc : Nat := code s.yPlane x y
        let uc : Nat := code uPl cx cy
        let vc : Nat := code vPl cx cy
        let yv := lumaEntry m bd full yc
        let uv := chromaEntry p bd full (decide (mc = 0)) uc
        let vv := chromaEntry p bd full (decide (mc = 0)) vc
        let top : Nat := if mc = 16 then 2 ^ (bd - 2) - 1 else 2 ^ (bd - 1) - 1
        let cg : Int := (uc : Int) - 2 ^ (bd - 1)
        let co : Int := (vc : Int) - 2 ^ (bd - 1)
        let gi : Int := max 0 (min (top : Int) ((yc : Int) - cg / 2 + cg))
        let bi : Int := max 0 (min (top : Int) ((yc : Int) - cg / 2 - co / 2))
        let ri : Int := max 0 (min (top : Int) (bi + co))
        let pixel : Rgb :=
          if mono then ⟨yv, yv, yv⟩
          else if mc = 0 then ⟨vv, yv, uv⟩
          else if mc = 8 then ⟨numAdd m (numSub m yv uv) vv, numAdd m yv uv, numSub m (numSub m yv uv) vv⟩
          else if mc = 16 ∨ mc = 17 then
            ⟨numDiv m (numOf ri.toNat) (numOf top), numDiv m (numOf gi.toNat) (numOf top),
             numDiv m (numOf bi.toNat) (numOf top)⟩
          else
            ⟨numAdd m yv (numMul m (numMul m (numOf 2) (numSub m (numOf 1) k.kr)) vv),
             numSub m yv (numDiv m (numMul m (numOf 2)
               (numAdd m (numMul m (numMul m k.kr (numSub m (numOf 1) k.kr)) vv)
                 (numMul m (numMul m k.kb (numSub m (numOf 1) k.kb)) uv))) k.kg),
             numAdd m yv (numMul m (numMul m (numOf 2) (numSub m (numOf 1) k.kb)) uv)⟩
        t.lut.luma[yc]? = some yv ∧
        (mono = false → t.lut.chroma[uc]? = some uv ∧ t.lut.chroma[vc]? = some vv) ∧
        memRead t.mem (channelAddr s.surf (pl.x0 + x) (pl.y0 + y) .r) elem = stored pixel.r ∧
        memRead t.mem (channelAddr s.surf (pl.x0 + x) (pl.y0 + y) .g) elem = stored pixel.g ∧
        memRead t.mem (channelAddr s.surf (pl.x0 + x) (pl.y0 + y) .b) elem = stored pixel.b

/-- 45_decoder.md rules R238, R240, 20_memory.md rules R75, R76, 46_tile_assembly.md rules R270, R272: DECODE_ALPHA, its
checks passed, completes; each alpha element of the placement rectangle holds the quantised luma entry of its saturated
sample; the tables, `STATUS.CODE` and on a first tile bank 1 are written, and nothing else. The addresses of the alpha
elements and of the samples are written out. -/
def Obligations.DecodeAlphaResult : Prop :=
  ∀ s : State, memWf s.mem = true → decodeAlphaVerdict Config.params s = none →
    let p := Config.params
    let fmt : Nat := s.surf.fmt.toNat % 2 ^ 2
    let elem : Nat := if fmt = 0 then 1 else if fmt = 1 then 2 else 4
    let stored : Sys2Proof.Num → Nat := fun c =>
      if fmt = 0 then quant p.num c 255 else if fmt = 1 then quant p.num c 65535
      else (enc32 (if c < 0 then 0 else if 1 < c then 1 else c)).toNat
    let alphaOffset : Nat := if fmt = 0 then 3 else if fmt = 1 then 6 else 12
    let pl := placement s
    let bd : Nat := s.frm.fmt.toNat % 2 ^ 5
    let full := s.frm.cicp.getLsbD 24
    let n : Nat := if bd = 8 then 1 else 2
    let cls : Nat := if s.frm.fmt.getLsbD 10 then 1
      else if s.frm.fmt.getLsbD 8 then (if s.frm.fmt.getLsbD 9 then 2 else 3)
      else (if s.frm.fmt.getLsbD 9 then 5 else 4)
    ∃ m : Memory,
      exec .decodeAlpha s = .next { s with
        mem := m
        status := withCode s.status 0x00
        lut := buildTables p bd true false full
        lutCur := BitVec.ofNat 32 bd ||| 0x100 ||| (if full then 0x400 else 0) ||| 0x80000000
        ts1 := if s.tile = 0 then
            { expW := if s.ts1.expW = 0 ∨ s.ts1.expH = 0 then s.frm.width else s.ts1.expW
              expH := if s.ts1.expW = 0 ∨ s.ts1.expH = 0 then s.frm.height else s.ts1.expH
              info := (s.ts1.info &&& 0xFFFCF8E0) ||| BitVec.ofNat 32 bd |||
                BitVec.ofNat 32 (cls * 2 ^ 8) ||| 0x10000 |||
                (if s.cm.getLsbD 31 then 0 else 0x20000)
              cicp := if s.cm.getLsbD 31 then 0 else s.frm.cicp &&& 0x01FFFFFF }
          else s.ts1 } ∧
      (∀ i, (buildTables p bd true false full).luma[i]? =
        if i < 2 ^ bd then some (lumaEntry p.num bd full i) else none) ∧
      (buildTables p bd true false full).chroma = [] ∧
      memWf m = true ∧
      (∀ x y, x < pl.copyW → y < pl.copyH →
        channelAddr s.surf (pl.x0 + x) (pl.y0 + y) .a =
          s.surf.base.toNat + (pl.y0 + y) * s.surf.stride.toNat + (pl.x0 + x) * (4 * elem) + alphaOffset ∧
        sampAddr s.yPlane n x y = s.yPlane.base.toNat + y * s.yPlane.stride.toNat + x * n ∧
        memRead m (channelAddr s.surf (pl.x0 + x) (pl.y0 + y) .a) elem =
          stored (lumaEntry p.num bd full (min (memRead s.mem (sampAddr s.yPlane n x y) n) (2 ^ bd - 1)))) ∧
      ∀ a, ¬ isPlacedByte s .a a → memByte m a = memByte s.mem a

/-- 45_decoder.md rule R241 (a): every address a decode touches lies inside an extent its checks approved, below `2^AW`
and outside the register window. -/
def Obligations.DecodeStaysInside : Prop :=
  ∀ s : State,
    let p := Config.params
    let fm := frameFormat s.frm.fmt
    let n := bps fm.depth
    let f := pixelFormat s.surf.fmt
    let pl := placement s
    let clear : Nat → Nat → Prop := fun a k =>
      0 < a ∧ a + k ≤ 2 ^ 32 ∧ (a + k ≤ p.cmcBase ∨ p.cmcBase + 4096 ≤ a)
    (decodeColorVerdict p s = none ∨ decodeAlphaVerdict p s = none →
      ∀ x y, x < pl.copyW → y < pl.copyH →
        s.yPlane.base.toNat ≤ sampAddr s.yPlane n x y ∧
        sampAddr s.yPlane n x y + n ≤
          s.yPlane.base.toNat + (s.frm.height.toNat - 1) * s.yPlane.stride.toNat + s.frm.width.toNat * n ∧
        clear (sampAddr s.yPlane n x y) n ∧
        ∀ c : Channel,
          s.surf.base.toNat ≤ channelAddr s.surf (pl.x0 + x) (pl.y0 + y) c ∧
          channelAddr s.surf (pl.x0 + x) (pl.y0 + y) c + channelBytes f ≤
            s.surf.base.toNat + (s.surf.height.toNat - 1) * s.surf.stride.toNat + s.surf.width.toNat * bpp f ∧
          clear (channelAddr s.surf (pl.x0 + x) (pl.y0 + y) c) (channelBytes f)) ∧
    (decodeColorVerdict p s = none → fm.mono = false →
      ∀ x y, x < pl.copyW → y < pl.copyH → ∀ q ∈ [decodeUPlane s, decodeVPlane s],
        q.base.toNat ≤ sampAddr q n (cidx s x y).1 (cidx s x y).2 ∧
        sampAddr q n (cidx s x y).1 (cidx s x y).2 + n ≤
          q.base.toNat + (decChromaH s - 1) * q.stride.toNat + decChromaW s * n ∧
        clear (sampAddr q n (cidx s x y).1 (cidx s x y).2) n)

/-- 45_decoder.md rule R234, 10_state.md rule R39: a fetched code is saturated to the largest code of its depth, so it
indexes an entry that the same command has built. -/
def Obligations.FetchedCodesAreBuilt : Prop :=
  ∀ (p : Params) (s : State) (x y : Nat),
    let f := frameFormat s.frm.fmt
    fetchY s x y = min (memRead s.mem (sampAddr s.yPlane (bps f.depth) x y) (bps f.depth)) (2 ^ f.depth - 1) ∧
    fetchY s x y < (colourTables p s).luma.length ∧ fetchY s x y < (alphaTables p s).luma.length ∧
    (f.mono = false →
      fetchU s x y < (colourTables p s).chroma.length ∧ fetchV s x y < (colourTables p s).chroma.length)

/-- 45_decoder.md rule R241 (c), (d), 42_lut_builder.md rule R177: a decode that succeeds does so, with the same results,
whatever coefficients and tables earlier commands left; and decoding the same frame a second time writes the same bytes:
from the state the first decode leaves, the second leaves memory, and every register and table, as they are. -/
def Obligations.DecodeIgnoresEarlierTables : Prop :=
  ∀ (s t : State) (k : Coefs) (l : LutMem) (cur : Word),
    (exec .decodeColor s = .next t → codeOf t = 0 →
      exec .decodeColor { s with coefs := k, lut := l, lutCur := cur } = .next t) ∧
    (exec .decodeAlpha s = .next t → codeOf t = 0 →
      exec .decodeAlpha { s with coefs := k, lut := l, lutCur := cur } = .next { t with coefs := k }) ∧
    (memWf s.mem = true → codeOf t = 0 →
      (exec .decodeColor s = .next t → exec .decodeColor t = .next t) ∧
      (exec .decodeAlpha s = .next t → exec .decodeAlpha t = .next t))

/-- 20_memory.md rule R76: `UVSWAP` exchanges the register pairs of the U and V samples; a frame with both exchanged
decodes to the same memory. -/
def Obligations.UvSwapExchangesPlanes : Prop :=
  ∀ s t : State, exec .decodeColor s = .next t → codeOf t = 0 →
    ∃ u, exec .decodeColor { s with
        uPlane := s.vPlane, vPlane := s.uPlane
        frm := { s.frm with fmt := s.frm.fmt ^^^ 0x800 } } = .next u ∧
      u.mem = t.mem ∧ u.lut = t.lut ∧ u.ts0 = t.ts0 ∧ u.coefs = t.coefs ∧ u.status = t.status

/-- 41_color_matrix.md rule R161, 95_test_vectors.md property L1-1: a surface encoded with the Identity model in 4:4:4 and
decoded again, to any `BGRA8` surface of its size, has the colour bytes of the original. Between the two commands the
host may point the surface registers elsewhere and change `CM`, and it sets `TILE` and `DEC_CTRL` to 0. -/
def Obligations.IdentityRoundTrip : Prop :=
  ∀ (s t : State) (f : Surface) (c : Word),
    memWf s.mem = true → s.cm.toNat / 2 ^ 16 % 2 ^ 8 = 0 → s.encCtrl.toNat % 2 ^ 3 = 3 →
    encodeColorVerdict Config.params s = none → exec .encodeColor s = .next t →
    f.width = s.surf.width → f.height = s.surf.height → f.fmt.toNat % 2 ^ 2 = 0 →
    (c.getLsbD 31 = true → c.toNat / 2 ^ 16 % 2 ^ 8 = 0 ∧ c.getLsbD 24 = true) →
    let u : State := { t with surf := f, cm := c, tile := 0, decCtrl := 0 }
    decodeColorVerdict Config.params u = none →
    ∃ v, exec .decodeColor u = .next v ∧
      ∀ x y, x < s.surf.width.toNat → y < s.surf.height.toNat → ∀ ch ∈ [Channel.b, .g, .r],
        memByte v.mem (channelAddr f x y ch) = memByte s.mem (channelAddr s.surf x y ch)

/-- 44_encoder.md rule R207, 95_test_vectors.md property L1-8: alpha bytes encoded and decoded again, to any `BGRA8` surface
of the same size, are unchanged. Between the two commands the host may point the surface registers elsewhere and change
`CM`, and it sets `TILE` and `DEC_CTRL` to 0. -/
def Obligations.AlphaRoundTrip : Prop :=
  ∀ (s t : State) (f : Surface) (c : Word),
    memWf s.mem = true → encodeAlphaVerdict Config.params s = none → exec .encodeAlpha s = .next t →
    f.width = s.surf.width → f.height = s.surf.height → f.fmt.toNat % 2 ^ 2 = 0 →
    let u : State := { t with surf := f, cm := c, tile := 0, decCtrl := 0 }
    decodeAlphaVerdict Config.params u = none →
    ∃ v, exec .decodeAlpha u = .next v ∧
      ∀ x y, x < s.surf.width.toNat → y < s.surf.height.toNat →
        memByte v.mem (channelAddr f x y .a) = memByte s.mem (channelAddr s.surf x y .a)

/-! ## Tiles -/

/-- 46_tile_assembly.md rules R270 to R273: TILE_VALIDATE of the first tile records it in its bank, its class by `MONO`,
`XSH` and `YSH`, whatever the bank holds, and changes nothing else but `STATUS.CODE`. -/
def Obligations.TileValidateRecordsFirstTile : Prop :=
  ∀ (b : Bank) (s : State), s.frm.width ≠ 0 → s.frm.height ≠ 0 → s.tile = 0 →
    let cls : Nat := if s.frm.fmt.getLsbD 10 then 1
      else if s.frm.fmt.getLsbD 8 then (if s.frm.fmt.getLsbD 9 then 2 else 3)
      else (if s.frm.fmt.getLsbD 9 then 5 else 4)
    let old := if b = 0#1 then s.ts0 else s.ts1
    let new : TileBank :=
      { expW := if old.expW = 0 ∨ old.expH = 0 then s.frm.width else old.expW
        expH := if old.expW = 0 ∨ old.expH = 0 then s.frm.height else old.expH
        info := (old.info &&& 0xFFFCF8E0) ||| (s.frm.fmt &&& 0x1F) |||
          BitVec.ofNat 32 (cls * 2 ^ 8) ||| 0x10000 |||
          (if s.cm.getLsbD 31 then 0 else 0x20000)
        cicp := if s.cm.getLsbD 31 then 0 else s.frm.cicp &&& 0x01FFFFFF }
    exec (.tileValidate b) s = .next
      (if b = 0#1 then { s with status := withCode s.status 0x00, ts0 := new }
       else { s with status := withCode s.status 0x00, ts1 := new })

/-- 46_tile_assembly.md rules R270, R272, R273, R277: TILE_VALIDATE of a later tile changes `STATUS.CODE` only: to 0x06 where
depth or class differs from the bank's record, else to 0x07 where the bank is authoritative and any field of the colour
model differs, else to 0; and to 0x41 where a dimension is 0. -/
def Obligations.TileValidateComparesLaterTile : Prop :=
  ∀ (b : Bank) (s : State),
    let cls : Nat := if s.frm.fmt.getLsbD 10 then 1
      else if s.frm.fmt.getLsbD 8 then (if s.frm.fmt.getLsbD 9 then 2 else 3)
      else (if s.frm.fmt.getLsbD 9 then 5 else 4)
    let old := if b = 0#1 then s.ts0 else s.ts1
    (s.frm.width = 0 ∨ s.frm.height = 0 →
      exec (.tileValidate b) s = .next { s with status := withCode s.status 0x41 }) ∧
    (s.frm.width ≠ 0 → s.frm.height ≠ 0 → s.tile ≠ 0 →
      exec (.tileValidate b) s = .next { s with
        status := withCode s.status (if s.frm.fmt.toNat % 2 ^ 5 ≠ old.info.toNat % 2 ^ 5 ∨
            cls ≠ old.info.toNat / 2 ^ 8 % 2 ^ 3 then 0x06
          else if old.info.getLsbD 17 = true ∧ s.frm.cicp.toNat % 2 ^ 25 ≠ old.cicp.toNat % 2 ^ 25 then 0x07
          else 0x00) })

/-- 70_reset_and_hazards.md rule R322: after TILE_RESET of a bank, a tile other than the first fails with
TileFormatMismatch in that bank, since no frame has class 0: in TILE_VALIDATE of a frame that is not empty, and in the
decode of the bank where every check before tile validation passes, that is, where the decode would pass with `TILE` 0. -/
def Obligations.FirstTileFirst : Prop :=
  ∀ (b : Bank) (s t : State), exec (.tileReset b) s = .next t → s.tile ≠ 0 →
    (s.frm.width ≠ 0 → s.frm.height ≠ 0 →
      exec (.tileValidate b) t = .next { t with status := withCode t.status 0x06 }) ∧
    (b = 0#1 → decodeColorVerdict Config.params { t with tile := 0 } = none →
      exec .decodeColor t = .next { t with status := withCode t.status 0x06 }) ∧
    (b = 1#1 → decodeAlphaVerdict Config.params { t with tile := 0 } = none →
      exec .decodeAlpha t = .next { t with status := withCode t.status 0x06 })

/-- 46_tile_assembly.md rule R274: TILE_RESET clears its bank and changes nothing else but `STATUS.CODE`. -/
def Obligations.TileResetClearsBank : Prop :=
  encode (.tileReset 0#1) = 0x00000008 ∧ encode (.tileReset 1#1) = 0x00000108 ∧
  ∀ (b : Bank) (s : State),
    exec (.tileReset b) s = .next
      (if b = 0#1 then { s with status := withCode s.status 0x00, ts0 := ⟨0, 0, 0, 0⟩ }
       else { s with status := withCode s.status 0x00, ts1 := ⟨0, 0, 0, 0⟩ })

/-- 46_tile_assembly.md rule R275: the placement rectangle, that it lies in the surface, and the rule's example. -/
def Obligations.PlacementRectangle : Prop :=
  ∀ s : State,
    let pl := placement s
    pl.x0 = s.tile.toNat % 2 ^ 16 * s.frm.width.toNat ∧
    pl.y0 = s.tile.toNat / 2 ^ 16 % 2 ^ 16 * s.frm.height.toNat ∧
    (pl.copyW : Int) = min (s.frm.width.toNat : Int) (max 0 ((s.surf.width.toNat : Int) - pl.x0)) ∧
    (pl.copyH : Int) = min (s.frm.height.toNat : Int) (max 0 ((s.surf.height.toNat : Int) - pl.y0)) ∧
    (∀ x, x < pl.copyW → x < s.frm.width.toNat ∧ pl.x0 + x < s.surf.width.toNat) ∧
    ∀ y, y < pl.copyH → y < s.frm.height.toNat ∧ pl.y0 + y < s.surf.height.toNat

/-! ## Invariant -/

/-- The invariant holds after reset. -/
def Obligations.InvariantAtReset : Prop := Inv State.reset

/-- Every step keeps the invariant: canonical memory, reserved bits 0, a legal status code and matrix class, coefficients
that divide by no zero, `LUT_CUR` telling what the tables hold, legal tile-state banks. -/
def Obligations.StepKeepsInvariant : Prop :=
  ∀ s t : State, Inv s → step s = .next t → Inv t

end
end

