-- ==== Sys2Proof/Laws/Fields.lean ====
section
/-! SUPPORT. Fields of register words, bit by bit: what a field is, and what writing one leaves. -/

namespace Sys2Proof.Machine

/-- The bits of a field's mask. -/
theorem getLsbD_fieldMask {hi lo i : Nat} (h : hi < 32) :
    (fieldMask hi lo).getLsbD i = decide (lo ≤ i ∧ i ≤ hi) := by
  simp only [fieldMask, BitVec.getLsbD_ofNat, Nat.testBit_mul_two_pow, Nat.testBit_two_pow_sub_one]
  by_cases h1 : lo ≤ i <;> by_cases h2 : i ≤ hi <;> simp [h1, h2] <;> omega

/-- Writing a field writes its bits and leaves the others (00_scope.md rule R11). -/
theorem getLsbD_setField {w : Word} {hi lo v i : Nat} (h : hi < 32) :
    (setField w hi lo v).getLsbD i = if lo ≤ i ∧ i ≤ hi then v.testBit (i - lo) else w.getLsbD i := by
  have hm := getLsbD_fieldMask (i := i) (lo := lo) h
  simp only [setField, BitVec.getLsbD_or, BitVec.getLsbD_and, BitVec.getLsbD_not, BitVec.getLsbD_ofNat,
    Nat.testBit_mul_two_pow, hm]
  by_cases h3 : lo ≤ i ∧ i ≤ hi
  · have h4 : i < 32 := by omega
    simp [h3, h4]
  · by_cases h4 : i < 32
    · simp [h3, h4]
    · simp [h3, h4]
      exact BitVec.getLsbD_of_ge w i (by omega)

/-- The bits of a field. -/
theorem testBit_getField {w : Word} {hi lo i : Nat} :
    (getField w hi lo).testBit i = (decide (i < hi + 1 - lo) && w.getLsbD (i + lo)) := by
  simp only [getField, Nat.testBit_mod_two_pow, Nat.testBit_div_two_pow, BitVec.testBit_toNat]

/-- A field is below the power of two of its width. -/
theorem getField_lt (w : Word) (hi lo : Nat) : getField w hi lo < 2 ^ (hi + 1 - lo) :=
  Nat.mod_lt _ (Nat.two_pow_pos _)

/-- A field just written holds the value written, cut to its width. -/
theorem getField_setField_self {w : Word} {hi lo v : Nat} (h : hi < 32) :
    getField (setField w hi lo v) hi lo = v % 2 ^ (hi + 1 - lo) := by
  apply Nat.eq_of_testBit_eq
  intro i
  rw [testBit_getField, Nat.testBit_mod_two_pow, getLsbD_setField h]
  by_cases h1 : i < hi + 1 - lo
  · have h2 : lo ≤ i + lo ∧ i + lo ≤ hi := by omega
    simp [h1, h2]
  · simp [h1]

/-- A field apart from the one written keeps its value. -/
theorem getField_setField_apart {w : Word} {hi lo hi' lo' v : Nat} (h : hi < 32) (ha : hi' < lo ∨ hi < lo') :
    getField (setField w hi lo v) hi' lo' = getField w hi' lo' := by
  apply Nat.eq_of_testBit_eq
  intro i
  rw [testBit_getField, testBit_getField, getLsbD_setField h]
  by_cases h1 : i < hi' + 1 - lo'
  · have h2 : ¬ (lo ≤ i + lo' ∧ i + lo' ≤ hi) := by omega
    simp [h1, h2]
  · simp [h1]

/-- A bit apart from the field written keeps its value. -/
theorem getBit_setField_apart {w : Word} {hi lo v i : Nat} (h : hi < 32) (ha : i < lo ∨ hi < i) :
    getBit (setField w hi lo v) i = getBit w i := by
  have h2 : ¬ (lo ≤ i ∧ i ≤ hi) := by omega
  rw [getBit, getLsbD_setField h, if_neg h2, getBit]

/-- `STATUS.CODE` after it is written (10_state.md rule R24). -/
theorem statusWithCode_code (w : Word) (c : Status) : getField (statusWithCode w c) 7 0 = statusCode c := by
  rw [statusWithCode, getField_setField_self (by omega)]
  cases c <;> rfl

end Sys2Proof.Machine
end

