-- ==== Sys2Proof/Laws/Memory.lean ====
section
/-! SUPPORT. The laws of system memory: every operation keeps the canonical form; reading after writing; frames. -/

namespace Sys2Proof.Machine

/-! ## The canonical form -/

theorem memWfFrom_mono {lo lo' : Nat} (h : lo' ≤ lo) {m : Memory} (hm : memWfFrom lo m = true) :
    memWfFrom lo' m = true := by
  cases m with
  | nil => rfl
  | cons c rest =>
    obtain ⟨k, v⟩ := c
    simp only [memWfFrom, Bool.and_eq_true, decide_eq_true_eq] at hm ⊢
    exact ⟨⟨⟨by omega, hm.1.1.2⟩, hm.1.2⟩, hm.2⟩

/-- An address below every listed one reads as unlisted. -/
theorem memByte_below {lo a : Nat} {m : Memory} (hm : memWfFrom lo m = true) (h : a < lo) :
    memByte m a = unlistedByte := by
  induction m generalizing lo with
  | nil => rfl
  | cons c rest ih =>
    obtain ⟨k, v⟩ := c
    simp only [memWfFrom, Bool.and_eq_true, decide_eq_true_eq] at hm
    have hk : k ≠ a := by omega
    simp only [memByte, hk, if_false]
    exact ih hm.2 (by omega)

theorem memPut_wfFrom {lo a : Nat} {b : Byte} {m : Memory} (hm : memWfFrom lo m = true) (hlo : lo ≤ a)
    (ha : a < 2 ^ 32) : memWfFrom lo (memPut m a b) = true := by
  induction m generalizing lo with
  | nil =>
    by_cases hb : b = unlistedByte
    · simp [memPut, memWfFrom, hb]
    · simp [memPut, memWfFrom, hb, hlo]
      omega
  | cons c rest ih =>
    obtain ⟨k, v⟩ := c
    have hm' := hm
    simp only [memWfFrom, Bool.and_eq_true, decide_eq_true_eq] at hm'
    obtain ⟨⟨⟨h1, h2⟩, h3⟩, h4⟩ := hm'
    unfold memPut
    split
    · split
      · exact hm
      · rename_i hak hb
        simp only [memWfFrom, Bool.and_eq_true, decide_eq_true_eq]
        exact ⟨⟨⟨hlo, ha⟩, hb⟩, ⟨⟨by omega, h2⟩, h3⟩, h4⟩
    · split
      · rename_i hak
        subst hak
        split
        · exact memWfFrom_mono (by omega) h4
        · rename_i hb
          simp only [memWfFrom, Bool.and_eq_true, decide_eq_true_eq]
          exact ⟨⟨⟨h1, h2⟩, hb⟩, h4⟩
      · simp only [memWfFrom, Bool.and_eq_true, decide_eq_true_eq]
        exact ⟨⟨⟨h1, h2⟩, h3⟩, ih h4 (by omega)⟩

/-- Writing a byte below `2^AW` keeps the canonical form. -/
theorem memPut_wf {a : Nat} {b : Byte} {m : Memory} (hm : memWf m = true) (ha : a < 2 ^ 32) :
    memWf (memPut m a b) = true :=
  memPut_wfFrom hm (Nat.zero_le a) ha

/-- Reading after writing one byte, in canonical memory. -/
theorem memByte_memPut {lo a a' : Nat} {b : Byte} {m : Memory} (hm : memWfFrom lo m = true) :
    memByte (memPut m a b) a' = if a' = a then b else memByte m a' := by
  induction m generalizing lo with
  | nil =>
    by_cases hb : b = unlistedByte <;> by_cases h : a' = a <;>
      simp [memPut, memByte, hb, h, eq_comm]
    intro h'
    exact absurd h'.symm h
  | cons c rest ih =>
    obtain ⟨k, v⟩ := c
    have hm' := hm
    simp only [memWfFrom, Bool.and_eq_true, decide_eq_true_eq] at hm'
    obtain ⟨⟨⟨h1, h2⟩, h3⟩, h4⟩ := hm'
    have below : ∀ x, x < k → memByte ((k, v) :: rest) x = unlistedByte := fun x hx =>
      memByte_below (lo := k) (m := (k, v) :: rest)
        (by simp only [memWfFrom, Bool.and_eq_true, decide_eq_true_eq]; exact ⟨⟨⟨Nat.le_refl k, h2⟩, h3⟩, h4⟩) hx
    unfold memPut
    split
    · rename_i hak
      split
      · rename_i hb
        split
        · rename_i h
          rw [h, below a hak, hb]
        · rfl
      · by_cases h : a' = a
        · simp [memByte, h]
        · have h' : a ≠ a' := fun e => h e.symm
          simp [memByte, h, h']
    · split
      · rename_i hak
        subst hak
        split
        · rename_i hb
          by_cases h : a' = a
          · subst h
            simp only [if_true, hb]
            exact memByte_below h4 (by omega)
          · have h' : a ≠ a' := fun e => h e.symm
            simp [memByte, h, h']
        · by_cases h : a' = a
          · simp [memByte, h]
          · have h' : a ≠ a' := fun e => h e.symm
            simp [memByte, h, h']
      · rename_i h5 h6
        by_cases h : k = a'
        · subst h
          have : k ≠ a := fun e => h6 e.symm
          simp [memByte, this]
        · simp only [memByte, h, if_false]
          exact ih h4

/-- A byte write leaves every other address alone. -/
theorem memByte_memPut_of_ne {a a' : Nat} {b : Byte} {m : Memory} (hm : memWf m = true) (h : a' ≠ a) :
    memByte (memPut m a b) a' = memByte m a' := by
  rw [memByte_memPut (lo := 0) hm, if_neg h]

/-! ## Elements -/

theorem memWrite_wf {n a v : Nat} {m : Memory} (hm : memWf m = true) (ha : a + n ≤ 2 ^ 32) :
    memWf (memWrite m a n v) = true := by
  induction n generalizing m a v with
  | zero => exact hm
  | succ n ih => exact ih (memPut_wf hm (by omega)) (by omega)

/-- What `MemWrite` leaves at every address: the element's bytes, the least significant first, and the rest as before
(00_scope.md rule R10, 20_memory.md rule R72). -/
theorem memByte_memWrite {n a v a' : Nat} {m : Memory} (hm : memWf m = true) (ha : a + n ≤ 2 ^ 32) :
    memByte (memWrite m a n v) a' =
      if a ≤ a' ∧ a' < a + n then BitVec.ofNat 8 (v / 256 ^ (a' - a)) else memByte m a' := by
  induction n generalizing m a v with
  | zero =>
    simp [memWrite]
  | succ n ih =>
    have h1 := ih (m := memPut m a (BitVec.ofNat 8 v)) (a := a + 1) (v := v / 256)
      (memPut_wf hm (by omega)) (by omega)
    simp only [memWrite]
    rw [h1, memByte_memPut (lo := 0) hm]
    by_cases h : a' = a
    · subst h
      have e2 : a' ≤ a' ∧ a' < a' + (n + 1) := by omega
      simp [e2]
    · by_cases h2 : a + 1 ≤ a' ∧ a' < a + 1 + n
      · have e2 : a ≤ a' ∧ a' < a + (n + 1) := by omega
        have e3 : a' - a = (a' - (a + 1)) + 1 := by omega
        rw [if_pos h2, if_pos e2, e3, Nat.pow_succ, Nat.mul_comm, Nat.div_div_eq_div_mul]
      · have e2 : ¬ (a ≤ a' ∧ a' < a + (n + 1)) := by omega
        rw [if_neg h2, if_neg e2, if_neg h]

theorem memRead_congr {n a : Nat} {m m' : Memory}
    (h : ∀ x, a ≤ x → x < a + n → memByte m x = memByte m' x) : memRead m a n = memRead m' a n := by
  induction n generalizing a with
  | zero => rfl
  | succ n ih =>
    simp only [memRead]
    rw [h a (by omega) (by omega), ih fun x h1 h2 => h x (by omega) (by omega)]

/-- The element read is the number its bytes make, the least significant first. -/
theorem memRead_of_bytes {n a v : Nat} {m : Memory}
    (h : ∀ i, i < n → memByte m (a + i) = BitVec.ofNat 8 (v / 256 ^ i)) : memRead m a n = v % 256 ^ n := by
  induction n generalizing a v with
  | zero => simp [memRead, Nat.mod_one]
  | succ n ih =>
    have h0 := h 0 (by omega)
    have h1 : memRead m (a + 1) n = v / 256 % 256 ^ n := by
      apply ih
      intro i hi
      have := h (i + 1) (by omega)
      rw [Nat.pow_succ, Nat.mul_comm, ← Nat.div_div_eq_div_mul] at this
      rw [← this]
      congr 1
      omega
    simp only [memRead, Nat.add_zero, Nat.pow_zero, Nat.div_one] at h0 ⊢
    have e : v % 256 ^ (n + 1) = v % 256 + 256 * (v / 256 % 256 ^ n) := by rw [Nat.pow_succ', Nat.mod_mul]
    rw [h0, h1, BitVec.toNat_ofNat, e]

/-- Reading an element just written gives the low `8n` bits written. -/
theorem memRead_memWrite {n a v : Nat} {m : Memory} (hm : memWf m = true) (ha : a + n ≤ 2 ^ 32) :
    memRead (memWrite m a n v) a n = v % 256 ^ n := by
  apply memRead_of_bytes
  intro i hi
  rw [memByte_memWrite hm ha, if_pos (by omega)]
  congr 2
  congr 1
  omega

theorem memRead_lt {n a : Nat} {m : Memory} : memRead m a n < 256 ^ n := by
  induction n generalizing a with
  | zero => simp [memRead]
  | succ n ih =>
    have h1 := ih (a := a + 1)
    have h2 := (memByte m a).isLt
    simp only [memRead, Nat.pow_succ]
    omega

theorem memBytesWrite_wf {bs : List Byte} {a : Nat} {m : Memory} (hm : memWf m = true)
    (ha : a + bs.length ≤ 2 ^ 32) : memWf (memBytesWrite m a bs) = true := by
  induction bs generalizing m a with
  | nil => exact hm
  | cons b rest ih =>
    simp only [List.length_cons] at ha
    exact ih (memPut_wf hm (by omega)) (by omega)

/-! ## The elements a command writes -/

/-- Every element lies below `2^AW`. -/
def storesInRange (st : List Store) : Prop := ∀ e ∈ st, e.addr + e.size ≤ 2 ^ 32

theorem memStores_nil (m : Memory) : memStores m [] = m := rfl

theorem memStores_cons (m : Memory) (e : Store) (st : List Store) :
    memStores m (e :: st) = memStores (memWrite m e.addr e.size e.value) st := rfl

theorem memStores_wf {st : List Store} {m : Memory} (hm : memWf m = true) (hs : storesInRange st) :
    memWf (memStores m st) = true := by
  induction st generalizing m with
  | nil => exact hm
  | cons e rest ih =>
    exact ih (memWrite_wf hm (hs e (by simp))) fun e' h => hs e' (by simp [h])

/-- An address that no element covers reads as before. -/
theorem memByte_memStores_frame {st : List Store} {m : Memory} {a : Nat} (hm : memWf m = true)
    (hs : storesInRange st) (h : ∀ e ∈ st, storeCovers e a = false) :
    memByte (memStores m st) a = memByte m a := by
  induction st generalizing m with
  | nil => rfl
  | cons e rest ih =>
    have he := hs e (by simp)
    rw [memStores_cons, ih (memWrite_wf hm he) (fun e' h' => hs e' (by simp [h'])) fun e' h' => h e' (by simp [h']),
      memByte_memWrite hm he, if_neg]
    have := h e (by simp)
    simp only [storeCovers, Bool.and_eq_false_iff, decide_eq_false_iff_not] at this
    omega

/-- Two elements share no byte. -/
def storesApart (e f : Store) : Prop := e.addr + e.size ≤ f.addr ∨ f.addr + f.size ≤ e.addr

/-- Where no two elements share a byte, every element is read back, whatever the order (20_memory.md rule R80). -/
theorem memRead_memStores {st : List Store} {m : Memory} {e : Store} (hm : memWf m = true)
    (hs : storesInRange st) (hd : st.Pairwise storesApart) (he : e ∈ st) :
    memRead (memStores m st) e.addr e.size = e.value % 256 ^ e.size := by
  induction st generalizing m with
  | nil => simp at he
  | cons f rest ih =>
    obtain ⟨hd1, hd2⟩ := List.pairwise_cons.mp hd
    have hf := hs f (by simp)
    have hr : storesInRange rest := fun e' h' => hs e' (by simp [h'])
    rw [memStores_cons]
    rcases List.mem_cons.mp he with rfl | he'
    · rw [← memRead_memWrite (m := m) (v := e.value) hm hf]
      apply memRead_congr
      intro x h1 h2
      apply memByte_memStores_frame (memWrite_wf hm hf) hr
      intro g hg
      have := hd1 g hg
      simp only [storesApart] at this
      simp only [storeCovers, Bool.and_eq_false_iff, decide_eq_false_iff_not]
      omega
    · exact ih (memWrite_wf hm hf) hr hd2 he'

/-- What `gridStores` lists. -/
theorem mem_gridStores {w h : Nat} {f : Nat → Nat → List Store} {e : Store} :
    e ∈ gridStores w h f ↔ ∃ x y, x < w ∧ y < h ∧ e ∈ f x y := by
  simp only [gridStores, List.mem_flatMap, List.mem_range]
  constructor
  · rintro ⟨y, hy, x, hx, he⟩
    exact ⟨x, y, hx, hy, he⟩
  · rintro ⟨x, y, hx, hy, he⟩
    exact ⟨y, hy, x, hx, he⟩

end Sys2Proof.Machine
end

