-- ==== Sys2Proof/Laws/State.lean ====
section
/-! SUPPORT. One lemma per field per update of State, true by rfl, so that no later proof unfolds a record update. -/

namespace Sys2Proof.Machine

variable (s : State)

/-! ## setStatus -/

@[simp] theorem setStatus_status (w : Word) : (setStatus s w).status = w := rfl
@[simp] theorem setStatus_cm (w : Word) : (setStatus s w).cm = s.cm := rfl
@[simp] theorem setStatus_coefs (w : Word) : (setStatus s w).coefs = s.coefs := rfl
@[simp] theorem setStatus_surf (w : Word) : (setStatus s w).surf = s.surf := rfl
@[simp] theorem setStatus_frm (w : Word) : (setStatus s w).frm = s.frm := rfl
@[simp] theorem setStatus_yPlane (w : Word) : (setStatus s w).yPlane = s.yPlane := rfl
@[simp] theorem setStatus_uPlane (w : Word) : (setStatus s w).uPlane = s.uPlane := rfl
@[simp] theorem setStatus_vPlane (w : Word) : (setStatus s w).vPlane = s.vPlane := rfl
@[simp] theorem setStatus_tile (w : Word) : (setStatus s w).tile = s.tile := rfl
@[simp] theorem setStatus_encCtrl (w : Word) : (setStatus s w).encCtrl = s.encCtrl := rfl
@[simp] theorem setStatus_decCtrl (w : Word) : (setStatus s w).decCtrl = s.decCtrl := rfl
@[simp] theorem setStatus_lutCfg (w : Word) : (setStatus s w).lutCfg = s.lutCfg := rfl
@[simp] theorem setStatus_lutAddr (w : Word) : (setStatus s w).lutAddr = s.lutAddr := rfl
@[simp] theorem setStatus_lutCur (w : Word) : (setStatus s w).lutCur = s.lutCur := rfl
@[simp] theorem setStatus_lut (w : Word) : (setStatus s w).lut = s.lut := rfl
@[simp] theorem setStatus_ts0 (w : Word) : (setStatus s w).ts0 = s.ts0 := rfl
@[simp] theorem setStatus_ts1 (w : Word) : (setStatus s w).ts1 = s.ts1 := rfl
@[simp] theorem setStatus_mem (w : Word) : (setStatus s w).mem = s.mem := rfl
@[simp] theorem setStatus_host (w : Word) : (setStatus s w).host = s.host := rfl
@[simp] theorem setStatus_hostReads (w : Word) : (setStatus s w).hostReads = s.hostReads := rfl
@[simp] theorem setStatus_freeCount (w : Word) : (setStatus s w).freeCount = s.freeCount := rfl

/-! ## setCoefs -/

@[simp] theorem setCoefs_status (k : Coefs) : (setCoefs s k).status = s.status := rfl
@[simp] theorem setCoefs_cm (k : Coefs) : (setCoefs s k).cm = s.cm := rfl
@[simp] theorem setCoefs_coefs (k : Coefs) : (setCoefs s k).coefs = k := rfl
@[simp] theorem setCoefs_surf (k : Coefs) : (setCoefs s k).surf = s.surf := rfl
@[simp] theorem setCoefs_frm (k : Coefs) : (setCoefs s k).frm = s.frm := rfl
@[simp] theorem setCoefs_yPlane (k : Coefs) : (setCoefs s k).yPlane = s.yPlane := rfl
@[simp] theorem setCoefs_uPlane (k : Coefs) : (setCoefs s k).uPlane = s.uPlane := rfl
@[simp] theorem setCoefs_vPlane (k : Coefs) : (setCoefs s k).vPlane = s.vPlane := rfl
@[simp] theorem setCoefs_tile (k : Coefs) : (setCoefs s k).tile = s.tile := rfl
@[simp] theorem setCoefs_encCtrl (k : Coefs) : (setCoefs s k).encCtrl = s.encCtrl := rfl
@[simp] theorem setCoefs_decCtrl (k : Coefs) : (setCoefs s k).decCtrl = s.decCtrl := rfl
@[simp] theorem setCoefs_lutCfg (k : Coefs) : (setCoefs s k).lutCfg = s.lutCfg := rfl
@[simp] theorem setCoefs_lutAddr (k : Coefs) : (setCoefs s k).lutAddr = s.lutAddr := rfl
@[simp] theorem setCoefs_lutCur (k : Coefs) : (setCoefs s k).lutCur = s.lutCur := rfl
@[simp] theorem setCoefs_lut (k : Coefs) : (setCoefs s k).lut = s.lut := rfl
@[simp] theorem setCoefs_ts0 (k : Coefs) : (setCoefs s k).ts0 = s.ts0 := rfl
@[simp] theorem setCoefs_ts1 (k : Coefs) : (setCoefs s k).ts1 = s.ts1 := rfl
@[simp] theorem setCoefs_mem (k : Coefs) : (setCoefs s k).mem = s.mem := rfl
@[simp] theorem setCoefs_host (k : Coefs) : (setCoefs s k).host = s.host := rfl
@[simp] theorem setCoefs_hostReads (k : Coefs) : (setCoefs s k).hostReads = s.hostReads := rfl
@[simp] theorem setCoefs_freeCount (k : Coefs) : (setCoefs s k).freeCount = s.freeCount := rfl

/-! ## setFrame -/

@[simp] theorem setFrame_status (f : Frame) : (setFrame s f).status = s.status := rfl
@[simp] theorem setFrame_cm (f : Frame) : (setFrame s f).cm = s.cm := rfl
@[simp] theorem setFrame_coefs (f : Frame) : (setFrame s f).coefs = s.coefs := rfl
@[simp] theorem setFrame_surf (f : Frame) : (setFrame s f).surf = s.surf := rfl
@[simp] theorem setFrame_frm (f : Frame) : (setFrame s f).frm = f := rfl
@[simp] theorem setFrame_yPlane (f : Frame) : (setFrame s f).yPlane = s.yPlane := rfl
@[simp] theorem setFrame_uPlane (f : Frame) : (setFrame s f).uPlane = s.uPlane := rfl
@[simp] theorem setFrame_vPlane (f : Frame) : (setFrame s f).vPlane = s.vPlane := rfl
@[simp] theorem setFrame_tile (f : Frame) : (setFrame s f).tile = s.tile := rfl
@[simp] theorem setFrame_encCtrl (f : Frame) : (setFrame s f).encCtrl = s.encCtrl := rfl
@[simp] theorem setFrame_decCtrl (f : Frame) : (setFrame s f).decCtrl = s.decCtrl := rfl
@[simp] theorem setFrame_lutCfg (f : Frame) : (setFrame s f).lutCfg = s.lutCfg := rfl
@[simp] theorem setFrame_lutAddr (f : Frame) : (setFrame s f).lutAddr = s.lutAddr := rfl
@[simp] theorem setFrame_lutCur (f : Frame) : (setFrame s f).lutCur = s.lutCur := rfl
@[simp] theorem setFrame_lut (f : Frame) : (setFrame s f).lut = s.lut := rfl
@[simp] theorem setFrame_ts0 (f : Frame) : (setFrame s f).ts0 = s.ts0 := rfl
@[simp] theorem setFrame_ts1 (f : Frame) : (setFrame s f).ts1 = s.ts1 := rfl
@[simp] theorem setFrame_mem (f : Frame) : (setFrame s f).mem = s.mem := rfl
@[simp] theorem setFrame_host (f : Frame) : (setFrame s f).host = s.host := rfl
@[simp] theorem setFrame_hostReads (f : Frame) : (setFrame s f).hostReads = s.hostReads := rfl
@[simp] theorem setFrame_freeCount (f : Frame) : (setFrame s f).freeCount = s.freeCount := rfl

/-! ## setLut -/

@[simp] theorem setLut_status (t : LutMem) (c : Word) : (setLut s t c).status = s.status := rfl
@[simp] theorem setLut_cm (t : LutMem) (c : Word) : (setLut s t c).cm = s.cm := rfl
@[simp] theorem setLut_coefs (t : LutMem) (c : Word) : (setLut s t c).coefs = s.coefs := rfl
@[simp] theorem setLut_surf (t : LutMem) (c : Word) : (setLut s t c).surf = s.surf := rfl
@[simp] theorem setLut_frm (t : LutMem) (c : Word) : (setLut s t c).frm = s.frm := rfl
@[simp] theorem setLut_yPlane (t : LutMem) (c : Word) : (setLut s t c).yPlane = s.yPlane := rfl
@[simp] theorem setLut_uPlane (t : LutMem) (c : Word) : (setLut s t c).uPlane = s.uPlane := rfl
@[simp] theorem setLut_vPlane (t : LutMem) (c : Word) : (setLut s t c).vPlane = s.vPlane := rfl
@[simp] theorem setLut_tile (t : LutMem) (c : Word) : (setLut s t c).tile = s.tile := rfl
@[simp] theorem setLut_encCtrl (t : LutMem) (c : Word) : (setLut s t c).encCtrl = s.encCtrl := rfl
@[simp] theorem setLut_decCtrl (t : LutMem) (c : Word) : (setLut s t c).decCtrl = s.decCtrl := rfl
@[simp] theorem setLut_lutCfg (t : LutMem) (c : Word) : (setLut s t c).lutCfg = s.lutCfg := rfl
@[simp] theorem setLut_lutAddr (t : LutMem) (c : Word) : (setLut s t c).lutAddr = s.lutAddr := rfl
@[simp] theorem setLut_lutCur (t : LutMem) (c : Word) : (setLut s t c).lutCur = c := rfl
@[simp] theorem setLut_lut (t : LutMem) (c : Word) : (setLut s t c).lut = t := rfl
@[simp] theorem setLut_ts0 (t : LutMem) (c : Word) : (setLut s t c).ts0 = s.ts0 := rfl
@[simp] theorem setLut_ts1 (t : LutMem) (c : Word) : (setLut s t c).ts1 = s.ts1 := rfl
@[simp] theorem setLut_mem (t : LutMem) (c : Word) : (setLut s t c).mem = s.mem := rfl
@[simp] theorem setLut_host (t : LutMem) (c : Word) : (setLut s t c).host = s.host := rfl
@[simp] theorem setLut_hostReads (t : LutMem) (c : Word) : (setLut s t c).hostReads = s.hostReads := rfl
@[simp] theorem setLut_freeCount (t : LutMem) (c : Word) : (setLut s t c).freeCount = s.freeCount := rfl

/-! ## setMem -/

@[simp] theorem setMem_status (m : Memory) : (setMem s m).status = s.status := rfl
@[simp] theorem setMem_cm (m : Memory) : (setMem s m).cm = s.cm := rfl
@[simp] theorem setMem_coefs (m : Memory) : (setMem s m).coefs = s.coefs := rfl
@[simp] theorem setMem_surf (m : Memory) : (setMem s m).surf = s.surf := rfl
@[simp] theorem setMem_frm (m : Memory) : (setMem s m).frm = s.frm := rfl
@[simp] theorem setMem_yPlane (m : Memory) : (setMem s m).yPlane = s.yPlane := rfl
@[simp] theorem setMem_uPlane (m : Memory) : (setMem s m).uPlane = s.uPlane := rfl
@[simp] theorem setMem_vPlane (m : Memory) : (setMem s m).vPlane = s.vPlane := rfl
@[simp] theorem setMem_tile (m : Memory) : (setMem s m).tile = s.tile := rfl
@[simp] theorem setMem_encCtrl (m : Memory) : (setMem s m).encCtrl = s.encCtrl := rfl
@[simp] theorem setMem_decCtrl (m : Memory) : (setMem s m).decCtrl = s.decCtrl := rfl
@[simp] theorem setMem_lutCfg (m : Memory) : (setMem s m).lutCfg = s.lutCfg := rfl
@[simp] theorem setMem_lutAddr (m : Memory) : (setMem s m).lutAddr = s.lutAddr := rfl
@[simp] theorem setMem_lutCur (m : Memory) : (setMem s m).lutCur = s.lutCur := rfl
@[simp] theorem setMem_lut (m : Memory) : (setMem s m).lut = s.lut := rfl
@[simp] theorem setMem_ts0 (m : Memory) : (setMem s m).ts0 = s.ts0 := rfl
@[simp] theorem setMem_ts1 (m : Memory) : (setMem s m).ts1 = s.ts1 := rfl
@[simp] theorem setMem_mem (m : Memory) : (setMem s m).mem = m := rfl
@[simp] theorem setMem_host (m : Memory) : (setMem s m).host = s.host := rfl
@[simp] theorem setMem_hostReads (m : Memory) : (setMem s m).hostReads = s.hostReads := rfl
@[simp] theorem setMem_freeCount (m : Memory) : (setMem s m).freeCount = s.freeCount := rfl

/-! ## setHost -/

@[simp] theorem setHost_status (q : List HostTx) : (setHost s q).status = s.status := rfl
@[simp] theorem setHost_cm (q : List HostTx) : (setHost s q).cm = s.cm := rfl
@[simp] theorem setHost_coefs (q : List HostTx) : (setHost s q).coefs = s.coefs := rfl
@[simp] theorem setHost_surf (q : List HostTx) : (setHost s q).surf = s.surf := rfl
@[simp] theorem setHost_frm (q : List HostTx) : (setHost s q).frm = s.frm := rfl
@[simp] theorem setHost_yPlane (q : List HostTx) : (setHost s q).yPlane = s.yPlane := rfl
@[simp] theorem setHost_uPlane (q : List HostTx) : (setHost s q).uPlane = s.uPlane := rfl
@[simp] theorem setHost_vPlane (q : List HostTx) : (setHost s q).vPlane = s.vPlane := rfl
@[simp] theorem setHost_tile (q : List HostTx) : (setHost s q).tile = s.tile := rfl
@[simp] theorem setHost_encCtrl (q : List HostTx) : (setHost s q).encCtrl = s.encCtrl := rfl
@[simp] theorem setHost_decCtrl (q : List HostTx) : (setHost s q).decCtrl = s.decCtrl := rfl
@[simp] theorem setHost_lutCfg (q : List HostTx) : (setHost s q).lutCfg = s.lutCfg := rfl
@[simp] theorem setHost_lutAddr (q : List HostTx) : (setHost s q).lutAddr = s.lutAddr := rfl
@[simp] theorem setHost_lutCur (q : List HostTx) : (setHost s q).lutCur = s.lutCur := rfl
@[simp] theorem setHost_lut (q : List HostTx) : (setHost s q).lut = s.lut := rfl
@[simp] theorem setHost_ts0 (q : List HostTx) : (setHost s q).ts0 = s.ts0 := rfl
@[simp] theorem setHost_ts1 (q : List HostTx) : (setHost s q).ts1 = s.ts1 := rfl
@[simp] theorem setHost_mem (q : List HostTx) : (setHost s q).mem = s.mem := rfl
@[simp] theorem setHost_host (q : List HostTx) : (setHost s q).host = q := rfl
@[simp] theorem setHost_hostReads (q : List HostTx) : (setHost s q).hostReads = s.hostReads := rfl
@[simp] theorem setHost_freeCount (q : List HostTx) : (setHost s q).freeCount = s.freeCount := rfl

/-! ## noteRead -/

@[simp] theorem noteRead_status (v : Word) : (noteRead s v).status = s.status := rfl
@[simp] theorem noteRead_cm (v : Word) : (noteRead s v).cm = s.cm := rfl
@[simp] theorem noteRead_coefs (v : Word) : (noteRead s v).coefs = s.coefs := rfl
@[simp] theorem noteRead_surf (v : Word) : (noteRead s v).surf = s.surf := rfl
@[simp] theorem noteRead_frm (v : Word) : (noteRead s v).frm = s.frm := rfl
@[simp] theorem noteRead_yPlane (v : Word) : (noteRead s v).yPlane = s.yPlane := rfl
@[simp] theorem noteRead_uPlane (v : Word) : (noteRead s v).uPlane = s.uPlane := rfl
@[simp] theorem noteRead_vPlane (v : Word) : (noteRead s v).vPlane = s.vPlane := rfl
@[simp] theorem noteRead_tile (v : Word) : (noteRead s v).tile = s.tile := rfl
@[simp] theorem noteRead_encCtrl (v : Word) : (noteRead s v).encCtrl = s.encCtrl := rfl
@[simp] theorem noteRead_decCtrl (v : Word) : (noteRead s v).decCtrl = s.decCtrl := rfl
@[simp] theorem noteRead_lutCfg (v : Word) : (noteRead s v).lutCfg = s.lutCfg := rfl
@[simp] theorem noteRead_lutAddr (v : Word) : (noteRead s v).lutAddr = s.lutAddr := rfl
@[simp] theorem noteRead_lutCur (v : Word) : (noteRead s v).lutCur = s.lutCur := rfl
@[simp] theorem noteRead_lut (v : Word) : (noteRead s v).lut = s.lut := rfl
@[simp] theorem noteRead_ts0 (v : Word) : (noteRead s v).ts0 = s.ts0 := rfl
@[simp] theorem noteRead_ts1 (v : Word) : (noteRead s v).ts1 = s.ts1 := rfl
@[simp] theorem noteRead_mem (v : Word) : (noteRead s v).mem = s.mem := rfl
@[simp] theorem noteRead_host (v : Word) : (noteRead s v).host = s.host := rfl
@[simp] theorem noteRead_hostReads (v : Word) : (noteRead s v).hostReads = v :: s.hostReads := rfl
@[simp] theorem noteRead_freeCount (v : Word) : (noteRead s v).freeCount = s.freeCount := rfl

/-! ## setBank -/

theorem setBank_colour (t : TileBank) : setBank s 0#1 t = { s with ts0 := t } := rfl

theorem setBank_alpha (t : TileBank) : setBank s 1#1 t = { s with ts1 := t } := rfl

theorem bank_colour : bank s 0#1 = s.ts0 := rfl

theorem bank_alpha : bank s 1#1 = s.ts1 := rfl

/-- The bank operand has two values (30_encoding.md rule R100). -/
theorem bank_cases (b : Bank) : b = 0#1 ∨ b = 1#1 := by
  revert b
  decide

@[simp] theorem bank_setBank_self (b : Bank) (t : TileBank) : bank (setBank s b t) b = t := by
  rcases bank_cases b with rfl | rfl <;> rfl

/-- Writing one bank leaves the other. -/
theorem bank_setBank_of_ne {b c : Bank} (h : c ≠ b) (t : TileBank) : bank (setBank s b t) c = bank s c := by
  rcases bank_cases b with rfl | rfl <;> rcases bank_cases c with rfl | rfl <;> first | rfl | exact absurd rfl h

@[simp] theorem setBank_status (b : Bank) (t : TileBank) : (setBank s b t).status = s.status := by
  unfold setBank; split <;> rfl
@[simp] theorem setBank_cm (b : Bank) (t : TileBank) : (setBank s b t).cm = s.cm := by
  unfold setBank; split <;> rfl
@[simp] theorem setBank_coefs (b : Bank) (t : TileBank) : (setBank s b t).coefs = s.coefs := by
  unfold setBank; split <;> rfl
@[simp] theorem setBank_surf (b : Bank) (t : TileBank) : (setBank s b t).surf = s.surf := by
  unfold setBank; split <;> rfl
@[simp] theorem setBank_frm (b : Bank) (t : TileBank) : (setBank s b t).frm = s.frm := by
  unfold setBank; split <;> rfl
@[simp] theorem setBank_yPlane (b : Bank) (t : TileBank) : (setBank s b t).yPlane = s.yPlane := by
  unfold setBank; split <;> rfl
@[simp] theorem setBank_uPlane (b : Bank) (t : TileBank) : (setBank s b t).uPlane = s.uPlane := by
  unfold setBank; split <;> rfl
@[simp] theorem setBank_vPlane (b : Bank) (t : TileBank) : (setBank s b t).vPlane = s.vPlane := by
  unfold setBank; split <;> rfl
@[simp] theorem setBank_tile (b : Bank) (t : TileBank) : (setBank s b t).tile = s.tile := by
  unfold setBank; split <;> rfl
@[simp] theorem setBank_encCtrl (b : Bank) (t : TileBank) : (setBank s b t).encCtrl = s.encCtrl := by
  unfold setBank; split <;> rfl
@[simp] theorem setBank_decCtrl (b : Bank) (t : TileBank) : (setBank s b t).decCtrl = s.decCtrl := by
  unfold setBank; split <;> rfl
@[simp] theorem setBank_lutCfg (b : Bank) (t : TileBank) : (setBank s b t).lutCfg = s.lutCfg := by
  unfold setBank; split <;> rfl
@[simp] theorem setBank_lutAddr (b : Bank) (t : TileBank) : (setBank s b t).lutAddr = s.lutAddr := by
  unfold setBank; split <;> rfl
@[simp] theorem setBank_lutCur (b : Bank) (t : TileBank) : (setBank s b t).lutCur = s.lutCur := by
  unfold setBank; split <;> rfl
@[simp] theorem setBank_lut (b : Bank) (t : TileBank) : (setBank s b t).lut = s.lut := by
  unfold setBank; split <;> rfl
@[simp] theorem setBank_mem (b : Bank) (t : TileBank) : (setBank s b t).mem = s.mem := by
  unfold setBank; split <;> rfl
@[simp] theorem setBank_host (b : Bank) (t : TileBank) : (setBank s b t).host = s.host := by
  unfold setBank; split <;> rfl
@[simp] theorem setBank_hostReads (b : Bank) (t : TileBank) : (setBank s b t).hostReads = s.hostReads := by
  unfold setBank; split <;> rfl
@[simp] theorem setBank_freeCount (b : Bank) (t : TileBank) : (setBank s b t).freeCount = s.freeCount := by
  unfold setBank; split <;> rfl

/-! ## Failing, succeeding, resolving: what each is in terms of the updates above -/

theorem fail_eq (c : Status) : fail s c = setStatus s (statusWithCode s.status c) := rfl

theorem succeed_eq : succeed s = setStatus s (statusWithCode s.status .ok) := rfl

theorem writeResolved_eq (cls : MatrixClass) (k : Coefs) :
    writeResolved s cls k = setStatus (setCoefs s k) (statusResolved s.status cls) := rfl

end Sys2Proof.Machine
end

