-- ==== Sys2Proof/Laws/Ops.lean ====
section
/-! SUPPORT. What each shared operation can do, said once: checks, commands, address checks, the host's transactions and
one step. -/

namespace Sys2Proof.Machine

/-! ## Check phases -/

/-- No check fails. -/
theorem firstFailure_none {l : List (Bool × Status)} : firstFailure l = none ↔ ∀ x ∈ l, x.1 = false := by
  induction l with
  | nil => simp [firstFailure]
  | cons x rest ih =>
    obtain ⟨b, c⟩ := x
    cases b <;> simp [firstFailure, ih]

/-- The failure reported is that of a check that fails, and every check before it passes (60_exceptions.md rule R293). -/
theorem firstFailure_some {l : List (Bool × Status)} {c : Status} (h : firstFailure l = some c) :
    ∃ before after, l = before ++ (true, c) :: after ∧ ∀ x ∈ before, x.1 = false := by
  induction l with
  | nil => simp [firstFailure] at h
  | cons x rest ih =>
    obtain ⟨b, d⟩ := x
    cases b
    · simp only [firstFailure, Bool.false_eq_true, if_false] at h
      obtain ⟨before, after, e, hb⟩ := ih h
      refine ⟨(false, d) :: before, after, by simp [e], ?_⟩
      intro x hx
      rcases List.mem_cons.mp hx with rfl | hx
      · rfl
      · exact hb x hx
    · simp only [firstFailure, if_true, Option.some.injEq] at h
      exact ⟨[], rest, by simp [h], by simp⟩

/-! ## Commands -/

/-- A command either fails, writing `STATUS.CODE` only, or reaches its effect with `STATUS.CODE = 0` (60_exceptions.md
rule R294); it never stops the machine. -/
theorem command_cases (failure : Option Status) (effect s : State) :
    (∃ c, failure = some c ∧ command failure effect s = .next (fail s c)) ∨
      (failure = none ∧ command failure effect s = .next (succeed effect)) := by
  cases failure with
  | none => exact .inr ⟨rfl, rfl⟩
  | some c => exact .inl ⟨c, rfl, rfl⟩

theorem command_fails (c : Status) (effect s : State) : command (some c) effect s = .next (fail s c) := rfl

theorem command_succeeds (effect s : State) : command none effect s = .next (succeed effect) := rfl

/-! ## Address checks -/

/-- Check (d) in full (20_memory.md rule R78 (d)). -/
theorem writesApart_iff {writes reads : List Buffer} :
    writesApart writes reads = true ↔
      writes.Pairwise (fun a b => buffersApart a b = true) ∧
        ∀ w ∈ writes, ∀ r ∈ reads, buffersApart w r = true := by
  induction writes with
  | nil => simp [writesApart]
  | cons w ws ih =>
    simp only [writesApart, Bool.and_eq_true, List.all_eq_true, ih, List.pairwise_cons, List.mem_cons,
      forall_eq_or_imp]
    tauto

/-- The address checks give every buffer's alignment, range and distance from the register window (20_memory.md rule R78
(b), (c), (e)). -/
theorem addressesOk_each {p : Params} {reads writes : List Buffer} (h : addressesOk p reads writes = true)
    {b : Buffer} (hb : b ∈ reads ++ writes) :
    bufferAligned b = true ∧ bufferEnd b ≤ 2 ^ 32 ∧ (bufferEnd b ≤ p.cmcBase ∨ p.cmcBase + 4096 ≤ b.base) := by
  simp only [addressesOk, Bool.and_eq_true, List.all_eq_true] at h
  have := h.1 b hb
  simp only [bufferInRange, bufferClearOfWindow, Bool.or_eq_true, decide_eq_true_eq] at this
  exact ⟨this.1.1, this.1.2, this.2⟩

/-! ## The host and one step -/

/-- With no transaction left the block is idle (30_encoding.md rule R111). -/
theorem nextTx_nil {s : State} (h : s.host = []) : nextTx s = .idle := by simp [nextTx, h]

theorem nextTx_cons {s : State} {tx : HostTx} {rest : List HostTx} (h : s.host = tx :: rest) :
    nextTx s = hostTransaction Config.params tx (setHost s rest) := by simp [nextTx, h]

/-- A write to `CMD` issues its word (10_state.md rule R23). -/
theorem hostTransaction_cmdWrite (p : Params) (w : Word) (s : State) :
    hostTransaction p (cmdWrite w) s = .issued w s := rfl

/-- A register transaction at a register's own offset reaches that register. -/
theorem regAt_regOffset (r : RegName) : regAt (regOffset r) = some r := by
  cases r <;> rfl

/-- Where a memory transaction of the host goes (20_memory.md rule R70, 10_state.md rule R21). -/
theorem busRoute_cases (p : Params) (a n : Nat) (onMemory : Fetched) (onRegister : BitVec 12 → Fetched) :
    (2 ^ 32 < a + n ∧ busRoute p a n onMemory onRegister = .outOfRange) ∨
      (a + n ≤ 2 ^ 32 ∧ touchesWindow p a n = false ∧ busRoute p a n onMemory onRegister = onMemory) ∨
      (touchesWindow p a n = true ∧ n = 4 ∧ a % 4 = 0 ∧
        busRoute p a n onMemory onRegister = onRegister (BitVec.ofNat 12 (a - p.cmcBase))) ∨
      (touchesWindow p a n = true ∧ ¬ (n = 4 ∧ a % 4 = 0) ∧
        busRoute p a n onMemory onRegister = .undefinedAccess) := by
  unfold busRoute
  by_cases h1 : 2 ^ 32 < a + n
  · exact .inl ⟨h1, if_pos h1⟩
  · rw [if_neg h1]
    cases h2 : touchesWindow p a n
    · exact .inr (.inl ⟨by omega, rfl, by simp⟩)
    · by_cases h3 : n = 4 ∧ a % 4 = 0
      · exact .inr (.inr (.inl ⟨rfl, h3.1, h3.2, by simp [h3]⟩))
      · exact .inr (.inr (.inr ⟨rfl, h3, by simp [h3]⟩))

/-- A register write of the host at a register's own offset (10_state.md rules R21, R23). -/
theorem busRegWrite_reg (r : RegName) (v : Word) (s : State) :
    busRegWrite (regOffset r) v s = if r = .cmd then .issued v s else .done (hostWriteReg s r v) := by
  have h : (regOffset r).toNat % 4 = 0 := by cases r <;> rfl
  simp only [busRegWrite, h, if_true, regAt_regOffset]

/-- A register read of the host at a register's own offset (10_state.md rule R21). -/
theorem busRegRead_reg (r : RegName) (s : State) :
    busRegRead (regOffset r) s = .done (hostReadReg s r) := by
  have h : (regOffset r).toNat % 4 = 0 := by cases r <;> rfl
  simp only [busRegRead, h, if_true, regAt_regOffset]

/-- What one step can do, if it answers a next state: idle, an access done, a command run or an illegal command. -/
theorem step_cases {s t : State} (h : step s = .next t) :
    (nextTx s = .idle ∧ t = s) ∨ nextTx s = .done t ∨
      (∃ w u i, nextTx s = .issued w u ∧ decode w = .ok i ∧ exec i u = .next t) ∨
      (∃ w u e, nextTx s = .issued w u ∧ decode w = .error e ∧ t = illegalCommand u) := by
  unfold step at h
  split at h
  · rename_i hn
    exact .inl ⟨hn, (Host.Outcome.next.inj h).symm⟩
  · rename_i u hn
    exact .inr (.inl (by rw [hn, Host.Outcome.next.inj h]))
  · rename_i w u hn
    unfold runWord at h
    split at h
    · rename_i i hd
      exact .inr (.inr (.inl ⟨w, u, i, hn, hd, h⟩))
    · rename_i e hd
      exact .inr (.inr (.inr ⟨w, u, e, hn, hd, (Host.Outcome.next.inj h).symm⟩))
  · cases h
  · cases h

end Sys2Proof.Machine
end

