-- ==== Sys2Proof/Laws/PerInstr.lean ====
section
/-! SUPPORT. Statements about the commands as syntax, proved constructor by constructor. -/

namespace Sys2Proof.Laws

/-- The row of the opcode map a command's word belongs to (30_encoding.md rule R101). -/
def rowOf : Instr → OpcodeRow
  | .resolve => ⟨"RESOLVE", 0xFFFFFFFF, 0x00000001⟩
  | .buildLut => ⟨"BUILD_LUT", 0xFFFFFFFF, 0x00000002⟩
  | .encodeColor => ⟨"ENCODE_COLOR", 0xFFFFFFFF, 0x00000003⟩
  | .encodeAlpha => ⟨"ENCODE_ALPHA", 0xFFFFFFFF, 0x00000004⟩
  | .decodeColor => ⟨"DECODE_COLOR", 0xFFFFFFFF, 0x00000005⟩
  | .decodeAlpha => ⟨"DECODE_ALPHA", 0xFFFFFFFF, 0x00000006⟩
  | .tileValidate _ => ⟨"TILE_VALIDATE", 0xFFFFFEFF, 0x00000007⟩
  | .tileReset _ => ⟨"TILE_RESET", 0xFFFFFEFF, 0x00000008⟩

/-- The word of a command matches the command's row, which is a row of the opcode map (30_encoding.md rule R101). -/
def EncodedRow.Statement (i : Instr) : Prop :=
  i.wellFormed = true → rowOf i ∈ opcodeMap ∧ rowMatches (rowOf i) (encode i) = true

theorem EncodedRow.resolve : EncodedRow.Statement .resolve := by unfold EncodedRow.Statement; decide

theorem EncodedRow.buildLut : EncodedRow.Statement .buildLut := by unfold EncodedRow.Statement; decide

theorem EncodedRow.encodeColor : EncodedRow.Statement .encodeColor := by unfold EncodedRow.Statement; decide

theorem EncodedRow.encodeAlpha : EncodedRow.Statement .encodeAlpha := by unfold EncodedRow.Statement; decide

theorem EncodedRow.decodeColor : EncodedRow.Statement .decodeColor := by unfold EncodedRow.Statement; decide

theorem EncodedRow.decodeAlpha : EncodedRow.Statement .decodeAlpha := by unfold EncodedRow.Statement; decide

theorem EncodedRow.tileValidate (b : Bank) : EncodedRow.Statement (.tileValidate b) := by
  unfold EncodedRow.Statement
  revert b
  decide

theorem EncodedRow.tileReset (b : Bank) : EncodedRow.Statement (.tileReset b) := by
  unfold EncodedRow.Statement
  revert b
  decide

end Sys2Proof.Laws
end

