-- ==== Sys2Proof/Laws/Tables.lean ====
section
/-! SUPPORT. The lookup tables: their lengths and entries, and what `LUT_CUR` says of them. -/

namespace Sys2Proof.Machine

theorem tabulate_length (f : Nat → Num) (i n : Nat) : (tabulate f i n).length = n := by
  induction n generalizing i with
  | zero => rfl
  | succ n ih => simp [tabulate, ih]

/-- Entry `j` of a table that starts at `i`. -/
theorem tabulate_getElem? (f : Nat → Num) (i n j : Nat) :
    (tabulate f i n)[j]? = if j < n then some (f (i + j)) else none := by
  induction n generalizing i j with
  | zero => simp [tabulate]
  | succ n ih =>
    cases j with
    | zero => simp [tabulate]
    | succ j =>
      simp only [tabulate, List.getElem?_cons_succ, ih]
      by_cases h : j < n
      · have h' : j + 1 < n + 1 := by omega
        rw [if_pos h, if_pos h']
        congr 2
        omega
      · have h' : ¬ (j + 1 < n + 1) := by omega
        rw [if_neg h, if_neg h']

/-- A read below the table's length gives the entry. -/
theorem lutRead_tabulate (f : Nat → Num) {n j : Nat} (h : j < n) : lutRead (tabulate f 0 n) j = f j := by
  simp [lutRead, List.getD, tabulate_getElem?, h]

/-- The luma table of a build (42_lut_builder.md rule R176). -/
theorem buildTables_luma (p : Params) (bd : Nat) (mono ident full : Bool) (i : Nat) :
    (buildTables p bd mono ident full).luma[i]? =
      if i < 2 ^ bd then some (lumaEntry p.num bd full i) else none := by
  simp [buildTables, tabulate_getElem?]

/-- The chroma table of a build (42_lut_builder.md rule R176). -/
theorem buildTables_chroma (p : Params) (bd : Nat) (mono ident full : Bool) (i : Nat) :
    (buildTables p bd mono ident full).chroma[i]? =
      if mono = false ∧ i < 2 ^ bd then some (chromaEntry p bd full ident i) else none := by
  cases mono <;> simp [buildTables, tabulate_getElem?]

/-- The supported depths (42_lut_builder.md rule R171). -/
theorem depthOk_iff {bd : Nat} : depthOk bd = true ↔ bd = 8 ∨ bd = 10 ∨ bd = 12 ∨ bd = 16 := by
  simp [depthOk, or_assoc]

/-- A fetched sample indexes the built table (45_decoder.md rule R234). -/
theorem fetchSample_lt (s : State) (pl : Plane) (x y : Nat) :
    fetchSample s pl x y < 2 ^ (frameFormat s.frm.fmt).depth := by
  have h : 0 < 2 ^ (frameFormat s.frm.fmt).depth := Nat.two_pow_pos _
  simp only [fetchSample, maxCode]
  omega

end Sys2Proof.Machine
end

