-- ==== Sys2Proof/Tests/Slice0.lean ====
section
/-! SUPPORT. The model's own tests: words written out from the encodings, ill-formed transactions, the spec's test
vectors on single commands, and for every statement with hypotheses a state and operands that meet them. -/

namespace Sys2Proof.Tests

open Sys2Proof Sys2Proof.Machine

/-! ## Decoding: words written out bit by bit from 30_encoding.md rules R100, R101 -/

theorem test_decode_resolve : decode 0b00000000000000000000000000000001#32 = .ok .resolve := by decide
theorem test_decode_buildLut : decode 0b00000000000000000000000000000010#32 = .ok .buildLut := by decide
theorem test_decode_encodeColor : decode 0b00000000000000000000000000000011#32 = .ok .encodeColor := by decide
theorem test_decode_encodeAlpha : decode 0b00000000000000000000000000000100#32 = .ok .encodeAlpha := by decide
theorem test_decode_decodeColor : decode 0b00000000000000000000000000000101#32 = .ok .decodeColor := by decide
theorem test_decode_decodeAlpha : decode 0b00000000000000000000000000000110#32 = .ok .decodeAlpha := by decide
theorem test_decode_tileValidate_colour :
    decode 0b00000000000000000000000000000111#32 = .ok (.tileValidate 0#1) := by decide
theorem test_decode_tileValidate_alpha :
    decode 0b00000000000000000000000100000111#32 = .ok (.tileValidate 1#1) := by decide
theorem test_decode_tileReset_colour :
    decode 0b00000000000000000000000000001000#32 = .ok (.tileReset 0#1) := by decide
theorem test_decode_tileReset_alpha :
    decode 0b00000000000000000000000100001000#32 = .ok (.tileReset 1#1) := by decide

/-- V-ERR-1, V-ERR-2. -/
theorem test_decode_illegal_opcodes :
    decode 0x00000000 = .error .illegalOpcode ∧ decode 0x00000009 = .error .illegalOpcode ∧
      decode 0x000000FF = .error .illegalOpcode := by decide

/-- V-ERR-3 to V-ERR-5. -/
theorem test_decode_reserved_bits :
    decode 0x00000101 = .error .reservedBitSet ∧ decode 0x00000207 = .error .reservedBitSet ∧
      decode 0x80000005 = .error .reservedBitSet := by decide

theorem test_decodeTableWord :
    decodeTableWord 32 0x107 = some (.tileValidate 1#1) ∧ decodeTableWord 32 0x207 = none ∧
      decodeTableWord 16 0x10008 = some (.tileReset 0#1) := by decide

/-! ## WellFormed: one ill-formed transaction for each check, and well-formed ones beside them -/

/-- The parameters of the test vectors. -/
def testParams : Params := vectorParams .f32 .half

theorem test_wellFormed_commands : ∀ b : Bank, (Instr.tileValidate b).wellFormed = true ∧
    (Instr.tileReset b).wellFormed = true := by decide

theorem test_illFormed_misaligned_register_write : HostTx.wellFormed testParams (.regWrite 0x012 1) = false := by decide
theorem test_illFormed_misaligned_register_read : HostTx.wellFormed testParams (.regRead 0x00A) = false := by decide
theorem test_illFormed_write_past_the_end :
    HostTx.wellFormed testParams (.memWrite 0xFFFFFFFF .two 1) = false := by decide
theorem test_illFormed_read_past_the_end :
    HostTx.wellFormed testParams (.memRead 0xFFFFFFFD .four) = false := by decide
theorem test_illFormed_bytes_past_the_end :
    HostTx.wellFormed testParams (.memBytes 0xFFFFFFFF [1, 2]) = false := by decide
theorem test_illFormed_halfword_in_window :
    HostTx.wellFormed testParams (.memWrite 0x40000010 .two 1) = false := by decide
theorem test_illFormed_straddles_window :
    HostTx.wellFormed testParams (.memRead 0x3FFFFFFE .four) = false := by decide
theorem test_illFormed_bytes_in_window :
    HostTx.wellFormed testParams (.memBytes 0x40000FFF [1]) = false := by decide
theorem test_wellFormed_transactions :
    HostTx.wellFormed testParams (.memWrite 0xFFFFFFFC .four 1) = true ∧
      HostTx.wellFormed testParams (.memRead 0x40000004 .four) = true ∧
      HostTx.wellFormed testParams (.memBytes 0x40001000 [1]) = true ∧
      HostTx.wellFormed testParams (wr .tile 1) = true ∧ HostTx.wellFormed testParams .platformReset = true := by decide

/-! ## Single steps from reset: V-ERR -/

/-- `STATUS.CODE` after a step. -/
def codeAfter (o : Host.Outcome State Fault Refusal) : Option Nat :=
  match o with
  | .next t => some (codeOf t)
  | .fault _ => none
  | .refused _ => none

/-- `STATUS` after a step. -/
def statusAfter (o : Host.Outcome State Fault Refusal) : Option Word :=
  match o with
  | .next t => some t.status
  | .fault _ => none
  | .refused _ => none

/-- V-ERR-1, V-ERR-3. -/
theorem test_step_bad_command :
    codeAfter (step (State.reset.withFetchWord 32 0)) = some 0x40 ∧
      codeAfter (step (State.reset.withFetchWord 32 0x101)) = some 0x40 := by decide

/-- V-ERR-6. -/
theorem test_step_resolve : statusAfter (step (State.reset.withFetchWord 32 1)) = some 0x00001100 := by decide

/-- V-ERR-7. -/
theorem test_step_null_parameter :
    codeAfter (step (State.reset.withFetchWord 32 3)) = some 0x01 ∧
      codeAfter (step (State.reset.withFetchWord 32 4)) = some 0x01 ∧
      codeAfter (step (State.reset.withFetchWord 32 5)) = some 0x01 ∧
      codeAfter (step (State.reset.withFetchWord 32 6)) = some 0x01 := by decide

/-- V-ERR-8 to V-ERR-10. -/
theorem test_step_buildLut_tiles :
    codeAfter (step (State.reset.withFetchWord 32 2)) = some 0x04 ∧
      codeAfter (step (State.reset.withFetchWord 32 7)) = some 0x41 ∧
      codeAfter (step (State.reset.withFetchWord 32 0x108)) = some 0x00 := by decide

/-! ## RESOLVE: V-RES -/

/-- `KR`, `KG`, `KB` as read, for `CP`, `MC`. -/
def resolvedPatterns (m : NumMode) (cp mc : Nat) : Word × Word × Word :=
  let k := resolveCoefs (vectorParams m .half) cp mc
  (enc32 k.kr, enc32 k.kg, enc32 k.kb)

/-- V-RES, `CP = 1`, `MC = 1`, and the fallback under `EXACT`. -/
theorem test_resolve_tables :
    resolvedPatterns .f32 1 1 = (0x3E59B3D0, 0x3F371759, 0x3D93DD98) ∧
      resolvedPatterns .exactQ 1 255 = (0x3E991687, 0x3F1645A2, 0x3DE978D5) := by decide +kernel

/-- V-RES, `MC = 12` for `CP` 4 under both instances and `CP = 10`. -/
theorem test_resolve_derived :
    resolvedPatterns .f32 4 12 = (0x3E991228, 0x3F161FB4, 0x3DEAB9C4) ∧
      resolvedPatterns .exactQ 4 12 = (0x3E991227, 0x3F161FB3, 0x3DEAB9C9) ∧
      resolvedPatterns .f32 10 12 = (0, 0x3F800000, 0) := by decide +kernel

/-! ## BUILD_LUT: the worked example of 42_lut_builder.md rule R170 -/

theorem test_buildLut_entries :
    enc32 (lumaEntry .f32 8 false 16) = 0 ∧ enc32 (lumaEntry .f32 8 false 235) = 0x3F800000 ∧
      enc32 (lumaEntry .f32 8 false 128) = 0x3F028283 ∧
      enc32 (chromaEntry (vectorParams .f32 .half) 8 false false 16) = 0xBF000000 ∧
      enc32 (chromaEntry (vectorParams .f32 .half) 8 false false 128) = 0x3B008100 ∧
      enc32 (chromaEntry (vectorParams .exactQ .half) 8 false false 128) = 0x3B008081 := by decide +kernel

/-- `LUT_CUR` and a read-back after the build of rule R170's example. -/
theorem test_buildLut_effect :
    let t := buildLutEffect (vectorParams .exactQ .half) { State.reset with lutCfg := 8, lutAddr := 0x100F0 }
    t.lutCur = 0x80000008 ∧ lutDataRead t = 0x3F000000 := by decide +kernel

/-! ## Encoding and decoding: V-FWD, V-RE, rules R207, R238 -/

/-- A 1x1 surface at 0x1000, planes at 0x2000, 0x3000, 0x4000, and some bytes of memory. -/
def onePixel (cm : Word) (bytes : List (Nat × Byte)) : State :=
  { State.reset with
    cm := cm
    surf := ⟨0x1000, 4, 1, 1, 0⟩
    yPlane := ⟨0x2000, 2⟩
    uPlane := ⟨0x3000, 2⟩
    vPlane := ⟨0x4000, 2⟩
    encCtrl := 3
    mem := bytes.foldl (fun m e => memPut m e.1 e.2) [] }

/-- V-FWD, `MC = 6`, (200, 100, 50): codes (124, 86, 182). -/
theorem test_encodeColor_pixel :
    let t := encodeColorEffect (vectorParams .f32 .half)
      (onePixel 0x01060D01 [(0x1000, 50), (0x1001, 100), (0x1002, 200), (0x1003, 7)])
    memByte t.mem 0x2000 = 124 ∧ memByte t.mem 0x3000 = 86 ∧ memByte t.mem 0x4000 = 182 ∧
      t.frm = ⟨1, 1, 0x00000008, 0x01060D01⟩ := by decide +kernel

/-- Rule R204: Identity copies green, blue and red. -/
theorem test_encodeColor_identity :
    let t := encodeColorEffect (vectorParams .f32 .half)
      (onePixel 0x01000D01 [(0x1000, 50), (0x1001, 100), (0x1002, 200), (0x1003, 7)])
    memByte t.mem 0x2000 = 100 ∧ memByte t.mem 0x3000 = 50 ∧ memByte t.mem 0x4000 = 200 := by decide +kernel

/-- Rule R207: the alpha byte and zero chroma. -/
theorem test_encodeAlpha_pixel :
    let t := encodeAlphaEffect (onePixel 0 [(0x1002, 200), (0x1003, 7), (0x3000, 9), (0x4000, 9)])
    memByte t.mem 0x2000 = 7 ∧ memByte t.mem 0x3000 = 0 ∧ memByte t.mem 0x4000 = 0 ∧
      t.frm = ⟨1, 1, 0x00000708, 0x01020202⟩ := by decide

/-- Rule R156's worked examples: YCgCo-Re at depth 10, codes (100, 519, 507) and (3, 503, 513), and
vector V-RE-5, where `Ri` comes from the clamped `Bi`. -/
theorem test_reversible_examples :
    reversibleRgb 255 10 100 519 507 = (95, 104, 100) ∧ reversibleRgb 255 10 3 503 513 = (9, 0, 8) ∧
      reversibleRgb 255 10 295 512 502 = (245, 255, 255) := by decide

/-- V-FWD, `MC = 6`: codes (124, 86, 182) decode to (200, 99, 50), the alpha byte untouched. -/
theorem test_decodeColor_pixel :
    let t := decodeColorEffect (vectorParams .exactQ .half)
      { onePixel 0 [(0x1003, 7), (0x2000, 124), (0x3000, 86), (0x4000, 182)] with
        frm := ⟨1, 1, 0x00000008, 0x01060D01⟩ }
    memRead t.mem 0x1000 4 = 50 + 256 * 99 + 65536 * 200 + 16777216 * 7 ∧
      t.ts0 = ⟨1, 1, 0x00030408, 0x01060D01⟩ ∧ t.lutCur = 0x80000408 := by decide +kernel

/-- Rule R238's worked example: limited range takes 0x7F to 0x81. -/
theorem test_decodeAlpha_pixel :
    let t := decodeAlphaEffect (vectorParams .exactQ .half)
      { onePixel 0 [(0x1000, 3), (0x2000, 0x7F)] with frm := ⟨1, 1, 0x00000408, 0⟩ }
    memRead t.mem 0x1000 4 = 3 + 16777216 * 0x81 ∧ t.lutCur = 0x80000108 ∧
      t.ts1 = ⟨1, 1, 0x00030108, 0⟩ := by decide +kernel

/-! ## Tiles: rule R273's worked example -/

/-- The first tile of the example, `CM` given. -/
def firstTile (cm : Word) : State := { State.reset with cm := cm, frm := ⟨64, 64, 0x308, 0x01010D01⟩ }

theorem test_tileValidate_first :
    recordTile 0 (firstTile 0) = { firstTile 0 with ts0 := ⟨64, 64, 0x00030208, 0x01010D01⟩ } ∧
      recordTile 0 (firstTile 0x81010D01) =
        { firstTile 0x81010D01 with ts0 := ⟨64, 64, 0x00010208, 0⟩ } := by decide

theorem test_tileValidate_second :
    codeAfter (exec (.tileValidate 0) { recordTile 0 (firstTile 0) with
        tile := 1, frm := ⟨64, 64, 0x308, 0x01060D01⟩ }) = some 0x07 ∧
      codeAfter (exec (.tileValidate 0) { recordTile 0 (firstTile 0x81010D01) with
        tile := 1, frm := ⟨64, 64, 0x308, 0x01060D01⟩ }) = some 0x00 := by decide

/-- V-TILE: TILE_RESET 1 clears bank 1 only. -/
theorem test_tileReset :
    exec (.tileReset 1) { State.reset with ts0 := ⟨1, 2, 3, 4⟩, ts1 := ⟨5, 6, 7, 8⟩, status := 0x41 } =
      .next { State.reset with ts0 := ⟨1, 2, 3, 4⟩ } := rfl

/-- 46_tile_assembly.md rule R275, the example: surface 5x3, tiles 4x2. -/
theorem test_placement_example :
    let s : State := { State.reset with surf := ⟨1, 20, 5, 3, 0⟩, frm := ⟨4, 2, 8, 0⟩ }
    placement { s with tile := 0x00000 } = ⟨0, 0, 4, 2⟩ ∧ placement { s with tile := 0x00001 } = ⟨4, 0, 1, 2⟩ ∧
      placement { s with tile := 0x10000 } = ⟨0, 2, 4, 1⟩ ∧ placement { s with tile := 0x10001 } = ⟨4, 2, 1, 1⟩ ∧
      placement { s with tile := 0x00002 } = ⟨8, 0, 0, 2⟩ := by decide

/-! ## Witnesses: a state and operands that meet the hypotheses of each statement

The register window lies at a page that is not known, so the buffers of a witness lie in page 1, or in page 2 where the
window is page 1. -/

/-- The page of a witness's buffers. -/
def freePage : Nat := if Config.cmcPage.toNat = 1 then 2 else 1

theorem freePage_cases :
    (freePage = 1 ∧ Config.cmcPage.toNat ≠ 1) ∨ (freePage = 2 ∧ Config.cmcPage.toNat ≠ 2) := by
  unfold freePage
  split <;> omega

/-- A 3x3 surface (2-byte elements aligned too) and three planes in one page, as an encode takes them. -/
def encState (page : Nat) (cm encCtrl : Word) : State :=
  { State.reset with
    cm := cm
    surf := ⟨BitVec.ofNat 32 (page * 4096), 12, 3, 3, 0⟩
    yPlane := ⟨BitVec.ofNat 32 (page * 4096 + 0x100), 3⟩
    uPlane := ⟨BitVec.ofNat 32 (page * 4096 + 0x200), 3⟩
    vPlane := ⟨BitVec.ofNat 32 (page * 4096 + 0x300), 3⟩
    encCtrl := encCtrl
    mem := [(page * 4096, 9)] }

/-- The same with a frame of depth 8 in the planes, as a decode takes them. -/
def decState (page : Nat) (cm frmFmt cicp tile surfFmt : Word) : State :=
  { State.reset with
    cm := cm
    surf := ⟨BitVec.ofNat 32 (page * 4096), 48, 3, 3, surfFmt⟩
    yPlane := ⟨BitVec.ofNat 32 (page * 4096 + 0x100), 6⟩
    uPlane := ⟨BitVec.ofNat 32 (page * 4096 + 0x200), 6⟩
    vPlane := ⟨BitVec.ofNat 32 (page * 4096 + 0x300), 6⟩
    frm := ⟨3, 3, frmFmt, cicp⟩
    tile := tile
    ts0 := ⟨3, 3, 0x00030408, cicp⟩
    ts1 := ⟨3, 3, 0x00030408, cicp⟩
    mem := [(page * 4096, 9)] }

theorem encodeColorVerdict_encState (page : Nat) (cm encCtrl : Word)
    (hp : (page = 1 ∧ Config.cmcPage.toNat ≠ 1) ∨ (page = 2 ∧ Config.cmcPage.toNat ≠ 2))
    (hc : (cm, encCtrl) ∈ [((0x01010D01 : Word), (0 : Word)), (0x01010D01, 1), (0x01010D01, 2), (0x01010D01, 3),
      (0x01000D01, 3)]) :
    encodeColorVerdict Config.params (encState page cm encCtrl) = none := by
  have h : Config.params.cmcBase = Config.cmcPage.toNat * 4096 := rfl
  rcases hp with ⟨rfl, hp⟩ | ⟨rfl, hp⟩ <;>
    simp only [List.mem_cons, List.not_mem_nil, Prod.mk.injEq, or_false] at hc <;>
    rcases hc with ⟨rfl, rfl⟩ | ⟨rfl, rfl⟩ | ⟨rfl, rfl⟩ | ⟨rfl, rfl⟩ | ⟨rfl, rfl⟩ <;>
    simp [encodeColorVerdict, encState, getField, addressesOk, bufferAligned, bufferInRange, bufferClearOfWindow,
      bufferEnd, writesApart, buffersApart, h] <;> omega

theorem encodeAlphaVerdict_encState (page : Nat) (cm encCtrl : Word)
    (hp : (page = 1 ∧ Config.cmcPage.toNat ≠ 1) ∨ (page = 2 ∧ Config.cmcPage.toNat ≠ 2)) :
    encodeAlphaVerdict Config.params (encState page cm encCtrl) = none := by
  have h : Config.params.cmcBase = Config.cmcPage.toNat * 4096 := rfl
  rcases hp with ⟨rfl, hp⟩ | ⟨rfl, hp⟩ <;>
    simp [encodeAlphaVerdict, encState, getField, addressesOk, bufferAligned, bufferInRange, bufferClearOfWindow,
      bufferEnd, writesApart, buffersApart, h] <;> omega

theorem decodeColorVerdict_decState (page : Nat) (cm frmFmt cicp tile surfFmt : Word)
    (hp : (page = 1 ∧ Config.cmcPage.toNat ≠ 1) ∨ (page = 2 ∧ Config.cmcPage.toNat ≠ 2))
    (hc : (cm, frmFmt, cicp, tile, surfFmt) ∈
      [((0 : Word), (0x008 : Word), (0x01010D01 : Word), (0 : Word), (0 : Word)), (0, 0x308, 0x01010D01, 0, 2),
        (0x81010D01, 0x80A, 0, 0, 1), (0, 0x008, 0x01010D01, 1, 0), (0, 0x408, 0, 0, 0), (0, 0x008, 0x01000D01, 0, 1),
        (0, 0x008, 0x01080D01, 0, 0), (0, 0x00A, 0x01100D01, 0, 0), (0, 0x00A, 0x01110D01, 0, 2)]) :
    decodeColorVerdict Config.params (decState page cm frmFmt cicp tile surfFmt) = none := by
  have h : Config.params.cmcBase = Config.cmcPage.toNat * 4096 := rfl
  rcases hp with ⟨rfl, hp⟩ | ⟨rfl, hp⟩ <;>
    simp only [List.mem_cons, List.not_mem_nil, Prod.mk.injEq, or_false] at hc <;>
    rcases hc with ⟨rfl, rfl, rfl, rfl, rfl⟩ | ⟨rfl, rfl, rfl, rfl, rfl⟩ | ⟨rfl, rfl, rfl, rfl, rfl⟩ |
      ⟨rfl, rfl, rfl, rfl, rfl⟩ | ⟨rfl, rfl, rfl, rfl, rfl⟩ | ⟨rfl, rfl, rfl, rfl, rfl⟩ | ⟨rfl, rfl, rfl, rfl, rfl⟩ |
      ⟨rfl, rfl, rfl, rfl, rfl⟩ | ⟨rfl, rfl, rfl, rfl, rfl⟩ <;>
    simp [decodeColorVerdict, decState, getField, getBit, frameFormat, addressesOk, bufferAligned, bufferInRange,
      bufferClearOfWindow, bufferEnd, writesApart, buffersApart, surfaceBuffer, pixelFormat, bpp, channelBytes,
      sizeMismatch, tileVerdict, frameClass, bank, State.reset, h] <;> omega

theorem decodeAlphaVerdict_decState (page : Nat) (cm frmFmt cicp tile surfFmt : Word)
    (hp : (page = 1 ∧ Config.cmcPage.toNat ≠ 1) ∨ (page = 2 ∧ Config.cmcPage.toNat ≠ 2))
    (hc : (cm, frmFmt, cicp, tile, surfFmt) ∈
      [((0 : Word), (0x408 : Word), (0x01010D01 : Word), (0 : Word), (0 : Word)), (0x81010D01, 0x80A, 0, 0, 1),
        (0, 0x008, 0x01010D01, 1, 2)]) :
    decodeAlphaVerdict Config.params (decState page cm frmFmt cicp tile surfFmt) = none := by
  have h : Config.params.cmcBase = Config.cmcPage.toNat * 4096 := rfl
  rcases hp with ⟨rfl, hp⟩ | ⟨rfl, hp⟩ <;>
    simp only [List.mem_cons, List.not_mem_nil, Prod.mk.injEq, or_false] at hc <;>
    rcases hc with ⟨rfl, rfl, rfl, rfl, rfl⟩ | ⟨rfl, rfl, rfl, rfl, rfl⟩ | ⟨rfl, rfl, rfl, rfl, rfl⟩ <;>
    simp [decodeAlphaVerdict, decState, getField, getBit, frameFormat, addressesOk, bufferAligned, bufferInRange,
      bufferClearOfWindow, bufferEnd, writesApart, buffersApart, surfaceBuffer, pixelFormat, bpp, channelBytes,
      sizeMismatch, tileVerdict, frameClass, bank, State.reset, h] <;> omega

theorem memWf_encState (page : Nat) (cm encCtrl : Word) (hp : page = 1 ∨ page = 2) :
    memWf (encState page cm encCtrl).mem = true := by
  rcases hp with rfl | rfl <;> rfl

theorem memWf_decState (page : Nat) (cm frmFmt cicp tile surfFmt : Word) (hp : page = 1 ∨ page = 2) :
    memWf (decState page cm frmFmt cicp tile surfFmt).mem = true := by
  rcases hp with rfl | rfl <;> rfl

theorem freePage_one_or_two : freePage = 1 ∨ freePage = 2 := by
  rcases freePage_cases with h | h
  · exact .inl h.1
  · exact .inr h.1

/-! ### Reset and the host's accesses -/

theorem witness_PlatformResetKeepsMemory :
    ({ State.reset with cm := 5, mem := [(7, 1)], host := [.platformReset] } : State).host = .platformReset :: [] := rfl

/-- The first and the last register a host may write. -/
theorem witness_HostRegisterWriteThenRead :
    (regAccess .cm = .rw ∧ ({ State.reset with host := [wr .cm 0xFFFFFFFF, rd .cm] } : State).host =
      wr .cm 0xFFFFFFFF :: rd .cm :: []) ∧
    regAccess .ts1ExpH = .rw ∧ ({ State.reset with host := [wr .ts1ExpH 3, rd .ts1ExpH] } : State).host =
      wr .ts1ExpH 3 :: rd .ts1ExpH :: [] := ⟨⟨rfl, rfl⟩, rfl, rfl⟩

theorem witness_RegisterReadsAndReadOnly :
    ({ State.reset with host := [rd .cmd] } : State).host = rd .cmd :: [] ∧ RegName.cmd ≠ .lutData ∧
      ({ State.reset with host := [wr .lutData 1] } : State).host = wr .lutData 1 :: [] ∧
      RegName.lutData ∈ [RegName.id, .status, .kr, .kg, .kb, .lutData, .lutCur, .ts0Info, .ts0Cicp, .ts1Info,
        .ts1Cicp] := by decide

/-- The first and the last unmapped offset. -/
theorem witness_UnmappedOffsets :
    ((0x00C : BitVec 12).toNat % 4 = 0 ∧ ∀ r : RegName, regOffset r ≠ 0x00C) ∧
      (0xFFC : BitVec 12).toNat % 4 = 0 ∧ ∀ r : RegName, regOffset r ≠ 0xFFC := by
  refine ⟨⟨by decide, ?_⟩, by decide, ?_⟩ <;> intro r <;> cases r <;> decide

/-- A written entry, and the first unwritten one beside it. -/
theorem witness_LutReadBack :
    let s : State := { State.reset with lut := ⟨[0, 1], []⟩, lutAddr := 1, host := [rd .lutData] }
    (if s.lutAddr.getLsbD 16 then s.lut.chroma else s.lut.luma)[s.lutAddr.toNat % 2 ^ 16]? = some 1 ∧
      (if ({ s with lutAddr := 2 } : State).lutAddr.getLsbD 16 then s.lut.chroma else s.lut.luma)[
        ({ s with lutAddr := 2 } : State).lutAddr.toNat % 2 ^ 16]? = none := by decide

/-- Four bytes at the lowest address of a page outside the window. -/
theorem witness_HostMemoryWriteThenRead :
    ∃ (s : State) (a : Word), memWf s.mem = true ∧ a.toNat + accessBytes .four ≤ 2 ^ 32 ∧
      (a.toNat + accessBytes .four ≤ Config.params.cmcBase ∨ Config.params.cmcBase + 4096 ≤ a.toNat) ∧
      s.host = .memWrite a .four 0x01020304 :: .memRead a .four :: [] := by
  have h : Config.params.cmcBase = Config.cmcPage.toNat * 4096 := rfl
  refine ⟨{ State.reset with
    host := [.memWrite (BitVec.ofNat 32 (freePage * 4096)) .four 0x01020304,
      .memRead (BitVec.ofNat 32 (freePage * 4096)) .four] }, BitVec.ofNat 32 (freePage * 4096), rfl, ?_, ?_, rfl⟩ <;>
    rcases freePage_cases with ⟨e, hp⟩ | ⟨e, hp⟩ <;> rw [e] <;> simp [accessBytes, h] <;> omega

/-- The first and the last word of the register window. -/
theorem witness_HostMemoryWriteThenRead_window :
    ∀ n ∈ [0, 4092], ∃ (s : State) (a : Word), Config.params.cmcBase ≤ a.toNat ∧
      a.toNat < Config.params.cmcBase + 4096 ∧ a.toNat % 4 = 0 ∧ s.host = .memWrite a .four 1 :: [] := by
  intro n hn
  have h : Config.params.cmcBase = Config.cmcPage.toNat * 4096 := rfl
  have hp := Config.cmcPage.isLt
  have ha : (BitVec.ofNat 32 (Config.params.cmcBase + n)).toNat = Config.params.cmcBase + n := by
    rw [BitVec.toNat_ofNat]
    simp only [List.mem_cons, List.not_mem_nil, or_false] at hn
    omega
  refine ⟨{ State.reset with host := [.memWrite (BitVec.ofNat 32 (Config.params.cmcBase + n)) .four 1] }, _,
    ?_, ?_, ?_, rfl⟩ <;> rw [ha] <;> simp only [List.mem_cons, List.not_mem_nil, or_false] at hn <;> omega

/-- Bytes up to the end of a page outside the window. -/
theorem witness_HostBytesWritten :
    ∃ (s : State) (a : Word) (bs : List Byte), memWf s.mem = true ∧ a.toNat + bs.length ≤ 2 ^ 32 ∧
      (a.toNat + bs.length ≤ Config.params.cmcBase ∨ Config.params.cmcBase + 4096 ≤ a.toNat) ∧
      s.host = .memBytes a bs :: [] := by
  have h : Config.params.cmcBase = Config.cmcPage.toNat * 4096 := rfl
  refine ⟨{ State.reset with host := [.memBytes (BitVec.ofNat 32 (freePage * 4096 + 4094)) [1, 2]] },
    BitVec.ofNat 32 (freePage * 4096 + 4094), [1, 2], rfl, ?_, ?_, rfl⟩ <;>
    rcases freePage_cases with ⟨e, hp⟩ | ⟨e, hp⟩ <;> rw [e] <;> simp [h] <;> omega

/-- A script with a register write, a command, a read and a reset. -/
theorem witness_ScriptRunsToItsEnd :
    hostDefined { State.reset with host := [wr .lutCfg 8, cmdWrite (encode .buildLut), rd .status, .platformReset] } := by
  intro tx h
  simp only [List.mem_cons, List.not_mem_nil, or_false] at h
  rcases h with rfl | rfl | rfl | rfl <;> rfl

/-! ### Command words and failing -/

theorem witness_IllegalWordIsBadCommand :
    ({ State.reset with host := [cmdWrite 0x00000207] } : State).host = cmdWrite 0x00000207 :: [] ∧
      decode 0x00000207 = .error .reservedBitSet ∧ decode 0x00000009 = .error .illegalOpcode := by decide

theorem witness_StepRunsDecodedCommand :
    ({ State.reset with host := [cmdWrite 0x00000108] } : State).host = cmdWrite 0x00000108 :: [] ∧
      decode 0x00000108 = .ok (.tileReset 1#1) ∧ State.reset.host = [] := by decide

theorem witness_FailedCommandFailsAgain :
    exec .buildLut State.reset = .next { State.reset with status := 4 } ∧
      codeOf { State.reset with status := 4 } ≠ 0 := ⟨rfl, by decide⟩

theorem witness_FirstFailingCheckReported :
    encodeColorVerdict Config.params State.reset = some 0x01 ∧
      encodeAlphaVerdict Config.params State.reset = some 0x01 ∧
      decodeColorVerdict Config.params State.reset = some 0x01 ∧
      decodeAlphaVerdict Config.params State.reset = some 0x01 := ⟨rfl, rfl, rfl, rfl⟩

theorem witness_FailureChangesOnlyCode :
    ∃ t, exec .buildLut State.reset = .next t ∧ codeOf t ≠ 0 :=
  ⟨_, witness_FailedCommandFailsAgain.1, witness_FailedCommandFailsAgain.2⟩

theorem witness_CommandStatusCodes : decode 0xFFFFFFFF = .error .illegalOpcode := by decide

/-! ### Arithmetic and tables -/

/-- A tie: `1 + 2^-24` lies between 1 and `1 + 2^-23`, both binary32. -/
theorem witness_Binary32RoundsToNearestEven :
    f32Overflows (1 + 1 / 2 ^ 24) = false ∧ roundF32 (1 + 1 / 2 ^ 24) = 1 ∧
      isBinary32 (1 + 1 / 2 ^ 23) ∧
      |(1 + 1 / 2 ^ 24 : Rat) - roundF32 (1 + 1 / 2 ^ 24)| = |(1 + 1 / 2 ^ 24 : Rat) - (1 + 1 / 2 ^ 23)| ∧
      (1 + 1 / 2 ^ 23 : Rat) ≠ roundF32 (1 + 1 / 2 ^ 24) := by
  refine ⟨by decide +kernel, by decide +kernel, ⟨2 ^ 23 + 1, 126, by norm_num, by norm_num, .inl ?_⟩, ?_, ?_⟩
  · decide +kernel
  · rw [show roundF32 (1 + 1 / 2 ^ 24) = 1 by decide +kernel]
    norm_num [abs_of_pos, abs_of_neg]
  · decide +kernel

theorem witness_EncoderQuantisation :
    (vectorParams .f32 .half).bias = .half ∧ (vectorParams .f32 .code).bias = .code := ⟨rfl, rfl⟩

/-- The first and the last code of no table row, and `MC = 12` without primaries. -/
theorem witness_FallbackCoefficients :
    0 ∉ [1, 4, 5, 6, 7, 9] ∧ 255 ∉ [1, 4, 5, 6, 7, 9] ∧ 12 ∉ [1, 4, 5, 6, 7, 9] ∧
      (vectorParams .f32 .half).primaries 2 = none := by decide

/-- Primaries that would make `kg` zero: green of no luminance. -/
theorem witness_DivisorsNeverZero :
    let p : Params := { vectorParams .exactQ .half with
      primaries := fun _ => some ⟨1 / 2, 1 / 2, 1 / 2, 0, 0, 1 / 2, 1 / 3, 1 / 3⟩ }
    (candidate p 1 12).kg = 0 := by decide +kernel

theorem witness_CoefficientSum : (vectorParams .exactQ .half).num = .exactQ := rfl

/-- Degenerate primaries, a code without primaries, and the BT.709 primaries, whose pair `MC = 12` takes. -/
theorem witness_ChromaticityDerivation :
    (vectorParams .exactQ .half).num = .exactQ ∧
      (vectorParams .exactQ .half).primaries 10 = some ⟨1, 0, 0, 1, 0, 0, 3333 / 10000, 3333 / 10000⟩ ∧
      derive (vectorParams .exactQ .half) 10 = some (0, 0) ∧
      (vectorParams .exactQ .half).primaries 2 = none ∧
      ∃ kr kb, derive (vectorParams .exactQ .half) 1 = some (kr, kb) ∧
        numSub .exactQ (numSub .exactQ (numOf 1) kr) kb ≠ 0 ∧ numSub .exactQ (numOf 1) kr ≠ 0 ∧
        numSub .exactQ (numOf 1) kb ≠ 0 := by
  refine ⟨rfl, rfl, by decide +kernel, rfl, ?_⟩
  cases h : derive (vectorParams .exactQ .half) 1 with
  | none => exact absurd h (by decide +kernel)
  | some k =>
    refine ⟨k.1, k.2, rfl, ?_⟩
    have e : k = (derive (vectorParams .exactQ .half) 1).getD (0, 0) := by rw [h]; rfl
    rw [e]
    decide +kernel

/-- The largest supported depth, and the largest depth of all, which is none. -/
theorem witness_BuildLutResult :
    (State.reset.lutCfg + 0x710).toNat % 2 ^ 5 = 16 ∧
      ¬ ((State.reset.lutCfg + 0x1F).toNat % 2 ^ 5 = 8 ∨ (State.reset.lutCfg + 0x1F).toNat % 2 ^ 5 = 10 ∨
        (State.reset.lutCfg + 0x1F).toNat % 2 ^ 5 = 12 ∨ (State.reset.lutCfg + 0x1F).toNat % 2 ^ 5 = 16) := by decide

/-- The boundary codes of 42_lut_builder.md rule R173's list. -/
theorem witness_LimitedToFullRescale :
    rescale 15 8 .luma = 0 ∧ rescale 16 8 .luma = 0 ∧ rescale 17 8 .luma = 1 ∧ rescale 235 8 .luma = 255 ∧
      rescale 236 8 .luma = 255 ∧ rescale 240 8 .chroma = 255 ∧ rescale 512 10 .luma = 523 ∧
      rescale 2048 12 .luma = 2094 ∧ rescale 32768 16 .luma = 33516 ∧ rescale 60160 16 .luma = 65535 := by decide

theorem witness_LumaTableMonotone : ((8 : Nat) = 8 ∨ 8 = 10 ∨ 8 = 12 ∨ 8 = 16) ∧ 0 < 1 ∧ 1 < 2 ^ 8 := by decide

theorem witness_ChromaTableRange :
    (vectorParams .exactQ .half).bias = .half ∧ (vectorParams .exactQ .code).bias = .code ∧ 65535 < 2 ^ 16 := by decide

/-- The BT.709 triple, and tables that hold what the forward transform of black gives. -/
theorem witness_LinearInverseOfForward :
    let k : Coefs := ⟨2126 / 10000, 7152 / 10000, 722 / 10000⟩
    k.kr + k.kg + k.kb = 1 ∧ k.kg ≠ 0 ∧ k.kr ≠ 1 ∧ k.kb ≠ 1 ∧
      lutRead [0] 0 = (fwd .exactQ k 0 0 0).y ∧ lutRead [0] 0 = (fwd .exactQ k 0 0 0).u ∧
      lutRead [0] 0 = (fwd .exactQ k 0 0 0).v := by decide +kernel

/-- 41_color_matrix.md rule R156's first example: no clamp acts. -/
theorem witness_ReversibleReconstruction :
    let cg : Int := (519 : Int) - 2 ^ 9
    let co : Int := (507 : Int) - 2 ^ 9
    let t : Int := 100 - cg / 2
    0 ≤ t + cg ∧ t + cg ≤ 255 ∧ 0 ≤ t - co / 2 ∧ t - co / 2 ≤ 255 ∧ 0 ≤ t - co / 2 + co ∧ t - co / 2 + co ≤ 255 := by
  decide

theorem witness_IdentityPixelRoundTrip : 0 < 256 ∧ 255 < 256 := by decide

/-- The corner pixel of a 3x3 image, whose block has one pixel. -/
theorem witness_BlockPartition : 2 < 3 ∧ blockPixels 3 3 1 1 = [(2, 2)] ∧ 1 < (3 + 1) / 2 := by decide

theorem witness_ChromaIndexInPlane :
    2 < (decState 1 0 0x308 0 0 0).frm.width.toNat ∧ 2 < (decState 1 0 0x308 0 0 0).frm.height.toNat := by decide

theorem witness_AddressChecksMeaning :
    ∀ b ∈ [(⟨0x1000, 8, 2, 8, 1⟩ : Buffer)] ++ [⟨0x2000, 1, 1, 1, 1⟩],
      b.base < b.base + (b.rows - 1) * b.stride + b.rowBytes := by decide

/-! ### Encoding and decoding -/

/-- 4:0:0, 4:2:0, 4:2:2 and 4:4:4 of BT.709, and Identity. -/
theorem witness_EncodeColorCompletes :
    ∀ c ∈ [((0x01010D01 : Word), (0 : Word)), (0x01010D01, 1), (0x01010D01, 2), (0x01010D01, 3), (0x01000D01, 3)],
      memWf (encState freePage c.1 c.2).mem = true ∧
        encodeColorVerdict Config.params (encState freePage c.1 c.2) = none := by
  intro c hc
  exact ⟨memWf_encState _ _ _ freePage_one_or_two, encodeColorVerdict_encState _ _ _ freePage_cases hc⟩

theorem witness_EncodeMonochromeSamples :
    memWf (encState freePage 0x01010D01 0).mem = true ∧
      encodeColorVerdict Config.params (encState freePage 0x01010D01 0) = none ∧
      (encState freePage 0x01010D01 0).encCtrl.toNat % 2 ^ 3 = 0 :=
  ⟨memWf_encState _ _ _ freePage_one_or_two, encodeColorVerdict_encState _ _ _ freePage_cases (by decide), rfl⟩

theorem witness_EncodeIdentitySamples :
    memWf (encState freePage 0x01000D01 3).mem = true ∧
      encodeColorVerdict Config.params (encState freePage 0x01000D01 3) = none ∧
      (encState freePage 0x01000D01 3).cm.toNat / 2 ^ 16 % 2 ^ 8 = 0 ∧
      (encState freePage 0x01000D01 3).encCtrl.toNat % 2 ^ 3 ≠ 0 :=
  ⟨memWf_encState _ _ _ freePage_one_or_two, encodeColorVerdict_encState _ _ _ freePage_cases (by decide), rfl,
    fun h => by simp [encState] at h⟩

/-- One witness for each of the three chroma formats. -/
theorem witness_EncodeStandardSamples :
    ∀ n ∈ [1, 2, 3],
      memWf (encState freePage 0x01010D01 (BitVec.ofNat 32 n)).mem = true ∧
        encodeColorVerdict Config.params (encState freePage 0x01010D01 (BitVec.ofNat 32 n)) = none ∧
        (encState freePage 0x01010D01 (BitVec.ofNat 32 n)).cm.toNat / 2 ^ 16 % 2 ^ 8 ≠ 0 ∧
        (encState freePage 0x01010D01 (BitVec.ofNat 32 n)).encCtrl.toNat % 2 ^ 3 = n := by
  intro n hn
  refine ⟨memWf_encState _ _ _ freePage_one_or_two, encodeColorVerdict_encState _ _ _ freePage_cases ?_,
    fun h => by simp [encState] at h, ?_⟩ <;>
    simp only [List.mem_cons, List.not_mem_nil, or_false] at hn <;> rcases hn with rfl | rfl | rfl <;> decide

theorem witness_EncodeAlphaResult :
    memWf (encState freePage 0 0).mem = true ∧ encodeAlphaVerdict Config.params (encState freePage 0 0) = none :=
  ⟨memWf_encState _ _ _ freePage_one_or_two, encodeAlphaVerdict_encState _ _ _ freePage_cases⟩

/-- 4:4:4 to `BGRA8`, 4:2:0 to `RGBAF32`, 10-bit with planes exchanged and the container's model to `RGBA16`, a later
tile that is clipped away, monochrome, and the classes Identity, YCgCo, YCgCo-Re and YCgCo-Ro. -/
theorem witness_DecodeColorCompletes :
    ∀ c ∈ [((0 : Word), (0x008 : Word), (0x01010D01 : Word), (0 : Word), (0 : Word)), (0, 0x308, 0x01010D01, 0, 2),
        (0x81010D01, 0x80A, 0, 0, 1), (0, 0x008, 0x01010D01, 1, 0), (0, 0x408, 0, 0, 0), (0, 0x008, 0x01000D01, 0, 1),
        (0, 0x008, 0x01080D01, 0, 0), (0, 0x00A, 0x01100D01, 0, 0), (0, 0x00A, 0x01110D01, 0, 2)],
      memWf (decState freePage c.1 c.2.1 c.2.2.1 c.2.2.2.1 c.2.2.2.2).mem = true ∧
        decodeColorVerdict Config.params (decState freePage c.1 c.2.1 c.2.2.1 c.2.2.2.1 c.2.2.2.2) = none := by
  intro c hc
  exact ⟨memWf_decState _ _ _ _ _ _ freePage_one_or_two, decodeColorVerdict_decState _ _ _ _ _ _ freePage_cases hc⟩

/-- A subsampled frame to `RGBAF32`, at the last pixel of the placement rectangle. -/
theorem witness_DecodeColorPixels :
    memWf (decState freePage 0 0x308 0x01010D01 0 2).mem = true ∧
      decodeColorVerdict Config.params (decState freePage 0 0x308 0x01010D01 0 2) = none ∧
      2 < (placement (decState freePage 0 0x308 0x01010D01 0 2)).copyW ∧
      2 < (placement (decState freePage 0 0x308 0x01010D01 0 2)).copyH :=
  ⟨memWf_decState _ _ _ _ _ _ freePage_one_or_two,
    decodeColorVerdict_decState _ _ _ _ _ _ freePage_cases (by decide), by
      simp [placement, decState, tileCol, getField], by simp [placement, decState, tileRow, getField]⟩

/-- The last pixel of the placement rectangle, in each of the five matrix classes and monochrome. -/
theorem witness_DecodeColorPixels_classes :
    ∀ c ∈ [((0x008 : Word), (0x01010D01 : Word), (0 : Word), (1 : Nat)), (0x408, 0, 0, 0), (0x008, 0x01000D01, 1, 0),
        (0x008, 0x01080D01, 0, 8), (0x00A, 0x01100D01, 0, 16), (0x00A, 0x01110D01, 2, 17)],
      memWf (decState freePage 0 c.1 c.2.1 0 c.2.2.1).mem = true ∧
        decodeColorVerdict Config.params (decState freePage 0 c.1 c.2.1 0 c.2.2.1) = none ∧
        (decState freePage 0 c.1 c.2.1 0 c.2.2.1).cm.getLsbD 31 = false ∧
        (decState freePage 0 c.1 c.2.1 0 c.2.2.1).frm.cicp.toNat / 2 ^ 16 % 2 ^ 8 = c.2.2.2 ∧
        2 < (placement (decState freePage 0 c.1 c.2.1 0 c.2.2.1)).copyW ∧
        2 < (placement (decState freePage 0 c.1 c.2.1 0 c.2.2.1)).copyH := by
  intro c hc
  refine ⟨memWf_decState _ _ _ _ _ _ freePage_one_or_two,
    decodeColorVerdict_decState _ _ _ _ _ _ freePage_cases ?_, by simp [decState], ?_, ?_, ?_⟩
  · fin_cases hc <;> decide
  · fin_cases hc <;> rfl
  · simp [placement, decState, tileCol, getField]
  · simp [placement, decState, tileRow, getField]

/-- A surface of each pixel format. -/
theorem witness_DecodeColorPixels_formats :
    ∀ n ∈ [0, 1, 2], (⟨0x1000, 48, 3, 3, BitVec.ofNat 32 n⟩ : Surface).fmt.toNat % 2 ^ 2 = n := by decide

theorem witness_DecodeAlphaResult :
    ∀ c ∈ [((0 : Word), (0x408 : Word), (0x01010D01 : Word), (0 : Word), (0 : Word)), (0x81010D01, 0x80A, 0, 0, 1),
        (0, 0x008, 0x01010D01, 1, 2)],
      memWf (decState freePage c.1 c.2.1 c.2.2.1 c.2.2.2.1 c.2.2.2.2).mem = true ∧
        decodeAlphaVerdict Config.params (decState freePage c.1 c.2.1 c.2.2.1 c.2.2.2.1 c.2.2.2.2) = none := by
  intro c hc
  exact ⟨memWf_decState _ _ _ _ _ _ freePage_one_or_two, decodeAlphaVerdict_decState _ _ _ _ _ _ freePage_cases hc⟩

/-- A colour frame with chroma planes, and its last position. -/
theorem witness_DecodeStaysInside :
    decodeColorVerdict Config.params (decState freePage 0 0x308 0x01010D01 0 2) = none ∧
      (frameFormat (decState freePage 0 0x308 0x01010D01 0 2).frm.fmt).mono = false ∧
      2 < (placement (decState freePage 0 0x308 0x01010D01 0 2)).copyW ∧
      2 < (placement (decState freePage 0 0x308 0x01010D01 0 2)).copyH :=
  ⟨witness_DecodeColorPixels.2.1, by simp [decState, frameFormat, getBit], witness_DecodeColorPixels.2.2.1,
    witness_DecodeColorPixels.2.2.2⟩

theorem witness_FetchedCodesAreBuilt : (frameFormat (0x00A : Word)).mono = false := by decide


theorem encodeColorCheck_encState (page : Nat)
    (hp : (page = 1 ∧ Config.cmcPage.toNat ≠ 1) ∨ (page = 2 ∧ Config.cmcPage.toNat ≠ 2)) :
    encodeColorCheck Config.params (encState page 0x01000D01 3) = none := by
  have h : Config.params.cmcBase = Config.cmcPage.toNat * 4096 := rfl
  rcases hp with ⟨rfl, hp⟩ | ⟨rfl, hp⟩ <;>
    simp [encodeColorCheck, firstFailure, encState, encodeNull, encFormat, colourModel, classify, isYCgCoFamily,
      encodeStrideShort, encodeWrites, encChromaW, encChromaH, chromaDim, cfmtXsh, cfmtYsh, surfaceBuffer,
      planeBuffer, pixelFormat, bpp, channelBytes, getField, addressesOk, bufferAligned, bufferInRange,
      bufferClearOfWindow, bufferEnd, writesApart, buffersApart, h] <;> omega

theorem encodeAlphaCheck_encState (page : Nat)
    (hp : (page = 1 ∧ Config.cmcPage.toNat ≠ 1) ∨ (page = 2 ∧ Config.cmcPage.toNat ≠ 2)) :
    encodeAlphaCheck Config.params (encState page 0 0) = none := by
  have h : Config.params.cmcBase = Config.cmcPage.toNat * 4096 := rfl
  rcases hp with ⟨rfl, hp⟩ | ⟨rfl, hp⟩ <;>
    simp [encodeAlphaCheck, firstFailure, encState, encodeNull, encodeStrideShort, encodeWrites, encChromaW,
      encChromaH, chromaDim, cfmtXsh, cfmtYsh, surfaceBuffer, planeBuffer, pixelFormat, bpp, channelBytes, getField,
      addressesOk, bufferAligned, bufferInRange, bufferClearOfWindow, bufferEnd, writesApart, buffersApart, h] <;>
    omega

theorem decodeColorCheck_decState (page : Nat)
    (hp : (page = 1 ∧ Config.cmcPage.toNat ≠ 1) ∨ (page = 2 ∧ Config.cmcPage.toNat ≠ 2)) :
    decodeColorCheck Config.params (decState page 0 0x008 0x01010D01 0 0) = none := by
  have h : Config.params.cmcBase = Config.cmcPage.toNat * 4096 := rfl
  rcases hp with ⟨rfl, hp⟩ | ⟨rfl, hp⟩ <;>
    simp [decodeColorCheck, firstFailure, decState, frameFormat, effectiveModel, colourModel, cmValid, classify,
      isYCgCoFamily, isYCgCoR, depthOk, decodeEmpty, decodeStrideShort, chromaStrideShort, decodeColorReads, yBuffer,
      decodeUPlane, decodeVPlane, decChromaW, decChromaH, chromaDim, bps, surfaceBuffer, planeBuffer, pixelFormat,
      bpp, channelBytes, sizeDiffers, checkSize, validateTile, isFirstTile, tileCol, tileRow, bank, getField, getBit,
      addressesOk, bufferAligned, bufferInRange, bufferClearOfWindow, bufferEnd, writesApart, buffersApart,
      State.reset, h] <;> omega

theorem decodeAlphaCheck_decState (page : Nat)
    (hp : (page = 1 ∧ Config.cmcPage.toNat ≠ 1) ∨ (page = 2 ∧ Config.cmcPage.toNat ≠ 2)) :
    decodeAlphaCheck Config.params (decState page 0 0x008 0x01010D01 0 0) = none := by
  have h : Config.params.cmcBase = Config.cmcPage.toNat * 4096 := rfl
  rcases hp with ⟨rfl, hp⟩ | ⟨rfl, hp⟩ <;>
    simp [decodeAlphaCheck, firstFailure, decState, frameFormat, depthOk, decodeEmpty, decodeStrideShort, yBuffer,
      bps, surfaceBuffer, planeBuffer, pixelFormat, bpp, channelBytes, sizeDiffers, checkSize, validateTile,
      isFirstTile, tileCol, tileRow, bank, getField, getBit, addressesOk, bufferAligned, bufferInRange,
      bufferClearOfWindow, bufferEnd, writesApart, buffersApart, State.reset, h] <;> omega

theorem codeOf_succeed (s : State) : codeOf (succeed s) = 0 := statusWithCode_code s.status .ok

/-- What ENCODE_COLOR of the Identity witness leaves. -/
def encodedWitness (page : Nat) : State := succeed (encodeColorEffect Config.params (encState page 0x01000D01 3))

/-- What ENCODE_ALPHA of the witness leaves. -/
def alphaWitness (page : Nat) : State := succeed (encodeAlphaEffect (encState page 0 0))

/-- A surface of the same size elsewhere in the page. -/
def witnessSurface (page : Nat) : Surface := ⟨BitVec.ofNat 32 (page * 4096 + 0x400), 12, 3, 3, 0⟩

theorem witness_DecodeIgnoresEarlierTables :
    ∃ t u, exec .decodeColor (decState freePage 0 0x008 0x01010D01 0 0) = .next t ∧ codeOf t = 0 ∧
      exec .decodeAlpha (decState freePage 0 0x008 0x01010D01 0 0) = .next u ∧ codeOf u = 0 ∧
      memWf (decState freePage 0 0x008 0x01010D01 0 0).mem = true := by
  refine ⟨succeed (decodeColorEffect Config.params (decState freePage 0 0x008 0x01010D01 0 0)),
    succeed (decodeAlphaEffect Config.params (decState freePage 0 0x008 0x01010D01 0 0)), ?_, codeOf_succeed _, ?_,
    codeOf_succeed _, memWf_decState _ _ _ _ _ _ freePage_one_or_two⟩
  · simp only [exec, execDecodeColor]
    rw [decodeColorCheck_decState _ freePage_cases, command_succeeds]
  · simp only [exec, execDecodeAlpha]
    rw [decodeAlphaCheck_decState _ freePage_cases, command_succeeds]

theorem witness_UvSwapExchangesPlanes :
    ∃ t, exec .decodeColor (decState freePage 0 0x008 0x01010D01 0 0) = .next t ∧ codeOf t = 0 := by
  obtain ⟨t, _, h1, h2, _⟩ := witness_DecodeIgnoresEarlierTables
  exact ⟨t, h1, h2⟩

theorem witness_IdentityRoundTrip :
    memWf (encState freePage 0x01000D01 3).mem = true ∧
      (encState freePage 0x01000D01 3).cm.toNat / 2 ^ 16 % 2 ^ 8 = 0 ∧
      (encState freePage 0x01000D01 3).encCtrl.toNat % 2 ^ 3 = 3 ∧
      encodeColorVerdict Config.params (encState freePage 0x01000D01 3) = none ∧
      exec .encodeColor (encState freePage 0x01000D01 3) = .next (encodedWitness freePage) ∧
      (witnessSurface freePage).width = (encState freePage 0x01000D01 3).surf.width ∧
      (witnessSurface freePage).height = (encState freePage 0x01000D01 3).surf.height ∧
      (witnessSurface freePage).fmt.toNat % 2 ^ 2 = 0 ∧
      decodeColorVerdict Config.params
        { encodedWitness freePage with surf := witnessSurface freePage, cm := 0, tile := 0, decCtrl := 0 } = none := by
  have h : Config.params.cmcBase = Config.cmcPage.toNat * 4096 := rfl
  have he : exec .encodeColor (encState freePage 0x01000D01 3) = .next (encodedWitness freePage) := by
    simp only [exec, execEncodeColor]
    rw [encodeColorCheck_encState _ freePage_cases, command_succeeds, encodedWitness]
  have hv := encodeColorVerdict_encState _ 0x01000D01 3 freePage_cases (by decide)
  have hd : decodeColorVerdict Config.params
      { encodedWitness freePage with surf := witnessSurface freePage, cm := 0, tile := 0, decCtrl := 0 } = none := by
    rcases freePage_cases with ⟨e, hp⟩ | ⟨e, hp⟩ <;> rw [e] <;>
      simp [encodedWitness, witnessSurface, succeed, encodeColorEffect, resolveInto, writeResolved, encodedFrame,
        encodedFrameFormat, encFormat, colourModel, cfmtMono, cfmtXsh, cfmtYsh, bitNat, packModel,
        decodeColorVerdict, encState, getField, getBit, frameFormat, addressesOk, bufferAligned, bufferInRange,
        bufferClearOfWindow, bufferEnd, writesApart, buffersApart, surfaceBuffer, pixelFormat, bpp, channelBytes,
        sizeMismatch, tileVerdict, bank, State.reset, h] <;>
      omega
  refine ⟨memWf_encState _ _ _ freePage_one_or_two, ?_, ?_, hv, he, ?_, ?_, ?_, hd⟩ <;>
    rcases freePage_one_or_two with e | e <;> rw [e] <;> rfl

theorem witness_AlphaRoundTrip :
    memWf (encState freePage 0 0).mem = true ∧ encodeAlphaVerdict Config.params (encState freePage 0 0) = none ∧
      exec .encodeAlpha (encState freePage 0 0) = .next (alphaWitness freePage) ∧
      (witnessSurface freePage).width = (encState freePage 0 0).surf.width ∧
      (witnessSurface freePage).height = (encState freePage 0 0).surf.height ∧
      (witnessSurface freePage).fmt.toNat % 2 ^ 2 = 0 ∧
      decodeAlphaVerdict Config.params
        { alphaWitness freePage with surf := witnessSurface freePage, cm := 0, tile := 0, decCtrl := 0 } = none := by
  have h : Config.params.cmcBase = Config.cmcPage.toNat * 4096 := rfl
  have he : exec .encodeAlpha (encState freePage 0 0) = .next (alphaWitness freePage) := by
    simp only [exec, execEncodeAlpha]
    rw [encodeAlphaCheck_encState _ freePage_cases, command_succeeds, alphaWitness]
  have hv := encodeAlphaVerdict_encState _ 0 0 freePage_cases
  have hd : decodeAlphaVerdict Config.params
      { alphaWitness freePage with surf := witnessSurface freePage, cm := 0, tile := 0, decCtrl := 0 } = none := by
    rcases freePage_cases with ⟨e, hp⟩ | ⟨e, hp⟩ <;> rw [e] <;>
      simp [alphaWitness, witnessSurface, succeed, encodeAlphaEffect, encodedFrame, encodedFrameFormat, cfmtMono,
        cfmtXsh, cfmtYsh, bitNat, packModel, decodeAlphaVerdict, encState, getField, getBit, frameFormat,
        addressesOk, bufferAligned, bufferInRange, bufferClearOfWindow, bufferEnd, writesApart, buffersApart,
        surfaceBuffer, pixelFormat, bpp, channelBytes, sizeMismatch, tileVerdict, bank, State.reset, h] <;>
      omega
  refine ⟨memWf_encState _ _ _ freePage_one_or_two, hv, he, ?_, ?_, ?_, hd⟩ <;>
    rcases freePage_one_or_two with e | e <;> rw [e] <;> rfl

/-! ### Tiles and the invariant -/

theorem witness_TileValidateRecordsFirstTile :
    (firstTile 0).frm.width ≠ 0 ∧ (firstTile 0).frm.height ≠ 0 ∧ (firstTile 0).tile = 0 := by decide

/-- The smallest column and the smallest row of a later tile; and an empty frame. -/
theorem witness_TileValidateComparesLaterTile :
    (firstTile 0).frm.width ≠ 0 ∧ (firstTile 0).frm.height ≠ 0 ∧
      ({ firstTile 0 with tile := 1 } : State).tile ≠ 0 ∧ ({ firstTile 0 with tile := 0x10000 } : State).tile ≠ 0 ∧
      State.reset.frm.width = 0 := by decide

/-- The state TILE_RESET of a bank leaves, of a later tile whose decode passes with `TILE` 0. -/
theorem witness_FirstTileFirst :
    let s : State := { decState freePage 0 0x008 0x01010D01 0 0 with tile := 1 }
    let t0 : State := { s with ts0 := ⟨0, 0, 0, 0⟩ }
    let t1 : State := { s with ts1 := ⟨0, 0, 0, 0⟩ }
    exec (.tileReset 0) s = .next t0 ∧ exec (.tileReset 1) s = .next t1 ∧ s.tile ≠ 0 ∧ s.frm.width ≠ 0 ∧
      s.frm.height ≠ 0 ∧ decodeColorVerdict Config.params { t0 with tile := 0 } = none ∧
      decodeAlphaVerdict Config.params { t1 with tile := 0 } = none := by
  have h : Config.params.cmcBase = Config.cmcPage.toNat * 4096 := rfl
  refine ⟨rfl, rfl, by decide, by decide, by decide, ?_, ?_⟩ <;>
    rcases freePage_cases with ⟨e, hp⟩ | ⟨e, hp⟩ <;> rw [e] <;>
    simp [decodeColorVerdict, decodeAlphaVerdict, decState, getField, getBit, frameFormat, addressesOk, bufferAligned,
      bufferInRange, bufferClearOfWindow, bufferEnd, writesApart, buffersApart, surfaceBuffer, pixelFormat, bpp,
      channelBytes, sizeMismatch, tileVerdict, bank, State.reset, h] <;> omega

theorem witness_PlacementRectangle :
    0 < (placement (decState 1 0 0x308 0 0 0)).copyW ∧ 0 < (placement (decState 1 0 0x308 0 0 0)).copyH := by decide

/-- The invariant at a state that records something, with a step that answers a next state. -/
theorem witness_StepKeepsInvariant :
    ∃ s t : State, Inv s ∧ s.mem ≠ [] ∧ step s = .next t := by
  refine ⟨{ State.reset with mem := [(7, 1)], ts0 := ⟨64, 64, 0x00030208, 0x01010D01⟩, host := [rd .id] }, _,
    ⟨rfl, ?_, by unfold statusLegal; decide, ?_, ?_, by unfold bankLegal; decide, by unfold bankLegal; decide⟩,
    by decide, rfl⟩
  · intro r
    cases r <;> first
      | rfl
      | (simp only [regMask]; exact BitVec.and_zero)
  · rfl
  · exact ⟨rfl, rfl⟩
end Sys2Proof.Tests
end

