-- ==== Sys2Proof/Proofs/Binary32.lean ====
section
/-! PROOFS. The arithmetic of `NUM` (00_scope.md rules R5, R8, R13). A value is written as sign times ulps times unit,
the unit being the binary32 step around its magnitude; what rounding does is then a fact about rounding the ulps to an
integer. -/

namespace Sys2Proof.Binary32
open Sys2Proof.Machine

/-! ### Rounding a fraction to an integer -/

/-- The two ways `roundHalfEven` goes, to the quotient or to its successor, with what a tie says of the result. -/
theorem roundHalfEven_cases (n d : Nat) :
    (roundHalfEven n d = n / d ∧ 2 * (n % d) ≤ d ∧ (2 * (n % d) = d → roundHalfEven n d % 2 = 0)) ∨
    (roundHalfEven n d = n / d + 1 ∧ d ≤ 2 * (n % d) ∧ (2 * (n % d) = d → roundHalfEven n d % 2 = 0)) := by
  simp only [roundHalfEven]
  split_ifs <;> omega

/-- The distance to the rounded integer is at most one half, and one half only where that integer is even. -/
theorem roundHalfEven_half {n d : Nat} (hd : 0 < d) :
    2 * |(n / d : Rat) - roundHalfEven n d| ≤ 1 ∧
      (2 * |(n / d : Rat) - roundHalfEven n d| = 1 → roundHalfEven n d % 2 = 0) := by
  have hd' : (0 : Rat) < d := by exact_mod_cast hd
  have hr : ((n % d : Nat) : Rat) < d := by exact_mod_cast Nat.mod_lt n hd
  have hx : (n / d : Rat) = (n / d : Nat) + (n % d : Nat) / d := by
    rw [eq_comm, eq_div_iff hd'.ne', add_mul, div_mul_cancel₀ _ hd'.ne', mul_comm]
    exact_mod_cast Nat.div_add_mod n d
  rcases roundHalfEven_cases n d with ⟨hm, hle, htie⟩ | ⟨hm, hle, htie⟩
  · have habs : |(n / d : Rat) - roundHalfEven n d| = (n % d : Nat) / d := by
      rw [hx, hm, add_sub_cancel_left, abs_of_nonneg (by positivity)]
    rw [habs, ← mul_div_assoc, div_le_one hd', div_eq_one_iff_eq hd'.ne']
    exact ⟨by exact_mod_cast hle, fun h => htie (by exact_mod_cast h)⟩
  · have habs : |(n / d : Rat) - roundHalfEven n d| = (d - (n % d : Nat)) / d := by
      rw [hx, hm, Nat.cast_add_one, add_sub_add_left_eq_sub, abs_sub_comm,
        abs_of_nonneg (sub_nonneg.2 ((div_le_one hd').2 hr.le)), sub_div, div_self hd'.ne']
    have hle' : (d : Rat) ≤ 2 * (n % d : Nat) := by exact_mod_cast hle
    rw [habs, ← mul_div_assoc, div_le_one hd', div_eq_one_iff_eq hd'.ne']
    refine ⟨by linarith, fun h => htie ?_⟩
    have h2 : (2 * (n % d : Nat) : Rat) = d := by linarith
    exact_mod_cast h2

/-- An integer within one half of `x` is at least as near to `x` as `y`, and equally near as a different `y` only at
distance one half; for `y` an integer, or one parted from `x` by an integer. -/
theorem nearest_of_half {x y : Rat} {m : Int} (hm : 2 * |x - m| ≤ 1)
    (hy : (∃ j : Int, y = j) ∨ ∃ k : Int, y < k ∧ (k : Rat) ≤ x) :
    |x - m| ≤ |x - y| ∧ (|x - m| = |x - y| → y ≠ m → 2 * |x - m| = 1) := by
  have apart (j : Int) (hj : j ≠ m) : 1 ≤ |x - m| + |x - j| := calc
    (1 : Rat) ≤ |(m - j : Rat)| := by exact_mod_cast Int.one_le_abs (sub_ne_zero.2 hj.symm)
    _ = |(x - j) - (x - m)| := by rw [sub_sub_sub_cancel_left]
    _ ≤ |x - m| + |x - j| := by rw [add_comm]; exact abs_sub _ _
  have near (j : Int) : |x - m| ≤ |x - j| := by
    by_cases hj : j = m
    · rw [hj]
    · linarith [apart j hj]
  rcases hy with ⟨j, rfl⟩ | ⟨k, hyk, hkx⟩
  · refine ⟨near j, fun heq hne => ?_⟩
    have := apart j (by exact_mod_cast hne)
    linarith
  · have hlt : |x - m| < |x - y| := calc
      |x - m| ≤ |x - k| := near k
      _ = x - k := abs_of_nonneg (by linarith)
      _ < x - y := by linarith
      _ ≤ |x - y| := le_abs_self _
    exact ⟨hlt.le, fun heq => absurd heq hlt.ne⟩

/-! ### Sign, ulps and unit of a value -/

/-- The sign the model reads off the numerator. -/
def f32Sign (v : Rat) : Rat := if v.num < 0 then -1 else 1

/-- The step of the binary32 values around `|v|`. -/
def f32Unit (v : Rat) : Rat := 2 ^ f32Step v / 2 ^ 149

/-- `|v|` in units. -/
def f32Ulps (v : Rat) : Rat := (f32Scaled v : Rat) / (v.den * 2 ^ f32Step v : Nat)

theorem f32Sign_mul_self (v : Rat) : f32Sign v * f32Sign v = 1 := by
  unfold f32Sign
  split_ifs <;> norm_num

theorem abs_f32Sign (v : Rat) : |f32Sign v| = 1 := by
  unfold f32Sign
  split_ifs <;> norm_num

theorem abs_f32Sign_mul (v x : Rat) : |f32Sign v * x| = |x| := by rw [abs_mul, abs_f32Sign, one_mul]

theorem f32Unit_pos (v : Rat) : 0 < f32Unit v := by
  unfold f32Unit
  positivity

theorem f32Sign_mul_abs (v : Rat) : f32Sign v * |v| = v := by
  unfold f32Sign
  split_ifs with h
  · rw [abs_of_neg (Rat.num_neg.1 h), neg_one_mul, neg_neg]
  · rw [abs_of_nonneg (Rat.num_nonneg.1 (not_lt.1 h)), one_mul]

theorem f32Scaled_div_den (v : Rat) : (f32Scaled v / v.den : Rat) = |v| * 2 ^ 149 := by
  have hv : |v| = v.num.natAbs / v.den := by
    conv_lhs => rw [← Rat.num_div_den v, abs_div, Nat.abs_cast]
    rw [Nat.cast_natAbs, Int.cast_abs]
  rw [f32Scaled, hv]
  push_cast
  ring

theorem f32Ulps_mul_f32Unit (v : Rat) : f32Ulps v * f32Unit v = |v| := by
  have h := f32Scaled_div_den v
  rw [f32Ulps, f32Unit, Nat.cast_mul, ← div_div, h]
  push_cast
  field_simp

theorem eq_sign_ulps_unit (v : Rat) : v = f32Sign v * (f32Ulps v * f32Unit v) := by
  rw [f32Ulps_mul_f32Unit, f32Sign_mul_abs]

/-- A magnitude is below `2^24` of its units. -/
theorem f32Ulps_lt (v : Rat) : f32Ulps v < 2 ^ 24 := by
  have hlog : f32Scaled v / v.den < 2 ^ (24 + f32Step v) :=
    Nat.lt_log2_self.trans_le (Nat.pow_le_pow_right (by norm_num) (by unfold f32Step; omega))
  have hnat : f32Scaled v < 2 ^ (24 + f32Step v) * v.den := (Nat.div_lt_iff_lt_mul v.den_pos).1 hlog
  rw [f32Ulps, div_lt_iff₀ (by exact_mod_cast Nat.mul_pos v.den_pos (Nat.two_pow_pos _))]
  calc (f32Scaled v : Rat) < (2 ^ (24 + f32Step v) * v.den : Nat) := by exact_mod_cast hnat
    _ = 2 ^ 24 * (v.den * 2 ^ f32Step v : Nat) := by push_cast; ring

/-- Above the least unit, a magnitude is at least `2^23` of its units. -/
theorem le_f32Ulps {v : Rat} (h : f32Step v ≠ 0) : 2 ^ 23 ≤ f32Ulps v := by
  have hne : f32Scaled v / v.den ≠ 0 := fun h0 => h (by rw [f32Step, h0]; decide)
  have hlog : 2 ^ (23 + f32Step v) ≤ f32Scaled v / v.den :=
    (Nat.pow_le_pow_right (by norm_num) (by unfold f32Step at *; omega)).trans (Nat.log2_self_le hne)
  have hnat : 2 ^ (23 + f32Step v) * v.den ≤ f32Scaled v := (Nat.le_div_iff_mul_le v.den_pos).1 hlog
  rw [f32Ulps, le_div_iff₀ (by exact_mod_cast Nat.mul_pos v.den_pos (Nat.two_pow_pos _))]
  calc (2 ^ 23 * (v.den * 2 ^ f32Step v : Nat) : Rat) = (2 ^ (23 + f32Step v) * v.den : Nat) := by push_cast; ring
    _ ≤ f32Scaled v := by exact_mod_cast hnat

/-! ### The mantissa -/

/-- The mantissa is within one half of the ulps, at one half only if it is even. -/
theorem f32Mantissa_half (v : Rat) :
    2 * |f32Ulps v - f32Mantissa v| ≤ 1 ∧ (2 * |f32Ulps v - f32Mantissa v| = 1 → f32Mantissa v % 2 = 0) :=
  roundHalfEven_half (Nat.mul_pos v.den_pos (Nat.two_pow_pos _))

theorem f32Mantissa_le (v : Rat) : f32Mantissa v ≤ 2 ^ 24 := by
  have hhalf := neg_le_of_abs_le (a := f32Ulps v - f32Mantissa v) (b := 1 / 2) (by linarith [(f32Mantissa_half v).1])
  have hlt : (f32Mantissa v : Rat) < (2 ^ 24 + 1 : Nat) := by push_cast; linarith [f32Ulps_lt v]
  exact Nat.lt_succ_iff.1 (by exact_mod_cast hlt)

theorem le_f32Mantissa {v : Rat} (h : f32Step v ≠ 0) : 2 ^ 23 ≤ f32Mantissa v := by
  have hhalf := le_of_abs_le (a := f32Ulps v - f32Mantissa v) (b := 1 / 2) (by linarith [(f32Mantissa_half v).1])
  have hlt : (2 ^ 23 : Nat) < (f32Mantissa v + 1 : Rat) := by push_cast; linarith [le_f32Ulps h]
  exact Nat.lt_succ_iff.1 (by exact_mod_cast hlt)

theorem f32Magnitude_lt {v : Rat} (h : f32Overflows v = false) : f32Magnitude v < 255 * 2 ^ 23 :=
  not_le.1 (of_decide_eq_false h)

/-! ### The rounded value -/

/-- Rounding keeps the sign and the unit and rounds the ulps to the mantissa. -/
theorem roundF32_eq {v : Rat} (h : f32Overflows v = false) :
    roundF32 v = f32Sign v * (f32Mantissa v * f32Unit v) := by
  simp only [roundF32, h, Bool.false_eq_true, if_false, Rat.mkRat_eq_div, f32Sign, f32Unit]
  push_cast
  split_ifs <;> ring

/-- The binary32 values by their magnitude. -/
theorem isBinary32_iff_abs {w : Rat} :
    isBinary32 w ↔ ∃ m e : Nat, m < 2 ^ 24 ∧ e ≤ 253 ∧ |w| = m * (2 ^ e / 2 ^ 149) := by
  have habs (m e : Nat) : (w = mkRat (m * 2 ^ e) (2 ^ 149) ∨ w = -mkRat (m * 2 ^ e) (2 ^ 149)) ↔
      |w| = m * (2 ^ e / 2 ^ 149) := by
    rw [Rat.mkRat_eq_div, abs_eq (by positivity), Int.cast_mul, Int.cast_pow, Int.cast_natCast, Int.cast_ofNat,
      Nat.cast_pow, Nat.cast_ofNat, mul_div_assoc]
  simp only [isBinary32, habs]

theorem isBinary32_roundF32 {v : Rat} (h : f32Overflows v = false) : isBinary32 (roundF32 v) := by
  have hM : f32Step v * 2 ^ 23 + f32Mantissa v < 255 * 2 ^ 23 := f32Magnitude_lt h
  have habs : |roundF32 v| = f32Mantissa v * f32Unit v := by
    rw [roundF32_eq h, abs_f32Sign_mul, abs_of_nonneg (mul_nonneg (Nat.cast_nonneg _) (f32Unit_pos v).le)]
  have hlow : f32Step v = 0 ∨ 2 ^ 23 ≤ f32Mantissa v := or_iff_not_imp_left.2 le_f32Mantissa
  rw [isBinary32_iff_abs, habs]
  rcases (f32Mantissa_le v).lt_or_eq with hlt | hcarry
  · exact ⟨f32Mantissa v, f32Step v, hlt, by omega, rfl⟩
  · refine ⟨2 ^ 23, f32Step v + 1, by norm_num, by omega, ?_⟩
    rw [hcarry, f32Unit]
    push_cast
    ring

/-- A binary32 value is a whole number of the units of `v`, or below `2^23` of them. -/
theorem isBinary32_in_units {w : Rat} (hw : isBinary32 w) (v : Rat) :
    (∃ j : Int, f32Sign v * w / f32Unit v = j) ∨ (f32Step v ≠ 0 ∧ f32Sign v * w / f32Unit v < 2 ^ 23) := by
  obtain ⟨m, e, hm, -, habs⟩ := isBinary32_iff_abs.1 hw
  have habs' : |f32Sign v * w / f32Unit v| = m * (2 ^ e / 2 ^ f32Step v) := by
    rw [abs_div, abs_f32Sign_mul, habs, abs_of_pos (f32Unit_pos v), f32Unit]
    field_simp
  rcases le_or_gt (f32Step v) e with hle | hlt
  · have hnat : |f32Sign v * w / f32Unit v| = (m * 2 ^ (e - f32Step v) : Nat) := by
      rw [habs', Nat.cast_mul, Nat.cast_pow, Nat.cast_ofNat, pow_sub₀ _ two_ne_zero hle, div_eq_mul_inv]
    rcases eq_or_eq_neg_of_abs_eq hnat with hpos | hneg
    · exact .inl ⟨(m * 2 ^ (e - f32Step v) : Nat), by rw [hpos, Int.cast_natCast]⟩
    · exact .inl ⟨-(m * 2 ^ (e - f32Step v) : Nat), by rw [hneg, Int.cast_neg, Int.cast_natCast]⟩
  · refine .inr ⟨by omega, (le_abs_self _).trans_lt ?_⟩
    have hpow : (2 ^ (e + 1) : Rat) ≤ 2 ^ f32Step v := pow_le_pow_right₀ one_le_two hlt
    have hm' : (m : Rat) < 2 ^ 24 := by exact_mod_cast hm
    rw [habs', mul_div_assoc', div_lt_iff₀ (by positivity)]
    calc (m * 2 ^ e : Rat) < 2 ^ 24 * 2 ^ e := by gcongr
      _ = 2 ^ 23 * 2 ^ (e + 1) := by ring
      _ ≤ 2 ^ 23 * 2 ^ f32Step v := by gcongr

/-- No binary32 value is nearer to `v` than the rounded value, and of two equally near ones the mantissa is even. -/
theorem roundF32_nearest {v w : Rat} (h : f32Overflows v = false) (hw : isBinary32 w) :
    |v - roundF32 v| ≤ |v - w| ∧
      (|v - roundF32 v| = |v - w| → w ≠ roundF32 v → f32Mantissa v % 2 = 0) := by
  have hu := f32Unit_pos v
  obtain ⟨y, hy⟩ : ∃ y, y = f32Sign v * w / f32Unit v := ⟨_, rfl⟩
  have hwy : w = f32Sign v * (y * f32Unit v) := by
    rw [hy, div_mul_cancel₀ _ hu.ne', ← mul_assoc, f32Sign_mul_self, one_mul]
  have hdist (z : Rat) : |v - f32Sign v * (z * f32Unit v)| = |f32Ulps v - z| * f32Unit v := calc
    _ = |f32Sign v * ((f32Ulps v - z) * f32Unit v)| := by rw [sub_mul, mul_sub, ← eq_sign_ulps_unit]
    _ = |f32Ulps v - z| * f32Unit v := by rw [abs_f32Sign_mul, abs_mul, abs_of_pos hu]
  have hcases : (∃ j : Int, y = j) ∨ ∃ k : Int, y < k ∧ (k : Rat) ≤ f32Ulps v :=
    (isBinary32_in_units hw v).imp (fun ⟨j, hj⟩ => ⟨j, hy.trans hj⟩) fun ⟨hstep, hlt⟩ =>
      ⟨2 ^ 23, by rw [hy]; exact_mod_cast hlt, by exact_mod_cast le_f32Ulps hstep⟩
  obtain ⟨hhalf, heven⟩ := f32Mantissa_half v
  obtain ⟨hnear, htie⟩ := nearest_of_half (m := f32Mantissa v) (by exact_mod_cast hhalf) hcases
  rw [Int.cast_natCast] at hnear htie
  rw [roundF32_eq h, hwy, hdist, hdist]
  refine ⟨mul_le_mul_of_nonneg_right hnear hu.le, fun heq hne => heven (htie (mul_right_cancel₀ hu.ne' heq) ?_)⟩
  rintro rfl
  exact hne rfl

/-! ### The pattern -/

/-- The magnitude an exponent field and a fraction field stand for. -/
def fieldValue (e f : Nat) : Rat := if e = 0 then f / 2 ^ 149 else (2 ^ 23 + f) * 2 ^ (e - 1) / 2 ^ 149

theorem fieldValue_eq_mkRat (e f : Nat) :
    fieldValue e f = if e = 0 then mkRat f (2 ^ 149) else mkRat ((2 ^ 23 + f) * 2 ^ (e - 1)) (2 ^ 149) := by
  simp only [fieldValue, Rat.mkRat_eq_div]
  push_cast
  rfl

theorem binary32Value_eq (w : Word) :
    binary32Value w =
      (if w.getLsbD 31 then -1 else 1) * fieldValue (w.toNat / 2 ^ 23 % 2 ^ 8) (w.toNat % 2 ^ 23) := by
  rw [fieldValue_eq_mkRat]
  unfold binary32Value
  cases w.getLsbD 31
  · exact (one_mul _).symm
  · exact (neg_one_mul _).symm

/-- Adding a mantissa to the exponent of its step gives the fields of its value: a mantissa below `2^23` is
subnormal, one of `2^24` carries into the next exponent. -/
theorem fieldValue_step_mantissa {e m : Nat} (hlow : e = 0 ∨ 2 ^ 23 ≤ m) (hhigh : m ≤ 2 ^ 24) :
    fieldValue ((e * 2 ^ 23 + m) / 2 ^ 23) ((e * 2 ^ 23 + m) % 2 ^ 23) = m * (2 ^ e / 2 ^ 149) := by
  have hm : m < 2 ^ 23 ∨ (∃ f, f < 2 ^ 23 ∧ m = 2 ^ 23 + f) ∨ m = 2 ^ 24 := by
    rcases lt_or_ge m (2 ^ 23) with hsub | hnormal
    · exact .inl hsub
    · exact .inr (hhigh.lt_or_eq.imp_left fun hlt => ⟨m - 2 ^ 23, by omega, by omega⟩)
  rcases hm with hsub | ⟨f, hf, rfl⟩ | rfl
  · obtain rfl : e = 0 := by omega
    rw [show (0 * 2 ^ 23 + m) / 2 ^ 23 = 0 by omega, show (0 * 2 ^ 23 + m) % 2 ^ 23 = m by omega]
    simp only [fieldValue, if_true, pow_zero]
    ring
  · rw [show (e * 2 ^ 23 + (2 ^ 23 + f)) / 2 ^ 23 = e + 1 by omega,
      show (e * 2 ^ 23 + (2 ^ 23 + f)) % 2 ^ 23 = f by omega]
    simp only [fieldValue, e.succ_ne_zero, if_false, Nat.add_sub_cancel]
    push_cast
    ring
  · rw [show (e * 2 ^ 23 + 2 ^ 24) / 2 ^ 23 = e + 2 by omega, show (e * 2 ^ 23 + 2 ^ 24) % 2 ^ 23 = 0 by omega]
    simp only [fieldValue, Nat.succ_ne_zero, if_false, Nat.cast_zero]
    push_cast
    ring

/-- The pattern of a value within the range: the magnitude, and bit 31 for a negative value that does not round to
zero. -/
theorem enc32_toNat {v : Rat} (h : f32Overflows v = false) :
    (enc32 v).toNat = (if v.num < 0 ∧ f32Magnitude v ≠ 0 then 2 ^ 31 else 0) + f32Magnitude v := by
  have hM := f32Magnitude_lt h
  simp only [enc32, h, Bool.false_eq_true, if_false]
  split_ifs <;> rw [BitVec.toNat_ofNat, Nat.mod_eq_of_lt] <;> omega

theorem enc32_exponent {v : Rat} (h : f32Overflows v = false) :
    (enc32 v).toNat / 2 ^ 23 % 2 ^ 8 = f32Magnitude v / 2 ^ 23 := by
  have hM := f32Magnitude_lt h
  rw [enc32_toNat h]
  split_ifs <;> omega

theorem enc32_fraction {v : Rat} (h : f32Overflows v = false) :
    (enc32 v).toNat % 2 ^ 23 = f32Magnitude v % 2 ^ 23 := by
  rw [enc32_toNat h]
  split_ifs <;> omega

theorem enc32_sign {v : Rat} (h : f32Overflows v = false) :
    (enc32 v).getLsbD 31 = decide (v.num < 0 ∧ f32Magnitude v ≠ 0) := by
  have hM := f32Magnitude_lt h
  rw [BitVec.getLsbD, enc32_toNat h, Nat.testBit_eq_decide_div_mod_eq, decide_eq_decide]
  split_ifs with hs
  · exact iff_of_true (by omega) hs
  · exact iff_of_false (by omega) hs

/-- The last bit of the pattern is the mantissa's parity. -/
theorem enc32_even {v : Rat} (h : f32Overflows v = false) (heven : f32Mantissa v % 2 = 0) :
    (enc32 v).getLsbD 0 = false := by
  rw [BitVec.getLsbD, enc32_toNat h, Nat.testBit_zero, decide_eq_false_iff_not, f32Magnitude]
  split_ifs <;> omega

/-- The fields of the pattern give back the rounded value. -/
theorem binary32Value_enc32 {v : Rat} (h : f32Overflows v = false) : binary32Value (enc32 v) = roundF32 v := by
  have hval : fieldValue (f32Magnitude v / 2 ^ 23) (f32Magnitude v % 2 ^ 23) = f32Mantissa v * f32Unit v :=
    fieldValue_step_mantissa (or_iff_not_imp_left.2 le_f32Mantissa) (f32Mantissa_le v)
  rw [binary32Value_eq, enc32_exponent h, enc32_fraction h, enc32_sign h, hval, roundF32_eq h, f32Sign]
  by_cases hzero : f32Magnitude v = 0
  · have hm : f32Mantissa v = 0 := (Nat.add_eq_zero_iff.1 hzero).2
    simp [hm]
  · simp [hzero]

/-- The negative zero is no pattern of a value. -/
theorem enc32_ne_negative_zero {v : Rat} (h : f32Overflows v = false) : enc32 v ≠ 0x80000000 := by
  intro heq
  have hM := f32Magnitude_lt h
  have hnat : (enc32 v).toNat = 2 ^ 31 := by rw [heq]; rfl
  rw [enc32_toNat h] at hnat
  split_ifs at hnat with hs <;> omega

/-- Settles O19: the operations are the rounding by definition; a rounded value is nearest because its mantissa is the
nearest integer to the ulps; the pattern is read back field by field. -/
theorem binary32RoundsToNearestEven : Obligations.Binary32RoundsToNearestEven := by
  unfold Obligations.Binary32RoundsToNearestEven
  refine ⟨fun a b => ⟨rfl, rfl, rfl, rfl, rfl, rfl, rfl, rfl, rfl, rfl⟩, fun i => rfl, fun v h => ?_⟩
  have hexp : (enc32 v).toNat / 2 ^ 23 % 2 ^ 8 < 255 := by
    rw [enc32_exponent h]
    exact Nat.div_lt_of_lt_mul (by rw [mul_comm]; exact f32Magnitude_lt h)
  refine ⟨isBinary32_roundF32 h, fun w hw => ?_, binary32Value_enc32 h, enc32_ne_negative_zero h, hexp⟩
  obtain ⟨hnear, htie⟩ := roundF32_nearest h hw
  exact ⟨hnear, fun heq hne => enc32_even h (htie heq hne)⟩

end Sys2Proof.Binary32
end

