-- ==== Sys2Proof/Proofs/Quantisation.lean ====
section
/-! PROOFS. Rounding and quantisation (00_scope.md rule R9): `quant` stays in its range because rounding keeps every
bound that is itself a binary32 value. -/

namespace Sys2Proof.Quantisation
open Sys2Proof.Machine Sys2Proof.Binary32

/-! ### Bounds that rounding keeps -/

/-- Values below `2^24` are far inside the binary32 range. -/
theorem f32Overflows_eq_false {v : Rat} (h : |v| < 2 ^ 24) : f32Overflows v = false := by
  have hstep : f32Step v < 150 := by
    by_contra hge
    have hpow : (2 ^ 150 : Rat) ≤ 2 ^ f32Step v := pow_le_pow_right₀ one_le_two (not_lt.1 hge)
    have hunit : (2 : Rat) ≤ f32Unit v := by
      rw [f32Unit, le_div_iff₀ (by positivity)]
      linarith
    have hulps : 2 ^ 23 ≤ f32Ulps v := le_f32Ulps (by omega)
    have habs := f32Ulps_mul_f32Unit v
    nlinarith
  have hm := f32Mantissa_le v
  rw [f32Overflows, decide_eq_false_iff_not, f32Magnitude]
  omega

theorem roundF32_le {v hi : Rat} (h : f32Overflows v = false) (hb : isBinary32 hi) (hle : v ≤ hi) :
    roundF32 v ≤ hi := by
  have hnear := (roundF32_nearest h hb).1
  rw [abs_sub_comm v, abs_sub_comm v, abs_of_nonneg (sub_nonneg.2 hle)] at hnear
  linarith [le_abs_self (roundF32 v - v)]

theorem le_roundF32 {v lo : Rat} (h : f32Overflows v = false) (hb : isBinary32 lo) (hle : lo ≤ v) :
    lo ≤ roundF32 v := by
  have hnear := (roundF32_nearest h hb).1
  rw [abs_of_nonneg (sub_nonneg.2 hle)] at hnear
  linarith [le_abs_self (v - roundF32 v)]

/-- Multiples of one half below `2^23` are binary32 values. -/
theorem isBinary32_half_mul {k : Nat} (hk : k < 2 ^ 24) : isBinary32 (k / 2) :=
  isBinary32_iff_abs.2 ⟨k, 148, hk, by norm_num, by rw [abs_of_nonneg (by positivity)]; ring⟩

/-- Under either reading of `NUM`, a result between two multiples of one half stays between them. -/
theorem numRound_between (m : NumMode) {v : Rat} {lo hi : Nat} (hlt : hi < 2 ^ 24)
    (hlo : lo / 2 ≤ v) (hhi : v ≤ hi / 2) :
    lo / 2 ≤ numRound m v ∧ numRound m v ≤ hi / 2 := by
  have hlt' : (hi : Rat) < 2 ^ 24 := by exact_mod_cast hlt
  have hlohi : lo ≤ hi := by
    have hcast : (lo : Rat) ≤ hi := by linarith
    exact_mod_cast hcast
  have hpos : (0 : Rat) ≤ lo / 2 := by positivity
  cases m with
  | f32 =>
    have h : f32Overflows v = false := f32Overflows_eq_false (abs_lt.2 ⟨by linarith, by linarith⟩)
    exact ⟨le_roundF32 h (isBinary32_half_mul (hlohi.trans_lt hlt)) hlo, roundF32_le h (isBinary32_half_mul hlt) hhi⟩
  | exactQ => exact ⟨hlo, hhi⟩

theorem numLit_half (m : NumMode) : numLit m (1 / 2) = 1 / 2 := by
  have h := numRound_between m (v := 1 / 2) (lo := 1) (hi := 1) (by norm_num) (by norm_num) (by norm_num)
  rw [Nat.cast_one] at h
  exact le_antisymm h.2 h.1

/-! ### `rnd` and `quant` -/

theorem clamp01_mem (v : Rat) : 0 ≤ clamp01 v ∧ clamp01 v ≤ 1 := by
  unfold clamp01
  split_ifs with hneg hbig
  · exact ⟨le_rfl, zero_le_one⟩
  · exact ⟨zero_le_one, le_rfl⟩
  · exact ⟨not_lt.1 hneg, not_lt.1 hbig⟩

/-- `rnd` keeps the range of the integers: one half more than `top` is still a binary32 value. -/
theorem rnd_mem (m : NumMode) {v : Rat} {top : Nat} (htop : top < 2 ^ 22) (hlo : 0 ≤ v) (hhi : v ≤ top) :
    0 ≤ rnd m v ∧ rnd m v ≤ top := by
  obtain ⟨hge, hle⟩ := numRound_between m (v := v + 1 / 2) (lo := 1) (hi := 2 * top + 1) (by omega)
    (by push_cast; linarith) (by push_cast; linarith)
  rw [rnd, numAdd, numLit_half]
  push_cast at hge hle
  refine ⟨Rat.le_floor_iff.2 (by push_cast; linarith), Int.lt_add_one_iff.1 (Rat.floor_lt_iff.2 ?_)⟩
  push_cast
  linarith

/-- Scaling a clamped value by `top` stays between 0 and `top`. -/
theorem numMul_clamp01_mem (m : NumMode) (v : Rat) {top : Nat} (htop : top < 2 ^ 22) :
    0 ≤ numMul m (clamp01 v) (numOf top) ∧ numMul m (clamp01 v) (numOf top) ≤ top := by
  obtain ⟨hge, hle⟩ := clamp01_mem v
  have hprod : clamp01 v * (top : Rat) ≤ top := mul_le_of_le_one_left (Nat.cast_nonneg _) hle
  have h := numRound_between m (v := clamp01 v * (top : Rat)) (lo := 0) (hi := 2 * top) (by omega)
    (by push_cast; rw [zero_div]; positivity) (by push_cast; linarith)
  rwa [Nat.cast_zero, zero_div, Nat.cast_mul, Nat.cast_ofNat, mul_div_cancel_left₀ _ two_ne_zero] at h

theorem quant_eq_rnd (m : NumMode) (v : Rat) {top : Nat} (htop : top < 2 ^ 22) :
    (quant m v top : Int) = rnd m (numMul m (clamp01 v) (numOf top)) := by
  obtain ⟨hge, hle⟩ := numMul_clamp01_mem m v htop
  exact Int.toNat_of_nonneg (rnd_mem m htop hge hle).1

theorem quant_le (m : NumMode) (v : Rat) {top : Nat} (htop : top < 2 ^ 22) : quant m v top ≤ top := by
  obtain ⟨hge, hle⟩ := numMul_clamp01_mem m v htop
  exact Int.toNat_le.2 (rnd_mem m htop hge hle).2

/-- Settles O20: the clamped and scaled value is between 0 and `top`, and `rnd` keeps that range. -/
theorem quantisationRange : Obligations.QuantisationRange := by
  unfold Obligations.QuantisationRange
  intro m v
  refine ⟨rfl, fun top htop => ?_⟩
  have hlt : top < 2 ^ 22 := by omega
  exact ⟨quant_eq_rnd m v hlt, quant_le m v hlt⟩

end Sys2Proof.Quantisation
end

