-- ==== Sys2Proof/Proofs/HostAccess.lean ====
section
/-! PROOFS. The host's register accesses (10_state.md rules R21 to R24, R26, R37, R45, R47) and the command a step runs
(rule R23). A step is its next transaction: first what a register write, a register read and a command write make of a
step, then each statement from these. -/

namespace Sys2Proof.HostAccess
open Sys2Proof.Machine

/-! ### Steps of the host's script -/

theorem step_of_done {s u : State} {tx : HostTx} {rest : List HostTx} (h : s.host = tx :: rest)
    (hd : hostTransaction Config.params tx (setHost s rest) = .done u) : step s = .next u := by
  rw [step, nextTx_cons h, hd]

/-- A register write of the host is `hostWriteReg`, unless it is a write to `CMD`. -/
theorem step_wr {s : State} {r : RegName} {v : Word} {rest : List HostTx} (hr : r ≠ .cmd)
    (h : s.host = wr r v :: rest) : step s = .next (hostWriteReg (setHost s rest) r v) :=
  step_of_done h ((busRegWrite_reg r v _).trans (if_neg hr))

/-- A register read of the host is `hostReadReg`. -/
theorem step_rd {s : State} {r : RegName} {rest : List HostTx} (h : s.host = rd r :: rest) :
    step s = .next (hostReadReg (setHost s rest) r) :=
  step_of_done h (busRegRead_reg r _)

/-- A write to `CMD` runs the word written (10_state.md rule R23). -/
theorem step_cmdWrite {s : State} {w : Word} {rest : List HostTx} (h : s.host = cmdWrite w :: rest) :
    step s = runWord w (setHost s rest) := by
  rw [step, nextTx_cons h, hostTransaction_cmdWrite]

theorem step_idle {s : State} (h : s.host = []) : step s = .next s := by rw [step, nextTx_nil h]

/-! ### Registers read -/

theorem lutEntry_eq (s : State) :
    lutEntry s = (if s.lutAddr.getLsbD 16 then s.lut.chroma else s.lut.luma)[s.lutAddr.toNat % 2 ^ 16]? := by
  rw [lutEntry, getBit, getField, Nat.pow_zero, Nat.div_one, apply_ite (·[s.lutAddr.toNat % 2 ^ 16]?)]

/-- The host's script is no part of a register. -/
theorem readReg_setHost (s : State) (q : List HostTx) (r : RegName) : readReg (setHost s q) r = readReg s r := by
  cases r <;> rfl

/-- A read of any register but `LUT_DATA` uses no free value. -/
theorem hostReadReg_of_ne {r : RegName} (hr : r ≠ .lutData) (s : State) :
    hostReadReg s r = noteRead s (readReg s r) := by
  rw [hostReadReg, freeUsed, if_neg fun h => hr h.1]
  rfl

theorem hostReadReg_lutData_written {s : State} {v : Num} (h : lutEntry s = some v) :
    hostReadReg s .lutData = noteRead s (enc32 v) := by
  simp only [hostReadReg, freeUsed, readReg, lutDataRead, h]
  rfl

theorem hostReadReg_lutData_unwritten {s : State} (h : lutEntry s = none) :
    hostReadReg s .lutData =
      { noteRead s (Config.unwrittenLutWord s.freeCount) with freeCount := s.freeCount + 1 } := by
  simp only [hostReadReg, freeUsed, readReg, lutDataRead, h]
  rfl

/-- A read of any register but `LUT_DATA`, as a step. -/
theorem step_rd_of_ne {s : State} {r : RegName} {rest : List HostTx} (hr : r ≠ .lutData)
    (h : s.host = rd r :: rest) : step s = .next (noteRead (setHost s rest) (readReg s r)) := by
  rw [step_rd h, hostReadReg_of_ne hr, readReg_setHost]

/-! ### Registers written -/

theorem hostWriteReg_rw {r : RegName} (hr : regAccess r = .rw) (s : State) (v : Word) :
    hostWriteReg s r v = storeReg s (v &&& regMask r) r := by
  rw [hostWriteReg, hr]

/-- A write to a read-only register is ignored (10_state.md rule R21). -/
theorem hostWriteReg_ro {r : RegName} (hr : regAccess r = .ro) (s : State) (v : Word) : hostWriteReg s r v = s := by
  rw [hostWriteReg, hr]

/-- What a register store leaves of the state beside the registers the host writes. -/
theorem storeReg_frame (s : State) (v : Word) (r : RegName) :
    (storeReg s v r).host = s.host ∧ (storeReg s v r).hostReads = s.hostReads ∧
      (storeReg s v r).freeCount = s.freeCount ∧ (storeReg s v r).mem = s.mem ∧
      (storeReg s v r).lut = s.lut ∧ (storeReg s v r).coefs = s.coefs := by
  cases r <;> exact ⟨rfl, rfl, rfl, rfl, rfl, rfl⟩

theorem readReg_storeReg_self {r : RegName} (hr : regAccess r = .rw) (s : State) (v : Word) :
    readReg (storeReg s v r) r = v := by
  cases r <;> first | rfl | exact absurd hr (by decide)

/-- No two registers share a field of the state; `LUT_DATA` alone shows what others select. -/
theorem readReg_storeReg_of_ne {r r' : RegName} (hne : r' ≠ r) (hr' : r' ≠ .lutData) (s : State) (v : Word) :
    readReg (storeReg s v r) r' = readReg s r' := by
  cases r <;> cases r' <;> first | rfl | exact absurd rfl hne | exact absurd rfl hr'

/-! ### The register map -/

theorem enc32_zero : enc32 0 = 0 := by decide

/-- Settles O1: a fixed state, whose tables are empty; `KR`, `KG`, `KB` show the pattern of 0. -/
theorem resetRegisters : Obligations.ResetRegisters := by
  unfold Obligations.ResetRegisters
  refine ⟨fun r hr => ?_, fun a => ?_⟩
  · cases r with
    | lutData => exact absurd rfl hr
    | kr | kg | kb => exact enc32_zero
    | _ => rfl
  · rw [lutEntry_eq]
    split <;> rfl

/-- Settles O3: the map row by row; the write is `storeReg`, which changes its own register alone. -/
theorem hostRegisterWriteThenRead : Obligations.HostRegisterWriteThenRead := by
  unfold Obligations.HostRegisterWriteThenRead
  refine ⟨by decide, fun s r v rest hrw hhost => ?_⟩
  have hcmd : r ≠ .cmd := by rintro rfl; cases hrw
  have hlut : r ≠ .lutData := by rintro rfl; cases hrw
  obtain ⟨hh, hreads, hfree, hmem, htab, hcoefs⟩ := storeReg_frame (setHost s rest) (v &&& regMask r) r
  have hself := readReg_storeReg_self hrw (setHost s rest) (v &&& regMask r)
  refine ⟨storeReg (setHost s rest) (v &&& regMask r) r, ?_, hh, hreads, hfree, hmem, htab, hcoefs, hself, ?_, ?_⟩
  · rw [step_wr hcmd hhost, hostWriteReg_rw hrw]
  · intro r' hne hr'
    rw [readReg_storeReg_of_ne hne hr', readReg_setHost]
  · intro rest' hrest
    rw [step_rd_of_ne hlut (hh.trans hrest), hself, noteRead, setHost_hostReads, hreads]
    rfl

theorem regAccess_readOnly : ∀ r ∈ [RegName.id, .status, .kr, .kg, .kb, .lutData, .lutCur, .ts0Info, .ts0Cicp,
    .ts1Info, .ts1Cicp], regAccess r = .ro := by decide

/-- Settles O4: a read notes the register's value; a read-only register is not written. -/
theorem registerReadsAndReadOnly : Obligations.RegisterReadsAndReadOnly := by
  unfold Obligations.RegisterReadsAndReadOnly
  refine ⟨fun s r rest hr hhost => step_rd_of_ne hr hhost, fun s => ?_, fun s r v rest hmem hhost => ?_⟩
  · exact ⟨rfl, rfl, rfl, rfl, rfl, rfl, rfl, rfl, rfl, rfl, rfl, rfl, rfl, rfl, rfl, rfl, rfl, rfl, rfl⟩
  · have hro := regAccess_readOnly r hmem
    have hcmd : r ≠ .cmd := by rintro rfl; cases hro
    rw [step_wr hcmd hhost, hostWriteReg_ro hro]
    rfl

theorem regAt_unmapped {off : BitVec 12} (h : ∀ r : RegName, regOffset r ≠ off) : regAt off = none :=
  List.find?_eq_none.2 fun r _ hr => h r (eq_of_beq hr)

/-- Settles O5: no register stands at the offset. -/
theorem unmappedOffsets : Obligations.UnmappedOffsets := by
  unfold Obligations.UnmappedOffsets
  intro s off v rest halign hoff
  have hnone := regAt_unmapped hoff
  refine ⟨fun hhost => step_of_done hhost ?_, fun hhost => step_of_done hhost ?_⟩
  · rw [hostTransaction, busRegWrite, if_pos halign, hnone]
    rfl
  · rw [hostTransaction, busRegRead, if_pos halign, hnone]
    rfl

/-- Settles O6: the two ways a read of `LUT_DATA` goes. -/
theorem lutReadBack : Obligations.LutReadBack := by
  unfold Obligations.LutReadBack
  intro s rest hhost
  refine ⟨fun v hv => ?_, fun hnone => ⟨Config.unwrittenLutWord s.freeCount, ?_⟩⟩
  · rw [step_rd hhost, hostReadReg_lutData_written ((lutEntry_eq (setHost s rest)).trans hv)]
    rfl
  · rw [step_rd hhost, hostReadReg_lutData_unwritten ((lutEntry_eq (setHost s rest)).trans hnone)]
    rfl

/-! ### The command a step runs -/

/-- The word of a command decodes to it. -/
theorem decode_encode (i : Instr) : decode (encode i) = .ok i := by
  cases i with
  | tileValidate b => revert b; decide
  | tileReset b => revert b; decide
  | _ => decide

theorem runWord_of_decode {w : Word} {i : Instr} (h : decode w = .ok i) (s : State) : runWord w s = exec i s := by
  rw [runWord, h]

/-- Settles O14: a write to `CMD` runs the word, and the word of a command decodes to it. -/
theorem stepRunsDecodedCommand : Obligations.StepRunsDecodedCommand := by
  unfold Obligations.StepRunsDecodedCommand
  refine ⟨fun s w i rest hhost hdec => ?_, fun s i => ?_, fun s => step_idle⟩
  · rw [step_cmdWrite hhost, runWord_of_decode hdec]
    rfl
  · have hword : BitVec.ofNat 32 ((encode i).toNat % 2 ^ 32) = encode i := by
      rw [Nat.mod_eq_of_lt (encode i).isLt, BitVec.ofNat_toNat, BitVec.setWidth_eq]
    have hhost : (s.withFetchWord 32 (encode i).toNat).host = cmdWrite (encode i) :: s.host := by
      rw [State.withFetchWord, hword, setHost_host]
    rw [step_cmdWrite hhost, runWord_of_decode (decode_encode i)]
    rfl

end Sys2Proof.HostAccess
end

