-- ==== Sys2Proof/Proofs/ReservedBits.lean ====
section
/-! PROOFS. The reserved bits of the words that commands write (10_state.md rules R21, R24, R30, R31, R38, R41, R42),
and the fields those words hold. -/

namespace Sys2Proof.ReservedBits
open Sys2Proof.Machine

/-- The reserved bits of the register `r` are 0 in the word `w`. -/
def Fits (r : RegName) (w : Word) : Prop := w &&& ~~~regMask r = 0

theorem reservedClear_iff_fits {s : State} : reservedClear s ↔ ∀ r, Fits r (readReg s r) := Iff.rfl

theorem fits_iff_getLsbD {r : RegName} {w : Word} :
    Fits r w ↔ ∀ i < 32, (regMask r).getLsbD i = false → w.getLsbD i = false := by
  rw [Fits, BitVec.eq_of_getLsbD_eq_iff]
  refine forall₂_congr fun i hi => ?_
  have hzero : (0 : Word).getLsbD i = false := BitVec.getLsbD_zero
  rw [BitVec.getLsbD_and, BitVec.getLsbD_not, decide_eq_true hi, Bool.true_and, hzero]
  cases w.getLsbD i <;> cases (regMask r).getLsbD i <;> decide

theorem fits_zero (r : RegName) : Fits r 0 := BitVec.zero_and

/-- A full register has no reserved bit. -/
theorem fits_of_full {r : RegName} (h : regMask r = 0xFFFFFFFF) (w : Word) : Fits r w := by
  rw [Fits, h]
  exact BitVec.and_zero

theorem fits_and_regMask (r : RegName) (w : Word) : Fits r (w &&& regMask r) := by
  rw [fits_iff_getLsbD]
  intro i _ hm
  rw [BitVec.getLsbD_and, hm, Bool.and_false]

/-- Writing a field that holds no reserved bit leaves the reserved bits 0. -/
theorem fits_setField {r : RegName} {w : Word} {hi lo : Nat} (hhi : hi < 32)
    (hmask : ∀ i < 32, lo ≤ i ∧ i ≤ hi → (regMask r).getLsbD i = true) (h : Fits r w) (v : Nat) :
    Fits r (setField w hi lo v) := by
  rw [fits_iff_getLsbD] at h ⊢
  intro i hi32 hm
  rw [getLsbD_setField hhi, if_neg fun hin => by simp [hmask i hi32 hin] at hm]
  exact h i hi32 hm

/-- A number below `2^n` fits a register whose low `n` bits are not reserved. -/
theorem fits_ofNat {r : RegName} {n v : Nat} (hmask : ∀ i < 32, i < n → (regMask r).getLsbD i = true)
    (hv : v < 2 ^ n) : Fits r (BitVec.ofNat 32 v) := by
  rw [fits_iff_getLsbD]
  intro i hi32 hm
  have hni : n ≤ i := by
    by_contra hlt
    rw [hmask i hi32 (by omega)] at hm
    cases hm
  rw [BitVec.getLsbD_ofNat, Nat.testBit_lt_two_pow (hv.trans_le (Nat.pow_le_pow_right two_pos hni)), Bool.and_false]

/-- A bit inside the field just written. -/
theorem getBit_setField_self {w : Word} {hi lo v i : Nat} (h : hi < 32) (hin : lo ≤ i ∧ i ≤ hi) :
    getBit (setField w hi lo v) i = v.testBit (i - lo) := by
  rw [getBit, getLsbD_setField h, if_pos hin]

/-! ### `STATUS` -/

theorem fits_statusWithCode {w : Word} (h : Fits .status w) (c : Status) : Fits .status (statusWithCode w c) :=
  fits_setField (by decide) (by decide) h _

theorem statusWithCode_valid (w : Word) (c : Status) : getBit (statusWithCode w c) 8 = getBit w 8 :=
  getBit_setField_apart (by decide) (by decide)

theorem statusWithCode_class (w : Word) (c : Status) : getField (statusWithCode w c) 14 12 = getField w 14 12 :=
  getField_setField_apart (by decide) (by decide)

theorem fits_statusResolved {w : Word} (h : Fits .status w) (cls : MatrixClass) :
    Fits .status (statusResolved w cls) :=
  fits_setField (by decide) (by decide) (fits_setField (by decide) (by decide) h _) _

theorem statusResolved_valid (w : Word) (cls : MatrixClass) : getBit (statusResolved w cls) 8 = true :=
  getBit_setField_self (by decide) (by decide)

theorem statusResolved_code (w : Word) (cls : MatrixClass) : getField (statusResolved w cls) 7 0 = getField w 7 0 :=
  (getField_setField_apart (by decide) (by decide)).trans (getField_setField_apart (by decide) (by decide))

theorem statusResolved_class (w : Word) (cls : MatrixClass) :
    getField (statusResolved w cls) 14 12 = classCode cls := by
  rw [statusResolved, getField_setField_apart (by decide) (by decide), getField_setField_self (by decide)]
  cases cls <;> rfl

/-! ### `LUT_CUR` -/

/-- What a build of a supported depth records is read back field by field (10_state.md rule R38). -/
theorem lutCurWord_fields {d : Nat} (hd : depthOk d = true) (mono ident full : Bool) :
    lutConfig (lutCurWord d mono ident full) = ⟨d, mono, ident, full⟩ ∧
      getBit (lutCurWord d mono ident full) 31 = true ∧ Fits .lutCur (lutCurWord d mono ident full) := by
  unfold Fits
  rcases depthOk_iff.1 hd with rfl | rfl | rfl | rfl <;> revert mono ident full <;> decide

/-! ### Tile-state banks -/

theorem frameClass_le (f : FrameFormat) : frameClass f ≤ 5 := by
  unfold frameClass
  split_ifs <;> decide

/-- The fields of a first tile's record (10_state.md rule R41). -/
theorem infoRecorded_fields (w : Word) (depth : Nat) {cls : Nat} (hcls : cls ≤ 5) (auth : Bool) :
    infoClass (infoRecorded w depth cls auth) = cls ∧ getBit (infoRecorded w depth cls auth) 16 = true ∧
      infoAuth (infoRecorded w depth cls auth) = auth := by
  refine ⟨?_, ?_, ?_⟩
  · rw [infoRecorded, infoClass, getField_setField_apart (by decide) (by decide),
      getField_setField_apart (by decide) (by decide), getField_setField_self (by decide),
      Nat.mod_eq_of_lt (by omega)]
  · rw [infoRecorded, getBit_setField_apart (by decide) (by decide), getBit_setField_self (by decide) (by decide)]
    rfl
  · rw [infoRecorded, infoAuth, getBit_setField_self (by decide) (by decide)]
    cases auth <;> rfl

/-- The record of a first tile keeps the reserved bits of `TS0_INFO`, which are those of `TS1_INFO`. -/
theorem fits_infoRecorded {w : Word} (h : Fits .ts0Info w) (depth cls : Nat) (auth : Bool) :
    Fits .ts0Info (infoRecorded w depth cls auth) := by
  have hdepth := fits_setField (hi := 4) (lo := 0) (by decide) (by decide) h depth
  have hclass := fits_setField (hi := 10) (lo := 8) (by decide) (by decide) hdepth cls
  have hseen := fits_setField (hi := 16) (lo := 16) (by decide) (by decide) hclass 1
  exact fits_setField (by decide) (by decide) hseen _

theorem fits_modelBits (w : Word) : Fits .ts0Cicp (modelBits w) := fits_and_regMask .ts0Cicp w

/-! ### Frame metadata -/

theorem fits_encodedFrameFormat (cfmt : Nat) : Fits .frmFmt (encodedFrameFormat cfmt) := by
  unfold encodedFrameFormat cfmtXsh cfmtYsh Fits
  cases cfmtMono cfmt <;> split_ifs <;> decide

/-- A colour model whose codes are bytes fits `FRM_CICP` (30_encoding.md rule R106). -/
theorem fits_packModel {cp tc mc : Nat} (hcp : cp < 2 ^ 8) (htc : tc < 2 ^ 8) (hmc : mc < 2 ^ 8) (fr : Bool) :
    Fits .frmCicp (packModel cp tc mc fr) := by
  have hfr : bitNat fr ≤ 1 := by cases fr <;> decide
  exact fits_ofNat (n := 25) (by decide) (by omega)

theorem fits_encodedFrame_cicp (s : State) (cfmt : Nat) {w : Word} (h : Fits .frmCicp w) :
    Fits .frmCicp (encodedFrame s cfmt w).cicp := by
  unfold encodedFrame
  split
  · exact fits_packModel (by decide) (by decide) (by decide) true
  · exact h

end Sys2Proof.ReservedBits
end

