-- ==== Sys2Proof/Proofs/Invariant.lean ====
section
/-! PROOFS. The invariant (10_state.md rules R21, R24, R26, R38, R41, R42, 60_exceptions.md rule R291): one lemma per
update of the state, then the host's transactions, the check phases, the elements each command writes, and each command
from these. -/

namespace Sys2Proof.Invariant
open Sys2Proof.Machine Sys2Proof.HostAccess Sys2Proof.ReservedBits

/-! ### Updates of the state -/

/-- Registers may keep their words or take words with the reserved bits 0. -/
theorem reservedClear_of_reads {s t : State} (hs : reservedClear s)
    (ht : ∀ r, readReg t r = readReg s r ∨ Fits r (readReg t r)) : reservedClear t :=
  reservedClear_iff_fits.2 fun r => (ht r).elim (fun heq => heq ▸ reservedClear_iff_fits.1 hs r) id

theorem inv_setMem {s : State} {m : Memory} (h : Inv s) (hm : memWf m = true) : Inv (setMem s m) := by
  obtain ⟨_, hres, hstatus, hcoefs, hlut, hts0, hts1⟩ := h
  exact ⟨hm, reservedClear_of_reads hres fun r => .inl (by cases r <;> rfl), hstatus, hcoefs, hlut, hts0, hts1⟩

theorem inv_setHost {s : State} {q : List HostTx} (h : Inv s) : Inv (setHost s q) := by
  obtain ⟨hmem, hres, hstatus, hcoefs, hlut, hts0, hts1⟩ := h
  exact ⟨hmem, reservedClear_of_reads hres fun r => .inl (readReg_setHost s q r), hstatus, hcoefs, hlut, hts0, hts1⟩

theorem inv_noteRead {s : State} {v : Word} (h : Inv s) : Inv (noteRead s v) := by
  obtain ⟨hmem, hres, hstatus, hcoefs, hlut, hts0, hts1⟩ := h
  exact ⟨hmem, reservedClear_of_reads hres fun r => .inl (by cases r <;> rfl), hstatus, hcoefs, hlut, hts0, hts1⟩

/-- A free value used changes what `LUT_DATA` shows and nothing the invariant names. -/
theorem inv_hostReadReg {s : State} (r : RegName) (h : Inv s) : Inv (hostReadReg s r) := by
  obtain ⟨hmem, hres, hstatus, hcoefs, hlut, hts0, hts1⟩ := h
  refine ⟨hmem, reservedClear_of_reads hres fun r' => ?_, hstatus, hcoefs, hlut, hts0, hts1⟩
  cases r' with
  | lutData => exact .inr (fits_of_full rfl _)
  | _ => exact .inl rfl

/-- The host writes words with the reserved bits 0, and no field the rest of the invariant names. -/
theorem inv_storeReg {s : State} {r : RegName} {v : Word} (hr : regAccess r = .rw) (hv : Fits r v) (h : Inv s) :
    Inv (storeReg s v r) := by
  obtain ⟨hmem, hres, hstatus, hcoefs, hlut, hts0, hts1⟩ := h
  have hres' : reservedClear (storeReg s v r) := reservedClear_of_reads hres fun r' => by
    by_cases hself : r' = r
    · rw [hself, readReg_storeReg_self hr]
      exact .inr hv
    · by_cases hdata : r' = .lutData
      · exact .inr (hdata ▸ fits_of_full rfl _)
      · exact .inl (readReg_storeReg_of_ne hself hdata s v)
  cases r <;> exact ⟨hmem, hres', hstatus, hcoefs, hlut, hts0, hts1⟩

theorem inv_hostWriteReg {s : State} (r : RegName) (v : Word) (h : Inv s) : Inv (hostWriteReg s r v) := by
  unfold hostWriteReg
  split
  next hr => exact inv_storeReg hr (fits_and_regMask r v) h
  all_goals exact h

/-- A status word with its reserved bits 0, a legal code and class, that keeps `COEF_VALID`. -/
theorem inv_setStatus {s : State} {w : Word} (h : Inv s) (hw : Fits .status w)
    (hlegal : statusLegal (setStatus s w)) (hvalid : getBit w 8 = getBit s.status 8) : Inv (setStatus s w) := by
  obtain ⟨hmem, hres, _, hcoefs, hlut, hts0, hts1⟩ := h
  refine ⟨hmem, reservedClear_of_reads hres fun r => ?_, hlegal, ?_, hlut, hts0, hts1⟩
  · cases r with
    | status => exact .inr hw
    | _ => exact .inl rfl
  · rw [coefsLegal, setStatus_status, setStatus_coefs, hvalid]
    exact hcoefs

/-- A resolved colour model: the coefficients divide by no zero (40_resolver.md rule R136). -/
theorem inv_writeResolved {s : State} {cls : MatrixClass} {k : Coefs} (h : Inv s)
    (hk : degenerate Config.params.num k = false) : Inv (writeResolved s cls k) := by
  obtain ⟨hmem, hres, ⟨hcode, _⟩, _, hlut, hts0, hts1⟩ := h
  refine ⟨hmem, reservedClear_of_reads hres fun r => ?_, ⟨?_, ?_⟩, ?_, hlut, hts0, hts1⟩
  · cases r with
    | status => exact .inr (fits_statusResolved (hres .status) cls)
    | kr | kg | kb => exact .inr (fits_of_full rfl _)
    | _ => exact .inl rfl
  · rw [codeOf, writeResolved_eq, setStatus_status, statusResolved_code]
    exact hcode
  · rw [writeResolved_eq, setStatus_status, statusResolved_class]
    cases cls <;> decide
  · rw [coefsLegal, writeResolved_eq, setStatus_status, statusResolved_valid, if_pos rfl]
    exact hk

/-- The fallback of the resolver divides by no zero under either reading of `NUM` (40_resolver.md rule R136). -/
theorem degenerate_fallback (m : NumMode) : degenerate m (literalTriple m fallback) = false := by
  cases m <;> decide +kernel

theorem degenerate_resolveCoefs (p : Params) (cp mc : Nat) : degenerate p.num (resolveCoefs p cp mc) = false := by
  unfold resolveCoefs
  split
  next => exact degenerate_fallback p.num
  next h => exact Bool.eq_false_iff.2 h

theorem inv_resolveInto {s : State} (cm : ColourModel) (h : Inv s) : Inv (resolveInto Config.params cm s) :=
  inv_writeResolved h (degenerate_resolveCoefs _ _ _)

theorem inv_setLut {s : State} {t : LutMem} {cur : Word} (h : Inv s) (hcur : Fits .lutCur cur)
    (hdescribed : lutDescribed (setLut s t cur)) : Inv (setLut s t cur) := by
  obtain ⟨hmem, hres, hstatus, hcoefs, _, hts0, hts1⟩ := h
  refine ⟨hmem, reservedClear_of_reads hres fun r => ?_, hstatus, hcoefs, hdescribed, hts0, hts1⟩
  cases r with
  | lutCur => exact .inr hcur
  | lutData => exact .inr (fits_of_full rfl _)
  | _ => exact .inl rfl

/-- A table build leaves in `LUT_CUR` what it built (42_lut_builder.md rule R176). -/
theorem inv_buildInto {s : State} {d : Nat} (hd : depthOk d = true) (mono ident full : Bool) (h : Inv s) :
    Inv (buildInto Config.params d mono ident full s) := by
  obtain ⟨hconfig, hvalid, hfits⟩ := lutCurWord_fields hd mono ident full
  refine inv_setLut h hfits ?_
  rw [lutDescribed, setLut_lutCur, hvalid, if_pos rfl, hconfig]
  exact ⟨hd, rfl⟩

theorem inv_setFrame {s : State} {f : Frame} (h : Inv s) (hfmt : Fits .frmFmt f.fmt) (hcicp : Fits .frmCicp f.cicp) :
    Inv (setFrame s f) := by
  obtain ⟨hmem, hres, hstatus, hcoefs, hlut, hts0, hts1⟩ := h
  refine ⟨hmem, reservedClear_of_reads hres fun r => ?_, hstatus, hcoefs, hlut, hts0, hts1⟩
  cases r with
  | frmFmt => exact .inr hfmt
  | frmCicp => exact .inr hcicp
  | frmW | frmH => exact .inr (fits_of_full rfl _)
  | _ => exact .inl rfl

theorem inv_setBank {s : State} {t : TileBank} (b : Bank) (h : Inv s) (hinfo : Fits .ts0Info t.info)
    (hcicp : Fits .ts0Cicp t.cicp) (hlegal : bankLegal t) : Inv (setBank s b t) := by
  obtain ⟨hmem, hres, hstatus, hcoefs, hlut, hts0, hts1⟩ := h
  rcases bank_cases b with rfl | rfl
  · refine ⟨hmem, reservedClear_of_reads hres fun r => ?_, hstatus, hcoefs, hlut, hlegal, hts1⟩
    cases r with
    | ts0Info => exact .inr hinfo
    | ts0Cicp => exact .inr hcicp
    | ts0ExpW | ts0ExpH => exact .inr (fits_of_full rfl _)
    | _ => exact .inl rfl
  · refine ⟨hmem, reservedClear_of_reads hres fun r => ?_, hstatus, hcoefs, hlut, hts0, hlegal⟩
    cases r with
    | ts1Info => exact .inr hinfo
    | ts1Cicp => exact .inr hcicp
    | ts1ExpW | ts1ExpH => exact .inr (fits_of_full rfl _)
    | _ => exact .inl rfl

theorem fits_bank_info {s : State} (h : reservedClear s) (b : Bank) : Fits .ts0Info (bank s b).info := by
  rcases bank_cases b with rfl | rfl
  · exact h .ts0Info
  · exact h .ts1Info

/-- A first tile's record is a legal bank: `SEEN` is 1, and there is no colour model where `AUTH` is 0. -/
theorem bankLegal_recordedBank (s : State) (t : TileBank) : bankLegal (recordedBank s t) := by
  obtain ⟨hclass, hseen, hauth⟩ := infoRecorded_fields t.info (frameFormat s.frm.fmt).depth
    (frameClass_le (frameFormat s.frm.fmt)) (!cmValid s.cm)
  refine ⟨hclass.trans_le (frameClass_le _), fun h => ?_, fun h => ?_⟩
  · exact absurd (hseen.symm.trans h) (by decide)
  · exact if_neg (Bool.eq_false_iff.1 (hauth.symm.trans h))

theorem fits_recordedBank_cicp (s : State) (t : TileBank) : Fits .ts0Cicp (recordedBank s t).cicp := by
  simp only [recordedBank]
  split
  · exact fits_modelBits _
  · exact fits_zero _

theorem inv_recordTile {s : State} (b : Bank) (h : Inv s) : Inv (recordTile b s) := by
  unfold recordTile
  split
  · have ⟨_, hres, _⟩ := h
    exact inv_setBank b h (fits_infoRecorded (fits_bank_info hres b) _ _ _) (fits_recordedBank_cicp s _)
      (bankLegal_recordedBank s _)
  · exact h

/-- Settles O59: a fixed state. -/
theorem invariantAtReset : Obligations.InvariantAtReset := by
  unfold Obligations.InvariantAtReset
  refine ⟨rfl, fun r => ?_, ⟨by decide, by decide⟩, rfl, ⟨rfl, rfl⟩, ⟨by decide, ?_, ?_⟩, ⟨by decide, ?_, ?_⟩⟩
  · cases r with
    | id | kr | kg | kb | lutData => exact fits_of_full rfl _
    | _ => exact fits_zero _
  all_goals exact fun _ => rfl

/-- The platform's reset leaves memory (70_reset_and_hazards.md rule R320). -/
theorem inv_platformReset {s : State} (h : Inv s) : Inv (platformReset s) := by
  obtain ⟨hmem, _⟩ := h
  obtain ⟨_, hres, hstatus, hcoefs, hlut, hts0, hts1⟩ := invariantAtReset
  refine ⟨hmem, reservedClear_of_reads hres fun r => ?_, hstatus, hcoefs, hlut, hts0, hts1⟩
  cases r with
  | lutData => exact .inr (fits_of_full rfl _)
  | _ => exact .inl rfl

end Sys2Proof.Invariant
end

