-- ==== Sys2Proof/Proofs/InvariantStep.lean ====
section
/-! PROOFS. Every step keeps the invariant: the host's transactions, the status codes the check phases report, the
elements the commands write, the effect of each command, and one step from these. -/

namespace Sys2Proof.InvariantStep
open Sys2Proof.Machine Sys2Proof.HostAccess Sys2Proof.ReservedBits Sys2Proof.Invariant

/-! ### The host's transactions -/

/-- The invariant of the state an access leaves, or the command it issues starts from. -/
def FetchedInv : Fetched → Prop
  | .done t => Inv t
  | .issued _ t => Inv t
  | .idle | .outOfRange | .undefinedAccess => True

theorem fetchedInv_busRegWrite {s : State} (h : Inv s) (off : BitVec 12) (v : Word) :
    FetchedInv (busRegWrite off v s) := by
  unfold busRegWrite
  split
  · split
    · exact h
    · split
      · exact h
      · exact inv_hostWriteReg _ v h
  · trivial

theorem fetchedInv_busRegRead {s : State} (h : Inv s) (off : BitVec 12) : FetchedInv (busRegRead off s) := by
  unfold busRegRead
  split
  · split
    · exact inv_noteRead h
    · exact inv_hostReadReg _ h
  · trivial

theorem fetchedInv_busRoute {p : Params} {a n : Nat} {onMemory : Fetched} {onRegister : BitVec 12 → Fetched}
    (hmemory : a + n ≤ 2 ^ 32 → FetchedInv onMemory) (hregister : ∀ off, FetchedInv (onRegister off)) :
    FetchedInv (busRoute p a n onMemory onRegister) := by
  rcases busRoute_cases p a n onMemory onRegister with
    ⟨_, heq⟩ | ⟨hrange, _, heq⟩ | ⟨_, _, _, heq⟩ | ⟨_, _, heq⟩ <;> rw [heq]
  · trivial
  · exact hmemory hrange
  · exact hregister _
  · trivial

theorem fetchedInv_hostTransaction {s : State} (h : Inv s) (p : Params) (tx : HostTx) :
    FetchedInv (hostTransaction p tx s) := by
  have ⟨hmem, _⟩ := h
  cases tx with
  | regWrite off v => exact fetchedInv_busRegWrite h off v
  | regRead off => exact fetchedInv_busRegRead h off
  | memWrite a size v =>
    refine fetchedInv_busRoute (fun hrange => ?_) fun off => fetchedInv_busRegWrite h off v
    exact inv_setMem h (memWrite_wf hmem hrange)
  | memRead a size =>
    refine fetchedInv_busRoute (fun _ => ?_) fun off => fetchedInv_busRegRead h off
    exact inv_noteRead h
  | memBytes a bs =>
    simp only [hostTransaction]
    split_ifs with hrange
    · trivial
    · trivial
    · exact inv_setMem h (memBytesWrite_wf hmem (not_lt.1 hrange))
  | platformReset => exact inv_platformReset h

theorem fetchedInv_nextTx {s : State} (h : Inv s) : FetchedInv (nextTx s) := by
  unfold nextTx
  split
  · trivial
  · exact fetchedInv_hostTransaction (inv_setHost h) _ _

/-! ### Failing and succeeding -/

/-- The status codes a legal `STATUS` can hold (60_exceptions.md rule R291). -/
abbrev Raised (c : Status) : Prop :=
  statusCode c ∈ [0x00, 0x01, 0x03, 0x04, 0x05, 0x06, 0x07, 0x08, 0x09, 0x40, 0x41, 0x42]

theorem inv_fail {s : State} {c : Status} (h : Inv s) (hc : Raised c) : Inv (fail s c) := by
  have ⟨_, hres, ⟨_, hclass⟩, _⟩ := h
  refine inv_setStatus h (fits_statusWithCode (hres .status) c) ⟨?_, ?_⟩ (statusWithCode_valid _ c)
  · rw [codeOf, setStatus_status, statusWithCode_code]
    exact hc
  · rw [setStatus_status, statusWithCode_class]
    exact hclass

theorem inv_succeed {s : State} (h : Inv s) : Inv (succeed s) := inv_fail (c := .ok) h (by decide)

/-- A command keeps the invariant if its check phase reports legal codes and, where it reports none, its effect keeps
the invariant. -/
theorem inv_command {failure : Option Status} {effect s t : State} (h : Inv s)
    (hraised : ∀ c, failure = some c → Raised c) (heffect : failure = none → Inv effect)
    (ht : command failure effect s = .next t) : Inv t := by
  rcases command_cases failure effect s with ⟨c, hc, heq⟩ | ⟨hnone, heq⟩
  · cases heq.symm.trans ht
    exact inv_fail h (hraised c hc)
  · cases heq.symm.trans ht
    exact inv_succeed (heffect hnone)

/-! ### The codes the check phases report -/

theorem raised_of_firstFailure {l : List (Bool × Status)} {c : Status} (hl : ∀ x ∈ l, Raised x.2)
    (h : firstFailure l = some c) : Raised c := by
  obtain ⟨before, after, rfl, _⟩ := firstFailure_some h
  exact hl (true, c) (by simp)

theorem validateTile_raised {b : Bank} {s : State} {c : Status} (h : validateTile b s = some c) : Raised c := by
  simp only [validateTile] at h
  split at h
  · cases h
  · exact raised_of_firstFailure (by simp [statusCode]) h

theorem tileValidateCheck_raised {b : Bank} {s : State} {c : Status} (h : tileValidateCheck b s = some c) :
    Raised c := by
  rcases Option.or_eq_some_iff.1 h with hfail | ⟨_, htile⟩
  · exact raised_of_firstFailure (by simp [statusCode]) hfail
  · exact validateTile_raised htile

theorem buildLutCheck_raised {s : State} {c : Status} (h : buildLutCheck s = some c) : Raised c :=
  raised_of_firstFailure (by simp [statusCode]) h

theorem encodeColorCheck_raised {p : Params} {s : State} {c : Status} (h : encodeColorCheck p s = some c) :
    Raised c :=
  raised_of_firstFailure (by simp [statusCode]) h

theorem encodeAlphaCheck_raised {p : Params} {s : State} {c : Status} (h : encodeAlphaCheck p s = some c) :
    Raised c :=
  raised_of_firstFailure (by simp [statusCode]) h

theorem decodeColorCheck_raised {p : Params} {s : State} {c : Status} (h : decodeColorCheck p s = some c) :
    Raised c := by
  rcases Option.or_eq_some_iff.1 h with hfail | ⟨_, htile⟩
  · exact raised_of_firstFailure (by simp [statusCode]) hfail
  · exact validateTile_raised htile

theorem decodeAlphaCheck_raised {p : Params} {s : State} {c : Status} (h : decodeAlphaCheck p s = some c) :
    Raised c := by
  rcases Option.or_eq_some_iff.1 h with hfail | ⟨_, htile⟩
  · exact raised_of_firstFailure (by simp [statusCode]) hfail
  · exact validateTile_raised htile

/-! ### What a passed check phase says -/

theorem buildLutCheck_passed {s : State} (h : buildLutCheck s = none) : depthOk (lutConfig s.lutCfg).depth = true := by
  simpa [buildLutCheck, firstFailure_none] using h

theorem encodeColorCheck_passed {p : Params} {s : State} (h : encodeColorCheck p s = none) :
    (encFormat s.encCtrl ≠ 0 → classify (colourModel s.cm).mc = .identity → encFormat s.encCtrl = 3) ∧
      addressesOk p [surfaceBuffer s.surf] (encodeWrites s (encFormat s.encCtrl)) = true := by
  simp only [encodeColorCheck, firstFailure_none, List.forall_mem_cons] at h
  obtain ⟨_, hformat, _, _, _, hidentity, _, haddr, _⟩ := h
  simp only [Bool.not_eq_false', decide_eq_false_iff_not, Bool.and_eq_false_iff, Bool.or_eq_false_iff]
    at hformat hidentity haddr
  refine ⟨fun hcolour hid => ?_, haddr⟩
  have hsub := hidentity.resolve_left (not_not.2 hid)
  omega

theorem encodeAlphaCheck_passed {p : Params} {s : State} (h : encodeAlphaCheck p s = none) :
    addressesOk p [surfaceBuffer s.surf] (encodeWrites s 0) = true := by
  simp only [encodeAlphaCheck, firstFailure_none, List.forall_mem_cons, Bool.not_eq_false'] at h
  obtain ⟨_, _, _, _, haddr, _⟩ := h
  exact haddr

theorem decodeColorCheck_passed {p : Params} {s : State} (h : decodeColorCheck p s = none) :
    depthOk (frameFormat s.frm.fmt).depth = true ∧ pixelFormat s.surf.fmt ≠ .invalid ∧
      addressesOk p (decodeColorReads s) [surfaceBuffer s.surf] = true := by
  obtain ⟨hfirst, _⟩ := Option.or_eq_none_iff.1 h
  simp only [firstFailure_none, List.forall_mem_cons, Bool.not_eq_false', decide_eq_false_iff_not] at hfirst
  obtain ⟨_, _, hdepth, hformat, _, _, _, _, _, haddr, _⟩ := hfirst
  exact ⟨hdepth, hformat, haddr⟩

theorem decodeAlphaCheck_passed {p : Params} {s : State} (h : decodeAlphaCheck p s = none) :
    depthOk (frameFormat s.frm.fmt).depth = true ∧ pixelFormat s.surf.fmt ≠ .invalid ∧
      addressesOk p [yBuffer s] [surfaceBuffer s.surf] = true := by
  obtain ⟨hfirst, _⟩ := Option.or_eq_none_iff.1 h
  simp only [firstFailure_none, List.forall_mem_cons, Bool.not_eq_false', decide_eq_false_iff_not] at hfirst
  obtain ⟨_, hdepth, hformat, _, _, haddr, _⟩ := hfirst
  exact ⟨hdepth, hformat, haddr⟩

/-! ### The elements a command writes lie in range -/

/-- The first `n` bytes of row `y` end inside the buffer's extent (20_memory.md rule R77). -/
theorem row_le_bufferEnd {b : Buffer} {y n : Nat} (hy : y < b.rows) (hn : n ≤ b.rowBytes) :
    b.base + y * b.stride + n ≤ bufferEnd b := by
  have hrow : y * b.stride ≤ (b.rows - 1) * b.stride := Nat.mul_le_mul_right _ (by omega)
  rw [bufferEnd]
  omega

theorem storesInRange_nil : storesInRange [] := List.forall_mem_nil _

theorem storesInRange_cons {e : Store} {st : List Store} (he : e.addr + e.size ≤ 2 ^ 32) (hst : storesInRange st) :
    storesInRange (e :: st) := List.forall_mem_cons.2 ⟨he, hst⟩

theorem storesInRange_append {l₁ l₂ : List Store} (h₁ : storesInRange l₁) (h₂ : storesInRange l₂) :
    storesInRange (l₁ ++ l₂) := fun e he => (List.mem_append.1 he).elim (h₁ e) (h₂ e)

theorem storesInRange_gridStores {w h : Nat} {f : Nat → Nat → List Store}
    (hf : ∀ x y, x < w → y < h → storesInRange (f x y)) : storesInRange (gridStores w h f) := by
  intro e he
  obtain ⟨x, y, hx, hy, hmem⟩ := mem_gridStores.1 he
  exact hf x y hx hy e hmem

section Encode
variable {p : Params} {s : State} {cfmt : Nat}
  (haddr : addressesOk p [surfaceBuffer s.surf] (encodeWrites s cfmt) = true)
include haddr

/-- A sample of a plane the encode writes. -/
theorem sampleStore_inRange {pl : Plane} {w h x y : Nat} (hpl : planeBuffer pl w h 1 ∈ encodeWrites s cfmt)
    (hx : x < w) (hy : y < h) (v : Nat) :
    (sampleStore pl x y v).addr + (sampleStore pl x y v).size ≤ 2 ^ 32 := by
  obtain ⟨_, hend, _⟩ := addressesOk_each haddr (List.mem_append_right _ hpl)
  have hrow : pl.base.toNat + y * pl.stride.toNat + (x + 1) * 1 ≤ bufferEnd (planeBuffer pl w h 1) :=
    row_le_bufferEnd (b := planeBuffer pl w h 1) hy (Nat.mul_le_mul_right 1 hx)
  simp only [sampleStore, sampAddr]
  omega

theorem storesInRange_luma (v : Nat → Nat → Nat) :
    storesInRange (gridStores s.surf.width.toNat s.surf.height.toNat fun x y =>
      [sampleStore s.yPlane x y (v x y)]) :=
  storesInRange_gridStores fun _ _ hx hy =>
    storesInRange_cons (sampleStore_inRange haddr (by simp [encodeWrites]) hx hy _) storesInRange_nil

theorem storesInRange_chroma (u v : Nat → Nat → Nat) :
    storesInRange (gridStores (encChromaW s cfmt) (encChromaH s cfmt) fun x y =>
      [sampleStore s.uPlane x y (u x y), sampleStore s.vPlane x y (v x y)]) :=
  storesInRange_gridStores fun _ _ hx hy =>
    storesInRange_cons (sampleStore_inRange haddr (by simp [encodeWrites]) hx hy _)
      (storesInRange_cons (sampleStore_inRange haddr (by simp [encodeWrites]) hx hy _) storesInRange_nil)

theorem storesInRange_standardStores (k : Coefs) : storesInRange (standardStores p k cfmt s) :=
  storesInRange_append (storesInRange_luma haddr _) (storesInRange_chroma haddr _ _)

end Encode

theorem storesInRange_monoStores {p : Params} {s : State}
    (haddr : addressesOk p [surfaceBuffer s.surf] (encodeWrites s 0) = true) (ch : Channel) :
    storesInRange (monoStores s ch) :=
  storesInRange_append (storesInRange_luma haddr _) (storesInRange_chroma haddr (fun _ _ => 0) fun _ _ => 0)

/-- At 4:4:4 the chroma planes have the size of the surface. -/
theorem encodeWrites_444 (s : State) : encodeWrites s 3 =
    [s.yPlane, s.uPlane, s.vPlane].map fun pl => planeBuffer pl s.surf.width.toNat s.surf.height.toNat 1 := by
  simp [encodeWrites, encChromaW, encChromaH, chromaDim, cfmtXsh, cfmtYsh]

theorem storesInRange_identityStores {p : Params} {s : State}
    (haddr : addressesOk p [surfaceBuffer s.surf] (encodeWrites s 3) = true) : storesInRange (identityStores s) := by
  refine storesInRange_gridStores fun x y hx hy => ?_
  have hplane (pl : Plane) (hpl : pl ∈ [s.yPlane, s.uPlane, s.vPlane]) (v : Nat) :
      (sampleStore pl x y v).addr + (sampleStore pl x y v).size ≤ 2 ^ 32 :=
    sampleStore_inRange haddr (encodeWrites_444 s ▸ List.mem_map_of_mem hpl) hx hy v
  exact storesInRange_cons (hplane _ (by simp) _)
    (storesInRange_cons (hplane _ (by simp) _) (storesInRange_cons (hplane _ (by simp) _) storesInRange_nil))

theorem storesInRange_encodeColorStores {p : Params} {s : State} (h : encodeColorCheck p s = none) :
    storesInRange (encodeColorStores p s) := by
  obtain ⟨hidentity, haddr⟩ := encodeColorCheck_passed h
  simp only [encodeColorStores]
  split_ifs with hmono hid
  · exact storesInRange_monoStores (hmono ▸ haddr) .r
  · exact storesInRange_identityStores (hidentity hmono hid ▸ haddr)
  · exact storesInRange_standardStores haddr _

/-- Every channel lies inside its pixel (20_memory.md rule R75). -/
theorem channelOffset_add_le_bpp {f : PixelFormat} (hf : f ≠ .invalid) (c : Channel) :
    channelOffset f c + channelBytes f ≤ bpp f := by
  cases f with
  | invalid => exact absurd rfl hf
  | _ => cases c <;> decide

/-- A channel of a pixel of a surface the decode writes. -/
theorem channelStore_inRange {p : Params} {reads : List Buffer} {f : Surface}
    (haddr : addressesOk p reads [surfaceBuffer f] = true) (hf : pixelFormat f.fmt ≠ .invalid) {x y : Nat}
    (hx : x < f.width.toNat) (hy : y < f.height.toNat) (m : NumMode) (c : Channel) (v : Num) :
    (channelStore m f x y c v).addr + (channelStore m f x y c v).size ≤ 2 ^ 32 := by
  obtain ⟨_, hend, _⟩ := addressesOk_each haddr (List.mem_append_right _ (List.mem_singleton_self _))
  have hrow : f.base.toNat + y * f.stride.toNat + (x + 1) * bpp (pixelFormat f.fmt) ≤ bufferEnd (surfaceBuffer f) :=
    row_le_bufferEnd (b := surfaceBuffer f) hy (Nat.mul_le_mul_right _ hx)
  have hchannel := channelOffset_add_le_bpp hf c
  rw [Nat.add_one_mul] at hrow
  simp only [channelStore, channelAddr, pixAddr]
  omega

/-- A frame position inside the placement rectangle falls on the surface (46_tile_assembly.md rule R275). -/
theorem placement_inside {s : State} {x y : Nat} (hx : x < (placement s).copyW) (hy : y < (placement s).copyH) :
    (placement s).x0 + x < s.surf.width.toNat ∧ (placement s).y0 + y < s.surf.height.toNat := by
  simp only [placement] at hx hy ⊢
  omega

theorem storesInRange_decodeColorStores {p : Params} {s : State} (h : decodeColorCheck p s = none) :
    storesInRange (decodeColorStores p s) := by
  obtain ⟨_, hformat, haddr⟩ := decodeColorCheck_passed h
  refine storesInRange_gridStores fun x y hx hy => ?_
  obtain ⟨hpx, hpy⟩ := placement_inside hx hy
  have hstore := channelStore_inRange haddr hformat hpx hpy p.num
  exact storesInRange_cons (hstore _ _)
    (storesInRange_cons (hstore _ _) (storesInRange_cons (hstore _ _) storesInRange_nil))

theorem storesInRange_decodeAlphaStores {p : Params} {s : State} (h : decodeAlphaCheck p s = none) :
    storesInRange (decodeAlphaStores p s) := by
  obtain ⟨_, hformat, haddr⟩ := decodeAlphaCheck_passed h
  refine storesInRange_gridStores fun x y hx hy => ?_
  obtain ⟨hpx, hpy⟩ := placement_inside hx hy
  exact storesInRange_cons (channelStore_inRange haddr hformat hpx hpy p.num _ _) storesInRange_nil

/-! ### The commands -/

theorem inv_encodeColorEffect {s : State} (h : Inv s) (hcheck : encodeColorCheck Config.params s = none) :
    Inv (encodeColorEffect Config.params s) := by
  have ⟨hmem, _⟩ := h
  have hstores := memStores_wf hmem (storesInRange_encodeColorStores hcheck)
  refine inv_setFrame (inv_resolveInto _ (inv_setMem h hstores)) (fits_encodedFrameFormat _) ?_
  exact fits_encodedFrame_cicp s _
    (fits_packModel (getField_lt s.cm 7 0) (getField_lt s.cm 15 8) (getField_lt s.cm 23 16) true)

theorem inv_encodeAlphaEffect {s : State} (h : Inv s) (hcheck : encodeAlphaCheck Config.params s = none) :
    Inv (encodeAlphaEffect s) := by
  have ⟨hmem, _⟩ := h
  have hstores := memStores_wf hmem (storesInRange_monoStores (encodeAlphaCheck_passed hcheck) .a)
  exact inv_setFrame (inv_setMem h hstores) (fits_encodedFrameFormat 0) (fits_encodedFrame_cicp s 0 (fits_zero _))

theorem inv_decodeColorEffect {s : State} (h : Inv s) (hcheck : decodeColorCheck Config.params s = none) :
    Inv (decodeColorEffect Config.params s) := by
  have ⟨hmem, _⟩ := h
  obtain ⟨hdepth, _⟩ := decodeColorCheck_passed hcheck
  have hstores := memStores_wf hmem (storesInRange_decodeColorStores hcheck)
  exact inv_setMem (inv_buildInto hdepth _ _ _ (inv_resolveInto _ (inv_recordTile 0 h))) hstores

theorem inv_decodeAlphaEffect {s : State} (h : Inv s) (hcheck : decodeAlphaCheck Config.params s = none) :
    Inv (decodeAlphaEffect Config.params s) := by
  have ⟨hmem, _⟩ := h
  obtain ⟨hdepth, _⟩ := decodeAlphaCheck_passed hcheck
  have hstores := memStores_wf hmem (storesInRange_decodeAlphaStores hcheck)
  exact inv_setMem (inv_buildInto hdepth _ _ _ (inv_recordTile 1 h)) hstores

theorem bankLegal_zero : bankLegal TileBank.zero := ⟨by decide, fun _ => rfl, fun _ => rfl⟩

theorem inv_exec {i : Instr} {s t : State} (h : Inv s) (ht : exec i s = .next t) : Inv t := by
  cases i with
  | resolve => exact inv_command (failure := none) h nofun (fun _ => inv_resolveInto _ h) ht
  | buildLut =>
    exact inv_command h (fun _ => buildLutCheck_raised)
      (fun hcheck => inv_buildInto (buildLutCheck_passed hcheck) _ _ _ h) ht
  | encodeColor => exact inv_command h (fun _ => encodeColorCheck_raised) (inv_encodeColorEffect h) ht
  | encodeAlpha => exact inv_command h (fun _ => encodeAlphaCheck_raised) (inv_encodeAlphaEffect h) ht
  | decodeColor => exact inv_command h (fun _ => decodeColorCheck_raised) (inv_decodeColorEffect h) ht
  | decodeAlpha => exact inv_command h (fun _ => decodeAlphaCheck_raised) (inv_decodeAlphaEffect h) ht
  | tileValidate b => exact inv_command h (fun _ => tileValidateCheck_raised) (fun _ => inv_recordTile b h) ht
  | tileReset b =>
    exact inv_command (failure := none) h nofun
      (fun _ => inv_setBank b h (fits_zero _) (fits_zero _) bankLegal_zero) ht

/-- Settles O60: the transaction a step takes keeps the invariant, and so does the command it may issue. -/
theorem stepKeepsInvariant : Obligations.StepKeepsInvariant := by
  unfold Obligations.StepKeepsInvariant
  intro s t h hstep
  have hfetched := fetchedInv_nextTx h
  rcases step_cases hstep with ⟨_, rfl⟩ | hdone | ⟨w, u, i, hissued, _, hexec⟩ | ⟨w, u, e, hissued, _, rfl⟩
  · exact h
  · rwa [hdone] at hfetched
  · rw [hissued] at hfetched
    exact inv_exec hfetched hexec
  · rw [hissued] at hfetched
    exact inv_fail hfetched (by decide)

end Sys2Proof.InvariantStep
end

