-- ==== Sys2Proof/Proofs/AddressChecks.lean ====
section
/-! PROOFS. What the address checks (20_memory.md rule R78) say of the bytes of a command's buffers: extents that end
before one another begins are extents without a common byte, as soon as each has a byte. -/

namespace Sys2Proof.AddressChecks
open Sys2Proof.Machine

/-- The address `a` is one of the bytes of the buffer's extent (20_memory.md rule R77). -/
def Inside (b : Buffer) (a : Nat) : Prop := b.base ≤ a ∧ a < bufferEnd b

/-- Two extents with at least one byte each share none exactly when one ends before the other begins. -/
theorem no_common_address_iff {lo hi lo' hi' : Nat} (h : lo < hi) (h' : lo' < hi') :
    (∀ a, ¬ ((lo ≤ a ∧ a < hi) ∧ lo' ≤ a ∧ a < hi')) ↔ hi ≤ lo' ∨ hi' ≤ lo := by
  constructor
  · intro hdisjoint
    have hmax := hdisjoint (max lo lo')
    omega
  · intro horder a
    omega

theorem bufferAligned_iff {b : Buffer} :
    bufferAligned b = true ↔ b.base % b.elem = 0 ∧ b.stride % b.elem = 0 := by
  simp [bufferAligned]

theorem bufferInRange_iff {b : Buffer} : bufferInRange b = true ↔ bufferEnd b ≤ 2 ^ 32 := decide_eq_true_iff

theorem bufferClearOfWindow_iff {p : Params} {b : Buffer} (hb : b.base < bufferEnd b) :
    bufferClearOfWindow p b = true ↔ ∀ a, Inside b a → ¬ (p.cmcBase ≤ a ∧ a < p.cmcBase + 4096) := by
  have hwindow : p.cmcBase < p.cmcBase + 4096 := Nat.lt_add_of_pos_right (by decide)
  simp only [bufferClearOfWindow, Bool.or_eq_true, decide_eq_true_eq, ← no_common_address_iff hb hwindow, not_and,
    Inside]

theorem buffersApart_iff {b c : Buffer} (hb : b.base < bufferEnd b) (hc : c.base < bufferEnd c) :
    buffersApart b c = true ↔ ∀ a, ¬ (Inside b a ∧ Inside c a) := by
  simp only [buffersApart, Bool.or_eq_true, decide_eq_true_eq, ← no_common_address_iff hb hc, Inside]

/-- The four checks, one by one (20_memory.md rule R78 (b) to (e)). -/
theorem addressesOk_iff {p : Params} {reads writes : List Buffer} :
    addressesOk p reads writes = true ↔
      (∀ b ∈ reads ++ writes,
        bufferAligned b = true ∧ bufferInRange b = true ∧ bufferClearOfWindow p b = true) ∧
      writes.Pairwise (fun b c => buffersApart b c = true) ∧
      ∀ b ∈ writes, ∀ c ∈ reads, buffersApart b c = true := by
  simp only [addressesOk, Bool.and_eq_true, List.all_eq_true, writesApart_iff, and_assoc]

/-- The checks see of the buffers read which they are, not in which order. -/
theorem addressesOk_congr_reads {p : Params} {reads reads' : List Buffer} (h : ∀ b, b ∈ reads ↔ b ∈ reads')
    (writes : List Buffer) : addressesOk p reads writes = addressesOk p reads' writes := by
  rw [Bool.eq_iff_iff, addressesOk_iff, addressesOk_iff]
  simp only [List.mem_append, h]

/-- Settles O39: check by check, an order of extents is the absence of a common byte. -/
theorem addressChecksMeaning : Obligations.AddressChecksMeaning := by
  unfold Obligations.AddressChecksMeaning
  intro p reads writes last inside hbytes
  have hwrites : ∀ b ∈ writes, b.base < bufferEnd b := fun b hb => hbytes b (List.mem_append_right _ hb)
  have hreads : ∀ b ∈ reads, b.base < bufferEnd b := fun b hb => hbytes b (List.mem_append_left _ hb)
  rw [addressesOk_iff]
  refine and_congr (forall₂_congr fun b hb => ?_) (and_congr ?_ (forall₄_congr fun b hb c hc => ?_))
  · rw [bufferAligned_iff, bufferInRange_iff, bufferClearOfWindow_iff (hbytes b hb), and_assoc]
    rfl
  · exact List.Pairwise.iff_of_mem fun hb hc => buffersApart_iff (hwrites _ hb) (hwrites _ hc)
  · exact buffersApart_iff (hwrites b hb) (hreads c hc)

end Sys2Proof.AddressChecks
end

