-- ==== Sys2Proof/Proofs/UvSwap.lean ====
section
/-! PROOFS. `UVSWAP` (20_memory.md rule R76). DECODE_COLOR commutes with exchanging the register pairs of U and V
together with the bit that says so: the planes the two samples come from are the same. -/

namespace Sys2Proof.UvSwap
open Sys2Proof.Machine

/-- The register pairs of U and V exchanged and `UVSWAP` inverted. -/
def exchanged (s : State) : State :=
  { s with uPlane := s.vPlane, vPlane := s.uPlane, frm := { s.frm with fmt := s.frm.fmt ^^^ 0x800 } }

/-! ### Inverting bit 11 of `FRM_FMT` -/

theorem getLsbD_xor_uvswap (w : Word) (i : Nat) :
    (w ^^^ 0x800).getLsbD i = (w.getLsbD i ^^ decide (i = 11)) := by
  have hbit : (0x800 : Word).getLsbD i = decide (i = 11) := by
    rw [show (0x800 : Word) = BitVec.twoPow 32 11 from rfl, BitVec.getLsbD_twoPow]
    simp [eq_comm]
  rw [BitVec.getLsbD_xor, hbit]

theorem getBit_xor_uvswap {i : Nat} (w : Word) (hi : i ≠ 11) : getBit (w ^^^ 0x800) i = getBit w i := by
  rw [getBit, getLsbD_xor_uvswap, decide_eq_false hi, Bool.xor_false, getBit]

theorem getBit_xor_uvswap_self (w : Word) : getBit (w ^^^ 0x800) 11 = !getBit w 11 := by
  rw [getBit, getLsbD_xor_uvswap, decide_eq_true rfl, Bool.xor_true, getBit]

theorem getField_xor_uvswap {hi lo : Nat} (w : Word) (h : hi < 11) :
    getField (w ^^^ 0x800) hi lo = getField w hi lo := by
  refine Nat.eq_of_testBit_eq fun i => ?_
  rw [testBit_getField, testBit_getField, getLsbD_xor_uvswap]
  by_cases hlt : i < hi + 1 - lo
  · have hne : i + lo ≠ 11 := by omega
    simp [hne]
  · simp [hlt]

/-- Of the frame format only `UVSWAP` changes (10_state.md rule R30). -/
theorem frameFormat_xor_uvswap (w : Word) :
    frameFormat (w ^^^ 0x800) = { frameFormat w with uvswap := !(frameFormat w).uvswap } := by
  rw [frameFormat, getField_xor_uvswap w (hi := 4) (by decide), getField_xor_uvswap w (hi := 8) (by decide),
    getField_xor_uvswap w (hi := 9) (by decide), getBit_xor_uvswap w (i := 10) (by decide), getBit_xor_uvswap_self]
  rfl

section
variable (s : State)

/-! ### What a decode reads of the exchanged registers -/

theorem frameFormat_exchanged :
    frameFormat (exchanged s).frm.fmt =
      { frameFormat s.frm.fmt with uvswap := !(frameFormat s.frm.fmt).uvswap } := frameFormat_xor_uvswap s.frm.fmt

theorem frameClass_exchanged :
    frameClass (frameFormat (exchanged s).frm.fmt) = frameClass (frameFormat s.frm.fmt) := by
  rw [frameFormat_exchanged]
  rfl

theorem decodeUPlane_exchanged : decodeUPlane (exchanged s) = decodeUPlane s := by
  simp only [decodeUPlane, frameFormat_exchanged]
  cases (frameFormat s.frm.fmt).uvswap <;> rfl

theorem decodeVPlane_exchanged : decodeVPlane (exchanged s) = decodeVPlane s := by
  simp only [decodeVPlane, frameFormat_exchanged]
  cases (frameFormat s.frm.fmt).uvswap <;> rfl

theorem decChromaW_exchanged : decChromaW (exchanged s) = decChromaW s := by
  simp only [decChromaW, frameFormat_exchanged]
  rfl

theorem decChromaH_exchanged : decChromaH (exchanged s) = decChromaH s := by
  simp only [decChromaH, frameFormat_exchanged]
  rfl

theorem yBuffer_exchanged : yBuffer (exchanged s) = yBuffer s := by
  simp only [yBuffer, frameFormat_exchanged]
  rfl

theorem decodeColorReads_exchanged : decodeColorReads (exchanged s) = decodeColorReads s := by
  simp only [decodeColorReads, frameFormat_exchanged, yBuffer_exchanged, decodeUPlane_exchanged,
    decodeVPlane_exchanged, decChromaW_exchanged, decChromaH_exchanged]

theorem fetchSample_exchanged (pl : Plane) (x y : Nat) :
    fetchSample (exchanged s) pl x y = fetchSample s pl x y := by
  simp only [fetchSample, frameFormat_exchanged]
  rfl

theorem cidx_exchanged (x y : Nat) : cidx (exchanged s) x y = cidx s x y := by
  simp only [cidx, frameFormat_exchanged]
  rfl

theorem fetchU_exchanged (x y : Nat) : fetchU (exchanged s) x y = fetchU s x y := by
  rw [fetchU, fetchU, fetchSample_exchanged, decodeUPlane_exchanged, cidx_exchanged]

theorem fetchV_exchanged (x y : Nat) : fetchV (exchanged s) x y = fetchV s x y := by
  rw [fetchV, fetchV, fetchSample_exchanged, decodeVPlane_exchanged, cidx_exchanged]

theorem fetchY_exchanged (x y : Nat) : fetchY (exchanged s) x y = fetchY s x y := fetchSample_exchanged s _ x y

theorem decodeStrideShort_exchanged : decodeStrideShort (exchanged s) = decodeStrideShort s := by
  simp only [decodeStrideShort, frameFormat_exchanged]
  rfl

theorem chromaStrideShort_exchanged : chromaStrideShort (exchanged s) = chromaStrideShort s := by
  simp only [chromaStrideShort, frameFormat_exchanged, decChromaW_exchanged]
  exact Bool.or_comm _ _

/-! ### DECODE_COLOR of the exchanged registers -/

theorem validateTile_exchanged (b : Bank) : validateTile b (exchanged s) = validateTile b s := by
  simp only [validateTile, frameClass_exchanged]
  simp only [frameFormat_exchanged]
  rfl

theorem decodeColorCheck_exchanged (p : Params) : decodeColorCheck p (exchanged s) = decodeColorCheck p s := by
  have hnull : (decide ((exchanged s).uPlane.base = 0) || decide ((exchanged s).vPlane.base = 0)) =
      (decide (s.uPlane.base = 0) || decide (s.vPlane.base = 0)) := Bool.or_comm _ _
  simp only [decodeColorCheck, hnull, decodeColorReads_exchanged, decodeStrideShort_exchanged,
    chromaStrideShort_exchanged, validateTile_exchanged, frameFormat_exchanged]
  rfl

theorem colourTables_exchanged (p : Params) : colourTables p (exchanged s) = colourTables p s := by
  simp only [colourTables, frameFormat_exchanged]
  rfl

theorem decodedPixel_exchanged (p : Params) (t : LutMem) (x y : Nat) :
    decodedPixel p (exchanged s) t x y = decodedPixel p s t x y := by
  simp only [decodedPixel, frameFormat_exchanged, fetchY_exchanged, fetchU_exchanged, fetchV_exchanged]
  rfl

theorem decodeColorStores_exchanged (p : Params) : decodeColorStores p (exchanged s) = decodeColorStores p s := by
  simp only [decodeColorStores, colourTables_exchanged, decodedPixel_exchanged]
  rfl

theorem recordTile_exchanged : recordTile 0 (exchanged s) = exchanged (recordTile 0 s) := by
  have hrecord : recordedBank (exchanged s) (bank (exchanged s) 0) = recordedBank s (bank s 0) := by
    simp only [recordedBank, frameClass_exchanged]
    simp only [frameFormat_exchanged]
    rfl
  simp only [recordTile, hrecord]
  exact (apply_ite exchanged (isFirstTile s = true) (setBank s 0 (recordedBank s (bank s 0))) s).symm

theorem decodeColorEffect_exchanged (p : Params) :
    decodeColorEffect p (exchanged s) = exchanged (decodeColorEffect p s) := by
  simp only [decodeColorEffect, recordTile_exchanged, decodeColorStores_exchanged, frameFormat_exchanged]
  rfl

end

/-- DECODE_COLOR commutes with the exchange, whether its checks pass or not. -/
theorem execDecodeColor_exchanged {s t : State} (h : execDecodeColor s = .next t) :
    execDecodeColor (exchanged s) = .next (exchanged t) := by
  rw [execDecodeColor] at h ⊢
  rw [decodeColorCheck_exchanged, decodeColorEffect_exchanged]
  rcases command_cases (decodeColorCheck Config.params s) (decodeColorEffect Config.params s) s with
    ⟨c, hfail, heq⟩ | ⟨hpass, heq⟩
  · cases heq.symm.trans h
    rw [hfail]
    rfl
  · cases heq.symm.trans h
    rw [hpass]
    rfl

/-- Settles O51: the exchange commutes with DECODE_COLOR and leaves memory, tables, bank, coefficients and status. -/
theorem uvSwapExchangesPlanes : Obligations.UvSwapExchangesPlanes := by
  unfold Obligations.UvSwapExchangesPlanes
  intro s t hexec _
  exact ⟨exchanged t, execDecodeColor_exchanged hexec, rfl, rfl, rfl, rfl, rfl⟩

end Sys2Proof.UvSwap
end

