-- ==== Sys2Proof/Proofs/DecodeColorCheck.lean ====
section
/-! PROOFS. The check phase of DECODE_COLOR (45_decoder.md rule R231) against its verdict, the same list of checks in
terms of the registers: check by check, both report the same status number. -/

namespace Sys2Proof.DecodeColorCheck
open Sys2Proof.Machine Sys2Proof.AddressChecks

/-! ### Lists of checks as chains of conditions -/

theorem firstFailure_nil_or (o : Option Status) : (firstFailure []).or o = o := rfl

theorem map_firstFailure_cons_or (failed : Bool) (c : Status) (rest : List (Bool × Status)) (o : Option Status) :
    ((firstFailure ((failed, c) :: rest)).or o).map statusCode =
      if failed = true then some (statusCode c) else ((firstFailure rest).or o).map statusCode := by
  cases failed <;> rfl

/-! ### Operands in terms of the registers -/

/-- `TILE` is 0 exactly when both its fields are (10_state.md rule R33). -/
theorem isFirstTile_iff {s : State} : isFirstTile s = true ↔ s.tile = 0 := by
  simp only [isFirstTile, tileCol, tileRow, getField, Bool.and_eq_true, beq_iff_eq, BitVec.toNat_eq]
  have hlt := s.tile.isLt
  simp
  omega

/-- The tile check of a decode, as a status number (46_tile_assembly.md rule R272). -/
theorem map_validateTile (b : Bank) (s : State) : (validateTile b s).map statusCode = tileVerdict b s := by
  by_cases hfirst : s.tile = 0
  · simp [validateTile, tileVerdict, isFirstTile_iff.2 hfirst, hfirst]
  · have hlater : ¬ isFirstTile s = true := fun h => hfirst (isFirstTile_iff.1 h)
    simp only [validateTile, tileVerdict, if_neg hlater, if_neg hfirst]
    rw [← Option.or_none (o := firstFailure _)]
    simp only [map_firstFailure_cons_or, firstFailure_nil_or]
    refine if_congr ?_ rfl (if_congr ?_ rfl (if_congr ?_ rfl rfl))
    · exact decide_eq_true_iff
    · exact decide_eq_true_iff
    · rw [Bool.and_eq_true, decide_eq_true_iff]
      rfl

theorem sizeDiffers_iff {b : Bank} {s : State} : sizeDiffers b s = true ↔ sizeMismatch b s := by
  simp only [sizeDiffers, checkSize, getBit, sizeMismatch, Bool.and_eq_true, Bool.or_eq_true, decide_eq_true_eq,
    and_assoc]

theorem pixelFormat_invalid_iff {w : Word} : pixelFormat w = .invalid ↔ getField w 1 0 = 3 := by
  have hlt := getField_lt w 1 0
  unfold pixelFormat
  split <;> simp_all
  omega

/-- The register that holds the effective colour model (45_decoder.md rule R232). -/
def effectiveWord (s : State) : Word := if getBit s.cm 31 then s.cm else s.frm.cicp

theorem effectiveModel_eq (s : State) : effectiveModel s = colourModel (effectiveWord s) :=
  (apply_ite colourModel _ _ _).symm

theorem isYCgCoFamily_classify_iff {mc : Nat} :
    isYCgCoFamily (classify mc) = true ↔ mc = 8 ∨ mc = 16 ∨ mc = 17 := by
  unfold classify
  split_ifs <;> simp [isYCgCoFamily, *]

theorem isYCgCoR_classify_iff {mc : Nat} : isYCgCoR (classify mc) = true ↔ mc = 16 ∨ mc = 17 := by
  unfold classify
  split_ifs <;> simp [isYCgCoR, *]

/-- The planes read, the chroma planes in the order of their registers. -/
def readsByRegister (s : State) : List Buffer :=
  yBuffer s :: if (frameFormat s.frm.fmt).mono then [] else
    [planeBuffer s.uPlane (decChromaW s) (decChromaH s) (bps (frameFormat s.frm.fmt).depth),
      planeBuffer s.vPlane (decChromaW s) (decChromaH s) (bps (frameFormat s.frm.fmt).depth)]

/-- `UVSWAP` changes the order of the planes read, not the planes (20_memory.md rule R76). -/
theorem mem_decodeColorReads_iff {s : State} {b : Buffer} : b ∈ decodeColorReads s ↔ b ∈ readsByRegister s := by
  simp only [decodeColorReads, readsByRegister, decodeUPlane, decodeVPlane]
  split_ifs <;> simp [or_comm]

/-! ### The check phase -/

/-- The check phase and the verdict report the same status number (45_decoder.md rule R231). -/
theorem map_decodeColorCheck (p : Params) (s : State) :
    (decodeColorCheck p s).map statusCode = decodeColorVerdict p s := by
  simp only [decodeColorCheck, map_firstFailure_cons_or, firstFailure_nil_or, map_validateTile, effectiveModel_eq]
  refine if_congr ?null rfl (if_congr ?chromaNull rfl (if_congr ?depth rfl (if_congr ?format rfl (if_congr ?empty rfl
    (if_congr ?subsampled rfl (if_congr ?limited rfl (if_congr ?stride rfl (if_congr ?chromaStride rfl
    (if_congr ?address rfl (if_congr ?size rfl rfl))))))))))
  case null => simp only [Bool.or_eq_true, decide_eq_true_eq]
  case chromaNull => simp only [Bool.and_eq_true, Bool.not_eq_true', Bool.or_eq_true, decide_eq_true_eq]
  case depth => rw [Bool.not_eq_true', ← Bool.not_eq_true, depthOk_iff]
  case format => rw [decide_eq_true_iff, pixelFormat_invalid_iff]
  case empty => simp only [decodeEmpty, Bool.or_eq_true, decide_eq_true_eq, or_assoc]
  case subsampled =>
    simp only [Bool.and_eq_true, Bool.not_eq_true', Bool.or_eq_true, decide_eq_true_eq, isYCgCoFamily_classify_iff,
      and_assoc]
    rfl
  case limited =>
    simp only [Bool.and_eq_true, Bool.not_eq_true', isYCgCoR_classify_iff, and_assoc]
    rfl
  case stride =>
    simp only [decodeStrideShort, Bool.or_eq_true, decide_eq_true_eq]
    rfl
  case chromaStride =>
    simp only [chromaStrideShort, Bool.and_eq_true, Bool.not_eq_true', Bool.or_eq_true, decide_eq_true_eq]
    rfl
  case address =>
    rw [addressesOk_congr_reads fun b => mem_decodeColorReads_iff, Bool.not_eq_true']
    rfl
  case size => exact sizeDiffers_iff

theorem decodeColorCheck_eq_none_iff {p : Params} {s : State} :
    decodeColorCheck p s = none ↔ decodeColorVerdict p s = none := by
  rw [← map_decodeColorCheck, Option.map_eq_none_iff]

end Sys2Proof.DecodeColorCheck
end

