-- ==== Sys2Proof/Proofs/DecodeColorStores.lean ====
section
/-! PROOFS. The elements DECODE_COLOR writes (20_memory.md rules R75, R80, 45_decoder.md rule R236): where the channels
of a pixel lie; elements of a grid of cells share no byte, so each is read back. -/

namespace Sys2Proof.DecodeColorStores
open Sys2Proof.Machine Sys2Proof.DecodeColorCheck Sys2Proof.InvariantStep Sys2Proof.Quantisation

/-! ### Where a channel of a pixel lies -/

/-- A field at the low end of a word. -/
theorem getField_zero (w : Word) (hi : Nat) : getField w hi 0 = w.toNat % 2 ^ (hi + 1) := by
  rw [getField, pow_zero, Nat.div_one, Nat.sub_zero]

theorem pixelFormat_bgra8 {w : Word} (h : w.toNat % 2 ^ 2 = 0) : pixelFormat w = .bgra8 := by
  rw [pixelFormat, getField_zero, h]
  rfl

theorem pixelFormat_rgba16 {w : Word} (h : w.toNat % 2 ^ 2 = 1) : pixelFormat w = .rgba16 := by
  rw [pixelFormat, getField_zero, h]
  rfl

theorem pixelFormat_rgbaf32 {w : Word} (h : w.toNat % 2 ^ 2 = 2) : pixelFormat w = .rgbaf32 := by
  rw [pixelFormat, getField_zero, h]
  rfl

/-- The three valid formats (30_encoding.md rule R103). -/
theorem pixelFormat_cases {w : Word} (h : pixelFormat w ≠ .invalid) :
    (w.toNat % 2 ^ 2 = 0 ∧ pixelFormat w = .bgra8) ∨ (w.toNat % 2 ^ 2 = 1 ∧ pixelFormat w = .rgba16) ∨
      (w.toNat % 2 ^ 2 = 2 ∧ pixelFormat w = .rgbaf32) := by
  have hvalid : w.toNat % 2 ^ 2 ≠ 3 := fun h3 => h (pixelFormat_invalid_iff.2 (getField_zero w 1 ▸ h3))
  have hrange : w.toNat % 2 ^ 2 = 0 ∨ w.toNat % 2 ^ 2 = 1 ∨ w.toNat % 2 ^ 2 = 2 := by omega
  exact hrange.imp (fun h0 => ⟨h0, pixelFormat_bgra8 h0⟩)
    (Or.imp (fun h1 => ⟨h1, pixelFormat_rgba16 h1⟩) fun h2 => ⟨h2, pixelFormat_rgbaf32 h2⟩)

/-- The channels of a pixel, format by format (20_memory.md rule R75). -/
theorem channelAddr_of_format {f : Surface} {fmt : PixelFormat} (h : pixelFormat f.fmt = fmt) (x y : Nat)
    (c : Channel) :
    channelAddr f x y c = f.base.toNat + y * f.stride.toNat + x * bpp fmt + channelOffset fmt c := by
  rw [channelAddr, pixAddr, h]

/-! ### Elements of a grid of cells -/

/-- The element lies in the `n` bytes from `a` on. -/
def Within (a n : Nat) (e : Store) : Prop := a ≤ e.addr ∧ e.addr + e.size ≤ a + n

/-- Elements in cells that follow one another share no byte. -/
theorem storesApart_of_within {a b n : Nat} {e e' : Store} (hab : a + n ≤ b) (he : Within a n e)
    (he' : Within b n e') : storesApart e e' :=
  .inl (he.2.trans (hab.trans he'.1))

/-- Elements share no byte where each lies in the cell of its grid position, the rows of cells do not overlap, and the
elements of one cell share none. -/
theorem pairwise_gridStores {base stride bytes w h : Nat} {f : Nat → Nat → List Store} (hrow : w * bytes ≤ stride)
    (hcell : ∀ x y, ∀ e ∈ f x y, Within (base + y * stride + x * bytes) bytes e)
    (hown : ∀ x y, (f x y).Pairwise storesApart) : (gridStores w h f).Pairwise storesApart := by
  refine List.pairwise_flatMap.2 ⟨fun y _ => List.pairwise_flatMap.2 ⟨fun x _ => hown x y, ?columns⟩, ?rows⟩
  case columns =>
    refine List.pairwise_lt_range.imp fun {x x'} hlt e he e' he' => ?_
    have hnext : (x + 1) * bytes ≤ x' * bytes := Nat.mul_le_mul_right _ hlt
    refine storesApart_of_within ?_ (hcell x y e he) (hcell x' y e' he')
    rw [Nat.add_one_mul] at hnext
    omega
  case rows =>
    refine List.pairwise_lt_range.imp fun {y y'} hlt e he e' he' => ?_
    obtain ⟨x, hx, he⟩ := List.mem_flatMap.1 he
    obtain ⟨x', _, he'⟩ := List.mem_flatMap.1 he'
    have hnext : (y + 1) * stride ≤ y' * stride := Nat.mul_le_mul_right _ hlt
    have hend : (x + 1) * bytes ≤ w * bytes := Nat.mul_le_mul_right _ (List.mem_range.1 hx)
    refine storesApart_of_within ?_ (hcell x y e he) (hcell x' y' e' he')
    rw [Nat.add_one_mul] at hnext hend
    omega

/-- A channel element lies in its pixel (20_memory.md rule R75). -/
theorem within_channelStore {f : Surface} (hf : pixelFormat f.fmt ≠ .invalid) (m : NumMode) (px py : Nat)
    (c : Channel) (v : Num) :
    Within (pixAddr f px py) (bpp (pixelFormat f.fmt)) (channelStore m f px py c v) := by
  have hchannel := channelOffset_add_le_bpp hf c
  simp only [Within, channelStore, channelAddr]
  omega

/-- The three colour elements of a pixel share no byte. -/
theorem pairwise_colourStores {f : Surface} (hf : pixelFormat f.fmt ≠ .invalid) (m : NumMode) (px py : Nat)
    (v : Rgb) : (colourStores m f px py v).Pairwise storesApart := by
  simp only [colourStores, channelStore, channelAddr, List.pairwise_cons, List.mem_cons, List.not_mem_nil, or_false,
    forall_eq_or_imp, forall_eq, storesApart]
  cases hfmt : pixelFormat f.fmt with
  | invalid => exact absurd hfmt hf
  | _ => simp [channelOffset, channelBytes]

theorem stride_of_decodeColorCheck {p : Params} {s : State} (h : decodeColorCheck p s = none) :
    s.surf.width.toNat * bpp (pixelFormat s.surf.fmt) ≤ s.surf.stride.toNat := by
  obtain ⟨hfirst, _⟩ := Option.or_eq_none_iff.1 h
  simp only [firstFailure_none, List.forall_mem_cons] at hfirst
  obtain ⟨_, _, _, _, _, _, _, hstride, _⟩ := hfirst
  simp only [decodeStrideShort, Bool.or_eq_false_iff, decide_eq_false_iff_not] at hstride
  omega

/-- No two elements DECODE_COLOR writes share a byte (20_memory.md rule R80). -/
theorem pairwise_decodeColorStores {p : Params} {s : State} (h : decodeColorCheck p s = none) :
    (decodeColorStores p s).Pairwise storesApart := by
  obtain ⟨_, hformat, _⟩ := decodeColorCheck_passed h
  have hstride := stride_of_decodeColorCheck h
  have hwidth : (placement s).copyW ≤ s.surf.width.toNat := (Nat.min_le_right _ _).trans (Nat.sub_le _ _)
  refine pairwise_gridStores (base := pixAddr s.surf (placement s).x0 (placement s).y0)
    ((Nat.mul_le_mul_right _ hwidth).trans hstride) (fun x y e he => ?_) fun x y => pairwise_colourStores hformat ..
  have hpixel : pixAddr s.surf ((placement s).x0 + x) ((placement s).y0 + y) =
      pixAddr s.surf (placement s).x0 (placement s).y0 + y * s.surf.stride.toNat +
        x * bpp (pixelFormat s.surf.fmt) := by
    simp only [pixAddr]
    ring
  rw [← hpixel]
  simp only [colourStores, List.mem_cons, List.not_mem_nil, or_false] at he
  rcases he with rfl | rfl | rfl <;> exact within_channelStore hformat ..

/-! ### The elements read back -/

/-- A stored channel fits its element (41_color_matrix.md rule R158). -/
theorem quantOut_lt (m : NumMode) (f : PixelFormat) (v : Num) : quantOut m f v < 256 ^ channelBytes f := by
  cases f with
  | bgra8 => exact Nat.lt_succ_of_le (quant_le m v (by decide))
  | rgba16 => exact Nat.lt_succ_of_le (quant_le m v (by decide))
  | rgbaf32 => exact (enc32 (clamp01 v)).isLt
  | invalid => exact Nat.pow_pos (by decide)

/-- Each colour channel of a placed pixel reads as the quantised channel (45_decoder.md rule R236). -/
theorem memRead_decodeColorStores {p : Params} {s : State} (hmem : memWf s.mem = true)
    (h : decodeColorCheck p s = none) {x y : Nat} (hx : x < (placement s).copyW) (hy : y < (placement s).copyH)
    {c : Channel} {v : Num}
    (hc : channelStore p.num s.surf ((placement s).x0 + x) ((placement s).y0 + y) c v ∈
      colourStores p.num s.surf ((placement s).x0 + x) ((placement s).y0 + y)
        (decodedPixel p s (colourTables p s) x y)) :
    memRead (memStores s.mem (decodeColorStores p s))
        (channelAddr s.surf ((placement s).x0 + x) ((placement s).y0 + y) c) (channelBytes (pixelFormat s.surf.fmt)) =
      quantOut p.num (pixelFormat s.surf.fmt) v := by
  have hread := memRead_memStores hmem (storesInRange_decodeColorStores h) (pairwise_decodeColorStores h)
    (mem_gridStores.2 ⟨x, y, hx, hy, hc⟩)
  exact hread.trans (Nat.mod_eq_of_lt (quantOut_lt _ _ _))

end Sys2Proof.DecodeColorStores
end

