-- ==== Sys2Proof/Proofs/DecodeColorPixels.lean ====
section
/-! PROOFS. The pixels DECODE_COLOR writes (41_color_matrix.md rules R153 to R158, 45_decoder.md rules R232 to R236): a
pixel is a function of the table entries of the fetched codes, and those are the entries the command leaves. -/

namespace Sys2Proof.DecodeColorPixels
open Sys2Proof.Machine Sys2Proof.DecodeColorCheck Sys2Proof.DecodeColorStores Sys2Proof.InvariantStep

/-- DECODE_COLOR with its checks passed: the memory and the tables it leaves (45_decoder.md rule R230). -/
theorem exec_decodeColor_of_verdict {s : State} (h : decodeColorVerdict Config.params s = none) :
    ∃ t, exec .decodeColor s = .next t ∧ codeOf t = 0 ∧ t.lut = colourTables Config.params s ∧
      t.mem = memStores s.mem (decodeColorStores Config.params s) := by
  refine ⟨succeed (decodeColorEffect Config.params s), ?_, statusWithCode_code _ .ok, rfl, rfl⟩
  rw [exec, execDecodeColor, decodeColorCheck_eq_none_iff.2 h, command_succeeds]

/-! ### The pixel from the table entries -/

/-- The matrix codes with a class of their own, and all others (40_resolver.md rule R131). -/
theorem classify_cases (mc : Nat) :
    mc = 0 ∨ mc = 8 ∨ mc = 16 ∨ mc = 17 ∨ (mc ≠ 0 ∧ mc ≠ 8 ∧ mc ≠ 16 ∧ mc ≠ 17 ∧ classify mc = .linear) := by
  unfold classify
  split_ifs <;> simp [*]

theorem classify_eq_identity_iff {mc : Nat} : classify mc = .identity ↔ mc = 0 := by
  rcases classify_cases mc with rfl | rfl | rfl | rfl | ⟨h0, _, _, _, hlinear⟩
  case inr.inr.inr.inr => simp [hlinear, h0]
  all_goals decide

/-- The largest RGB code by the matrix code of the class (41_color_matrix.md rule R156). -/
theorem reversibleMax_classify (mc bd : Nat) :
    reversibleMax (classify mc) bd = if mc = 16 then 2 ^ (bd - 2) - 1 else 2 ^ (bd - 1) - 1 := by
  rcases classify_cases mc with rfl | rfl | rfl | rfl | ⟨_, _, h16, _, hlinear⟩
  case inr.inr.inr.inr => rw [hlinear, if_neg h16]; rfl
  all_goals rfl

/-- The inverse of each class, by its matrix code (45_decoder.md rule R235). -/
theorem colourPixel_classify (m : NumMode) (mc : Nat) (k : Coefs) (bd : Nat) (t : LutMem) (yc uc vc : Nat) :
    colourPixel m (classify mc) k bd t yc uc vc =
      if mc = 0 then invIdentity t yc uc vc
      else if mc = 8 then invYCgCo m t yc uc vc
      else if mc = 16 ∨ mc = 17 then invYCgCoR m (classify mc) bd yc uc vc
      else invLinear m k t yc uc vc := by
  rcases classify_cases mc with rfl | rfl | rfl | rfl | ⟨h0, h8, h16, h17, hlinear⟩
  case inr.inr.inr.inr => rw [hlinear, if_neg h0, if_neg h8, if_neg (not_or.2 ⟨h16, h17⟩)]; rfl
  all_goals rfl

theorem lutRead_of_getElem? {t : List Num} {i : Nat} {v : Num} (h : t[i]? = some v) : lutRead t i = v := by
  rw [lutRead, List.getD, h, Option.getD_some]

/-- A colour pixel from the three entries its codes select (41_color_matrix.md rules R153 to R156). -/
theorem colourPixel_of_entries {t : LutMem} {yc uc vc : Nat} {yv uv vv : Num} (hy : t.luma[yc]? = some yv)
    (hu : t.chroma[uc]? = some uv) (hv : t.chroma[vc]? = some vv) (m : NumMode) (mc : Nat) (k : Coefs) (bd : Nat) :
    let top : Nat := if mc = 16 then 2 ^ (bd - 2) - 1 else 2 ^ (bd - 1) - 1
    let i := reversibleRgb top bd yc uc vc
    colourPixel m (classify mc) k bd t yc uc vc =
      if mc = 0 then ⟨vv, yv, uv⟩
      else if mc = 8 then ⟨numAdd m (numSub m yv uv) vv, numAdd m yv uv, numSub m (numSub m yv uv) vv⟩
      else if mc = 16 ∨ mc = 17 then
        ⟨numDiv m (numOf i.1) (numOf top), numDiv m (numOf i.2.1) (numOf top), numDiv m (numOf i.2.2) (numOf top)⟩
      else
        ⟨numAdd m yv (numMul m (numMul m (numOf 2) (numSub m (numOf 1) k.kr)) vv),
         numSub m yv (numDiv m (numMul m (numOf 2)
           (numAdd m (numMul m (numMul m k.kr (numSub m (numOf 1) k.kr)) vv)
             (numMul m (numMul m k.kb (numSub m (numOf 1) k.kb)) uv))) k.kg),
         numAdd m yv (numMul m (numMul m (numOf 2) (numSub m (numOf 1) k.kb)) uv)⟩ := by
  simp only [colourPixel_classify, invIdentity, invYCgCo, invYCgCoR, invLinear, reversibleMax_classify,
    lutRead_of_getElem? hy, lutRead_of_getElem? hu, lutRead_of_getElem? hv]

/-- The tables of a colour decode, by the codes of the effective model (45_decoder.md rule R233). -/
theorem colourTables_eq (p : Params) (s : State) :
    colourTables p s = buildTables p (frameFormat s.frm.fmt).depth (frameFormat s.frm.fmt).mono
      (decide ((effectiveModel s).mc = 0)) (effectiveModel s).fr := by
  simp only [colourTables, classify_eq_identity_iff]

/-- The luma entry of a fetched code (45_decoder.md rule R234). -/
theorem colourTables_luma (p : Params) (s : State) (pl : Plane) (x y : Nat) :
    (colourTables p s).luma[fetchSample s pl x y]? =
      some (lumaEntry p.num (frameFormat s.frm.fmt).depth (effectiveModel s).fr (fetchSample s pl x y)) := by
  rw [colourTables_eq, buildTables_luma, if_pos (fetchSample_lt s pl x y)]

/-- The chroma entry of a fetched code (45_decoder.md rule R234). -/
theorem colourTables_chroma (p : Params) {s : State} (hmono : (frameFormat s.frm.fmt).mono = false) (pl : Plane)
    (x y : Nat) :
    (colourTables p s).chroma[fetchSample s pl x y]? =
      some (chromaEntry p (frameFormat s.frm.fmt).depth (effectiveModel s).fr (decide ((effectiveModel s).mc = 0))
        (fetchSample s pl x y)) := by
  rw [colourTables_eq, buildTables_chroma, if_pos ⟨hmono, fetchSample_lt s pl x y⟩]

/-! ### The operands as the statement writes them -/

/-- A one-bit field as a number. -/
theorem getField_bit (w : Word) (i : Nat) : getField w i i = if w.getLsbD i then 1 else 0 := by
  rw [getField, Nat.add_sub_cancel_left, pow_one, ← BitVec.testBit_toNat, Nat.testBit_eq_decide_div_mod_eq]
  split <;> simp_all

/-- The bytes of a channel element, by the format code (20_memory.md rule R73). -/
theorem channelBytes_eq {w : Word} (h : pixelFormat w ≠ .invalid) :
    channelBytes (pixelFormat w) = if w.toNat % 2 ^ 2 = 0 then 1 else if w.toNat % 2 ^ 2 = 1 then 2 else 4 := by
  rcases pixelFormat_cases h with ⟨hcode, hfmt⟩ | ⟨hcode, hfmt⟩ | ⟨hcode, hfmt⟩ <;> rw [hcode, hfmt] <;> rfl

/-- The stored element of a channel, by the format code (41_color_matrix.md rule R158). -/
theorem quantOut_eq {w : Word} (h : pixelFormat w ≠ .invalid) (m : NumMode) (c : Num) :
    quantOut m (pixelFormat w) c =
      if w.toNat % 2 ^ 2 = 0 then quant m c 255 else if w.toNat % 2 ^ 2 = 1 then quant m c 65535
      else (enc32 (if c < 0 then 0 else if 1 < c then 1 else c)).toNat := by
  rcases pixelFormat_cases h with ⟨hcode, hfmt⟩ | ⟨hcode, hfmt⟩ | ⟨hcode, hfmt⟩ <;> rw [hcode, hfmt] <;>
    simp [quantOut, clamp01]

/-- Settles O46: the elements are read back, and the pixel is that of the table entries of the fetched codes. -/
theorem decodeColorPixels : Obligations.DecodeColorPixels := by
  unfold Obligations.DecodeColorPixels
  refine ⟨fun f x y => ⟨fun h => ?bgra8, fun h => ?rgba16, fun h => ?rgbaf32⟩, fun _ _ _ _ => rfl,
    fun s hmem hverdict => ?pixels⟩
  case bgra8 =>
    have haddr := channelAddr_of_format (pixelFormat_bgra8 h) x y
    exact ⟨haddr .b, haddr .g, haddr .r, haddr .a⟩
  case rgba16 =>
    have haddr := channelAddr_of_format (pixelFormat_rgba16 h) x y
    exact ⟨haddr .b, haddr .g, haddr .r, haddr .a⟩
  case rgbaf32 =>
    have haddr := channelAddr_of_format (pixelFormat_rgbaf32 h) x y
    exact ⟨haddr .b, haddr .g, haddr .r, haddr .a⟩
  intro p m fmt elem stored pl eff mc k full bd mono xsh ysh uPl vPl n code
  have hcheck := decodeColorCheck_eq_none_iff.2 hverdict
  obtain ⟨_, hformat, _⟩ := decodeColorCheck_passed hcheck
  obtain ⟨t, hexec, hcode, hlut, htmem⟩ := exec_decodeColor_of_verdict hverdict
  refine ⟨t, hexec, hcode, fun x y hx hy => ?_⟩
  intro cx cy yc uc vc yv uv vv top cg co gi bi ri pixel
  have heff : effectiveModel s = colourModel eff := effectiveModel_eq s
  have hdepth : (frameFormat s.frm.fmt).depth = bd := getField_zero _ 4
  have hcp : (colourModel eff).cp = eff.toNat % 2 ^ 8 := getField_zero _ 7
  have hxsh : (frameFormat s.frm.fmt).xsh = xsh := getField_bit _ 8
  have hysh : (frameFormat s.frm.fmt).ysh = ysh := getField_bit _ 9
  have hcidx : cidx s x y = (cx, cy) := by rw [cidx, hxsh, hysh]; rfl
  have hfetch (q : Plane) (x y : Nat) : fetchSample s q x y = code q x y := by rw [fetchSample, hdepth]; rfl
  have hyc : fetchY s x y = yc := hfetch ..
  have huc : fetchU s x y = uc := by rw [fetchU, hcidx]; exact hfetch ..
  have hvc : fetchV s x y = vc := by rw [fetchV, hcidx]; exact hfetch ..
  have hyv : t.lut.luma[yc]? = some yv := by
    have hluma := colourTables_luma p s s.yPlane x y
    rwa [hfetch, hdepth, heff, ← hlut] at hluma
  have hchroma (hmono : mono = false) (q : Plane) : t.lut.chroma[code q cx cy]? =
      some (chromaEntry p bd full (decide (mc = 0)) (code q cx cy)) := by
    have hentry := colourTables_chroma p (s := s) hmono q cx cy
    rwa [hfetch, hdepth, heff, ← hlut] at hentry
  have hpixel : decodedPixel p s (colourTables p s) x y = pixel := by
    simp only [decodedPixel, hyc, huc, hvc, hdepth, heff, hcp]
    rw [← hlut]
    refine if_ctx_congr Iff.rfl (fun _ => ?_) fun hcolour => ?_
    · rw [invMono, lutRead_of_getElem? hyv]
    · have hmono := Bool.eq_false_of_not_eq_true hcolour
      exact colourPixel_of_entries hyv (hchroma hmono uPl) (hchroma hmono vPl) m mc k bd
  have hread (c : Channel) (v : Num) (hc : channelStore m s.surf (pl.x0 + x) (pl.y0 + y) c v ∈
      colourStores m s.surf (pl.x0 + x) (pl.y0 + y) pixel) :
      memRead t.mem (channelAddr s.surf (pl.x0 + x) (pl.y0 + y) c) elem = stored v := by
    have h := memRead_decodeColorStores hmem hcheck hx hy (hpixel ▸ hc)
    rwa [channelBytes_eq hformat, quantOut_eq hformat, ← htmem] at h
  exact ⟨hyv, fun hmono => ⟨hchroma hmono uPl, hchroma hmono vPl⟩, hread .r _ (by simp [colourStores]),
    hread .g _ (by simp [colourStores]), hread .b _ (by simp [colourStores])⟩

end Sys2Proof.DecodeColorPixels
end

