-- ==== Sys2Proof/Proofs/CommandWords.lean ====
section
/-! PROOFS. Command words (30_encoding.md rules R100 to R102): a word is of a format exactly when its fields are the
format's, so the decoder inverts the encoder; the opcode map and the illegal words follow from this. -/

namespace Sys2Proof.CommandWords
open Sys2Proof.Machine Sys2Proof.HostAccess

/-! ### The two formats -/

theorem zeroAboveC0_iff {w : Word} : zeroAboveC0 w = true ↔ w.extractLsb' 8 24 = 0#24 := beq_iff_eq

theorem zeroAboveC1_iff {w : Word} : zeroAboveC1 w = true ↔ w.extractLsb' 9 23 = 0#23 := beq_iff_eq

/-- A word with the fields of format `C0` is made of them. -/
theorem formatC0_wordOp {w : Word} (h : zeroAboveC0 w = true) : formatC0 (wordOp w) = w := by
  rw [formatC0, ← zeroAboveC0_iff.1 h, wordOp,
    BitVec.extractLsb'_append_extractLsb'_eq_extractLsb' (show 8 = 0 + 8 from rfl)]
  exact BitVec.extractLsb'_eq_self

/-- A word with the fields of format `C1` is made of them. -/
theorem formatC1_wordOp {w : Word} (h : zeroAboveC1 w = true) : formatC1 (wordOp w) (wordBank w) = w := by
  rw [formatC1, ← zeroAboveC1_iff.1 h, wordOp, wordBank,
    BitVec.extractLsb'_append_extractLsb'_eq_extractLsb' (show 9 = 8 + 1 from rfl),
    BitVec.extractLsb'_append_extractLsb'_eq_extractLsb' (show 8 = 0 + 8 from rfl)]
  exact BitVec.extractLsb'_eq_self

/-- The bits of a `C1` word: those of the `C0` word of its opcode, but for the bank in bit 8. -/
theorem getLsbD_formatC1 (op : BitVec 8) (b : Bank) {i : Nat} (hi : i < 32) :
    (formatC1 op b).getLsbD i = if i = 8 then b.getLsbD 0 else (formatC0 op).getLsbD i := by
  simp only [formatC1, formatC0, BitVec.getLsbD_append, BitVec.getLsbD_zero]
  rcases lt_trichotomy i 8 with h | rfl | h
  · simp [h, h.ne]
  · rfl
  · simp [h.not_gt, h.ne', show ¬ i - 8 < 1 by omega]

/-- The mask of format `C1` leaves out bit 8 alone (30_encoding.md rule R101). -/
theorem getLsbD_maskC1 : ∀ i < 32, (0xFFFFFEFF : Word).getLsbD i = decide (i ≠ 8) := by decide

theorem formatC0_bank_bit (op : BitVec 8) : (formatC0 op).getLsbD 8 = false := by
  rw [formatC0, BitVec.getLsbD_append]
  rfl

/-- A word is a `C1` word when it is the pattern of its row under the mask and the bank is bit 8. -/
theorem formatC1_eq_iff {op : BitVec 8} {b : Bank} {w : Word} :
    formatC1 op b = w ↔ w &&& 0xFFFFFEFF = formatC0 op ∧ b.getLsbD 0 = w.getLsbD 8 := by
  constructor
  · rintro rfl
    refine ⟨BitVec.eq_of_getLsbD_eq fun i hi => ?_, by rw [getLsbD_formatC1 op b (by decide), if_pos rfl]⟩
    rw [BitVec.getLsbD_and, getLsbD_maskC1 i hi, getLsbD_formatC1 op b hi]
    by_cases h : i = 8
    · rw [h, formatC0_bank_bit, decide_eq_false (by simp), Bool.and_false]
    · simp [h]
  · rintro ⟨hpattern, hbank⟩
    refine BitVec.eq_of_getLsbD_eq fun i hi => ?_
    rw [getLsbD_formatC1 op b hi, hbank, ← hpattern, BitVec.getLsbD_and, getLsbD_maskC1 i hi]
    by_cases h : i = 8 <;> simp [h]

/-! ### Decoding and encoding -/

theorem formatted_eq_ok {zeros : Bool} {i j : Instr} (h : formatted zeros i = .ok j) : zeros = true ∧ i = j := by
  unfold formatted at h
  split at h
  · exact ⟨‹_›, Except.ok.inj h⟩
  · cases h

/-- A word that decodes as a `C0` command is the word of that command. -/
theorem encode_of_formattedC0 {w : Word} {op : BitVec 8} {i j : Instr} (hop : wordOp w = op)
    (h : formatted (zeroAboveC0 w) i = .ok j) (hi : encode i = formatC0 op) : encode j = w := by
  obtain ⟨hzero, rfl⟩ := formatted_eq_ok h
  exact (hop ▸ hi).trans (formatC0_wordOp hzero)

/-- A word that decodes as a `C1` command is the word of that command. -/
theorem encode_of_formattedC1 {w : Word} {op : BitVec 8} {i j : Instr} (hop : wordOp w = op)
    (h : formatted (zeroAboveC1 w) i = .ok j) (hi : encode i = formatC1 op (wordBank w)) : encode j = w := by
  obtain ⟨hzero, rfl⟩ := formatted_eq_ok h
  exact (hop ▸ hi).trans (formatC1_wordOp hzero)

/-- What a word decodes to is a command whose word it is. -/
theorem encode_of_decode {w : Word} {i : Instr} (h : decode w = .ok i) : encode i = w := by
  unfold decode at h
  split_ifs at h with h₁ h₂ h₃ h₄ h₅ h₆ h₇ h₈
  · exact encode_of_formattedC0 h₁ h rfl
  · exact encode_of_formattedC0 h₂ h rfl
  · exact encode_of_formattedC0 h₃ h rfl
  · exact encode_of_formattedC0 h₄ h rfl
  · exact encode_of_formattedC0 h₅ h rfl
  · exact encode_of_formattedC0 h₆ h rfl
  · exact encode_of_formattedC1 h₇ h rfl
  · exact encode_of_formattedC1 h₈ h rfl

/-- Settles O11: the word of a command decodes to it, and a word that decodes has no bits but the command's. -/
theorem decodeIffEncode : Obligations.DecodeIffEncode := by
  unfold Obligations.DecodeIffEncode
  exact fun w i => ⟨encode_of_decode, fun h => h ▸ decode_encode i⟩

/-- Settles O10: each word is the encoder's for the command. -/
theorem decodeSampleWords : Obligations.DecodeSampleWords := by
  unfold Obligations.DecodeSampleWords
  have hdecode := decodeIffEncode
  exact ⟨(hdecode _ _).2 rfl, (hdecode _ _).2 rfl, (hdecode _ _).2 rfl, (hdecode _ _).2 rfl, (hdecode _ _).2 rfl,
    (hdecode _ _).2 rfl, (hdecode _ _).2 rfl, (hdecode _ _).2 rfl⟩

/-- A command of format `C0` is selected by its whole word. -/
theorem decode_eq_ok_iff_and_ones {w pattern : Word} {i : Instr} (h : encode i = pattern) :
    decode w = .ok i ↔ w &&& 0xFFFFFFFF = pattern := by
  have hones : w &&& 0xFFFFFFFF = w := BitVec.and_allOnes
  rw [decodeIffEncode w i, h, hones, eq_comm]

/-- A command of format `C1` is selected by the bits outside bit 8, and bit 8 is its bank. -/
theorem decode_eq_ok_iff_and_maskC1 {w pattern : Word} {op : BitVec 8} {b : Bank} {i : Instr}
    (h : encode i = formatC1 op b) (hpattern : formatC0 op = pattern) :
    decode w = .ok i ↔ w &&& 0xFFFFFEFF = pattern ∧ b.getLsbD 0 = w.getLsbD 8 := by
  rw [decodeIffEncode w i, h, formatC1_eq_iff, hpattern]

/-- Settles O12: a word decodes to a command exactly when it is the command's word, which its row's mask and match say
of format `C0` in all bits and of format `C1` in all bits but the bank's. -/
theorem opcodeMapSelects : Obligations.OpcodeMapSelects := by
  unfold Obligations.OpcodeMapSelects
  exact fun w => ⟨decode_eq_ok_iff_and_ones rfl, decode_eq_ok_iff_and_ones rfl, decode_eq_ok_iff_and_ones rfl,
    decode_eq_ok_iff_and_ones rfl, decode_eq_ok_iff_and_ones rfl, decode_eq_ok_iff_and_ones rfl,
    fun _ => decode_eq_ok_iff_and_maskC1 rfl rfl, fun _ => decode_eq_ok_iff_and_maskC1 rfl rfl⟩

/-! ### Illegal words -/

/-- Every command, `C1` commands with each bank. -/
def allCommands : List Instr :=
  [.resolve, .buildLut, .encodeColor, .encodeAlpha, .decodeColor, .decodeAlpha, .tileValidate 0#1, .tileValidate 1#1,
    .tileReset 0#1, .tileReset 1#1]

theorem mem_allCommands (i : Instr) : i ∈ allCommands := by
  cases i with
  | tileValidate b => rcases bank_cases b with rfl | rfl <;> decide
  | tileReset b => rcases bank_cases b with rfl | rfl <;> decide
  | _ => decide

/-- The ten words that are commands, as numbers. -/
theorem exists_decode_eq_ok_iff {w : Word} :
    (∃ i, decode w = .ok i) ↔ w.toNat ∈ [1, 2, 3, 4, 5, 6, 7, 0x107, 8, 0x108] := by
  have hwords : [1, 2, 3, 4, 5, 6, 7, 0x107, 8, 0x108] = allCommands.map fun i => (encode i).toNat := by decide
  rw [hwords, List.mem_map]
  refine exists_congr fun i => ?_
  rw [decodeIffEncode w i, BitVec.toNat_inj, and_iff_right (mem_allCommands i)]

theorem exists_decode_eq_error_iff {w : Word} : (∃ e, decode w = .error e) ↔ ¬ ∃ i, decode w = .ok i := by
  cases decode w <;> simp

theorem statusWithCode_eq_withCode (w : Word) (c : Status) : statusWithCode w c = withCode w (statusCode c) := by
  cases c <;> rfl

/-- A write of an illegal word to `CMD` writes `STATUS.CODE` (30_encoding.md rule R102). -/
theorem step_illegal {s : State} {w : Word} {e : DecodeError} {rest : List HostTx} (hhost : s.host = cmdWrite w :: rest)
    (hdec : decode w = .error e) : step s = .next (illegalCommand (setHost s rest)) := by
  rw [step_cmdWrite hhost, runWord, hdec]

/-- Settles O13: the illegal words are those that are none of the ten command words. -/
theorem illegalWordIsBadCommand : Obligations.IllegalWordIsBadCommand := by
  unfold Obligations.IllegalWordIsBadCommand
  refine ⟨fun w => ?_, fun s w e rest hhost hdec => ?_⟩
  · have hbank : w.getLsbD 8 = true ↔ w.toNat / 256 % 2 = 1 := by
      rw [← BitVec.testBit_toNat, Nat.testBit_eq_decide_div_mod_eq, decide_eq_true_iff]
    rw [exists_decode_eq_error_iff, exists_decode_eq_ok_iff, hbank]
    simp only [List.mem_cons, List.not_mem_nil, or_false]
    omega
  · rw [step_illegal hhost hdec, illegalCommand, fail_eq, statusWithCode_eq_withCode]
    rfl

end Sys2Proof.CommandWords
end

