-- ==== Sys2Proof/Proofs/HostMemory.lean ====
section
/-! PROOFS. The host's memory transactions (30_encoding.md rule R111, 20_memory.md rules R70, R72, 00_scope.md rule R10):
where each goes on the bus, and what the bytes are before and after it. -/

namespace Sys2Proof.HostMemory
open Sys2Proof.Machine Sys2Proof.HostAccess

/-! ### The way on the bus -/

theorem touchesWindow_eq_false {p : Params} {a n : Nat} (h : a + n ≤ p.cmcBase ∨ p.cmcBase + 4096 ≤ a) :
    touchesWindow p a n = false := by
  rw [touchesWindow, Bool.and_eq_false_iff, decide_eq_false_iff_not, decide_eq_false_iff_not]
  omega

/-- A transaction outside the register window reaches memory. -/
theorem busRoute_memory {p : Params} {a n : Nat} (hrange : a + n ≤ 2 ^ 32)
    (hclear : a + n ≤ p.cmcBase ∨ p.cmcBase + 4096 ≤ a) (onMemory : Fetched) (onRegister : BitVec 12 → Fetched) :
    busRoute p a n onMemory onRegister = onMemory := by
  rw [busRoute, if_neg hrange.not_gt, touchesWindow_eq_false hclear, if_neg Bool.false_ne_true]

/-- The register window ends at or below `2^AW`. -/
theorem cmcBase_add_le (p : Params) : p.cmcBase + 4096 ≤ 2 ^ 32 := by
  have := p.cmcPage.isLt
  rw [Params.cmcBase]
  omega

/-- An aligned 4-byte transaction inside the register window reaches the register at that offset. -/
theorem busRoute_register {p : Params} {a : Nat} (hlo : p.cmcBase ≤ a) (hhi : a < p.cmcBase + 4096)
    (halign : a % 4 = 0) (onMemory : Fetched) (onRegister : BitVec 12 → Fetched) :
    busRoute p a 4 onMemory onRegister = onRegister (BitVec.ofNat 12 (a - p.cmcBase)) := by
  have hrange : a + 4 ≤ 2 ^ 32 := by
    have := cmcBase_add_le p
    omega
  have htouch : touchesWindow p a 4 = true := by
    rw [touchesWindow, Bool.and_eq_true, decide_eq_true_iff, decide_eq_true_iff]
    omega
  rw [busRoute, if_neg hrange.not_gt, if_pos htouch, if_pos ⟨rfl, halign⟩]

theorem accessBytes_four : accessBytes .four = 4 := rfl

section
variable {p : Params} {a : Word} (hlo : p.cmcBase ≤ a.toNat) (hhi : a.toNat < p.cmcBase + 4096)
  (halign : a.toNat % 4 = 0)
include hlo hhi halign

theorem hostTransaction_memWrite_window (v : Word) (s : State) :
    hostTransaction p (.memWrite a .four v) s =
      hostTransaction p (.regWrite (BitVec.ofNat 12 (a.toNat - p.cmcBase)) v) s := by
  rw [hostTransaction, hostTransaction, accessBytes_four, busRoute_register hlo hhi halign]

theorem hostTransaction_memRead_window (s : State) :
    hostTransaction p (.memRead a .four) s =
      hostTransaction p (.regRead (BitVec.ofNat 12 (a.toNat - p.cmcBase))) s := by
  rw [hostTransaction, hostTransaction, accessBytes_four, busRoute_register hlo hhi halign]

end

theorem hostTransaction_regWrite_ne_idle (p : Params) (off : BitVec 12) (v : Word) (s : State) :
    hostTransaction p (.regWrite off v) s ≠ .idle := by
  rw [hostTransaction, busRegWrite]
  split
  · split
    · exact nofun
    · split <;> exact nofun
  · exact nofun

theorem hostTransaction_regRead_ne_idle (p : Params) (off : BitVec 12) (s : State) :
    hostTransaction p (.regRead off) s ≠ .idle := by
  rw [hostTransaction, busRegRead]
  split
  · split <;> exact nofun
  · exact nofun

/-- Two transactions that the bus treats alike give one step. -/
theorem step_congr_tx {s : State} {tx tx' : HostTx} {rest : List HostTx} (hhost : s.host = tx :: rest)
    (htx : hostTransaction Config.params tx (setHost s rest) = hostTransaction Config.params tx' (setHost s rest))
    (hidle : hostTransaction Config.params tx' (setHost s rest) ≠ .idle) :
    step s = step { s with host := tx' :: rest } := by
  have hnext' : nextTx { s with host := tx' :: rest } = hostTransaction Config.params tx' (setHost s rest) :=
    nextTx_cons rfl
  rw [step, step, nextTx_cons hhost, htx, hnext']
  cases h : hostTransaction Config.params tx' (setHost s rest) with
  | idle => exact absurd h hidle
  | done | issued | outOfRange | undefinedAccess => rfl

/-! ### Steps on memory -/

section
variable {s : State} {a : Word} {rest : List HostTx}

/-- `MW<n>` outside the register window. -/
theorem step_memWrite {size : AccessSize} {v : Word} (hhost : s.host = .memWrite a size v :: rest)
    (hrange : a.toNat + accessBytes size ≤ 2 ^ 32)
    (hclear : a.toNat + accessBytes size ≤ Config.params.cmcBase ∨ Config.params.cmcBase + 4096 ≤ a.toNat) :
    step s = .next { s with mem := memWrite s.mem a.toNat (accessBytes size) v.toNat, host := rest } := by
  refine step_of_done hhost ?_
  rw [hostTransaction, busRoute_memory hrange hclear]
  rfl

/-- `MR<n>` outside the register window. -/
theorem step_memRead {size : AccessSize} (hhost : s.host = .memRead a size :: rest)
    (hrange : a.toNat + accessBytes size ≤ 2 ^ 32)
    (hclear : a.toNat + accessBytes size ≤ Config.params.cmcBase ∨ Config.params.cmcBase + 4096 ≤ a.toNat) :
    step s = .next { s with
      host := rest
      hostReads := BitVec.ofNat 32 (memRead s.mem a.toNat (accessBytes size)) :: s.hostReads } := by
  refine step_of_done hhost ?_
  rw [hostTransaction, busRoute_memory hrange hclear]
  rfl

/-- `MB` outside the register window. -/
theorem step_memBytes {bs : List Byte} (hhost : s.host = .memBytes a bs :: rest)
    (hrange : a.toNat + bs.length ≤ 2 ^ 32)
    (hclear : a.toNat + bs.length ≤ Config.params.cmcBase ∨ Config.params.cmcBase + 4096 ≤ a.toNat) :
    step s = .next { s with mem := memBytesWrite s.mem a.toNat bs, host := rest } := by
  refine step_of_done hhost ?_
  rw [hostTransaction, if_neg hrange.not_gt, touchesWindow_eq_false hclear, if_neg Bool.false_ne_true]
  rfl

end

/-! ### Bytes -/

/-- A number in memory is its bytes, the least significant first (00_scope.md rule R10, 20_memory.md rule R72). -/
theorem memRead_eq_sum (m : Memory) (a n : Nat) :
    memRead m a n = ((List.range n).map fun i => (memByte m (a + i)).toNat * 256 ^ i).sum := by
  induction n generalizing a with
  | zero => rfl
  | succ n ih =>
    have hshift : ((List.range n).map fun i => (memByte m (a + (i + 1))).toNat * 256 ^ (i + 1)).sum =
        256 * ((List.range n).map fun i => (memByte m (a + 1 + i)).toNat * 256 ^ i).sum := by
      rw [← List.sum_map_mul_left]
      refine congrArg List.sum (List.map_congr_left fun i _ => ?_)
      rw [Nat.add_comm i 1, ← Nat.add_assoc, Nat.pow_add]
      ring
    rw [memRead, ih, List.range_succ_eq_map, List.map_cons, List.sum_cons, List.map_map]
    exact congrArg₂ (· + ·) (by simp) hshift.symm

/-- What a byte-list write leaves at every address. -/
theorem memByte_memBytesWrite {bs : List Byte} {a x : Nat} {m : Memory} (hm : memWf m = true)
    (ha : a + bs.length ≤ 2 ^ 32) :
    memByte (memBytesWrite m a bs) x = if a ≤ x ∧ x < a + bs.length then bs.getD (x - a) 0 else memByte m x := by
  induction bs generalizing m a with
  | nil => rw [memBytesWrite, if_neg (by simp)]
  | cons b rest ih =>
    rw [List.length_cons] at ha ⊢
    rw [memBytesWrite, ih (memPut_wf hm (by omega)) (by omega), memByte_memPut (lo := 0) hm]
    rcases lt_trichotomy x a with hx | rfl | hx
    · rw [if_neg (by omega), if_neg hx.ne, if_neg (by omega)]
    · rw [if_neg (by omega), if_pos rfl, if_pos (by omega), Nat.sub_self, List.getD_cons_zero]
    · have hsub : x - a = x - (a + 1) + 1 := by omega
      rw [if_neg hx.ne', hsub, List.getD_cons_succ]
      exact if_congr (by omega) rfl rfl

/-! ### The statements -/

/-- Settles O7: outside the window the bus reaches memory, whose bytes after `MemWrite` are the value's; inside it
reaches the register. -/
theorem hostMemoryWriteThenRead : Obligations.HostMemoryWriteThenRead := by
  unfold Obligations.HostMemoryWriteThenRead
  refine ⟨memRead_eq_sum, fun s a size v rest hwf hrange hclear => ⟨fun hhost => ?write, fun hhost => ?read⟩,
    fun s a v rest hlo hhi halign => ⟨fun hhost => ?regWrite, fun hhost => ?regRead⟩⟩
  case write =>
    refine ⟨_, step_memWrite hhost hrange hclear, memWrite_wf hwf hrange, fun x => memByte_memWrite hwf hrange,
      fun rest' hrest => ?_⟩
    rw [step_memRead hrest hrange hclear, memRead_memWrite hwf hrange]
  case read => exact step_memRead hhost hrange hclear
  case regWrite =>
    exact step_congr_tx hhost (hostTransaction_memWrite_window hlo hhi halign v _)
      (hostTransaction_regWrite_ne_idle _ _ _ _)
  case regRead =>
    exact step_congr_tx hhost (hostTransaction_memRead_window hlo hhi halign _)
      (hostTransaction_regRead_ne_idle _ _ _)

/-- Settles O8: outside the window the bus reaches memory, one byte after the other. -/
theorem hostBytesWritten : Obligations.HostBytesWritten := by
  unfold Obligations.HostBytesWritten
  intro s a bs rest hwf hrange hclear hhost
  exact ⟨_, step_memBytes hhost hrange hclear, memBytesWrite_wf hwf hrange,
    fun x => memByte_memBytesWrite hwf hrange⟩

end Sys2Proof.HostMemory
end

