-- ==== Sys2Proof/Proofs/HostScript.lean ====
section
/-! PROOFS. A script of defined transactions runs to its end (30_encoding.md rule R111, 70_reset_and_hazards.md rule
R330): each step takes one transaction off the script, and no command touches the script. -/

namespace Sys2Proof.HostScript
open Sys2Proof.Machine Sys2Proof.HostAccess

/-! ### Commands leave the script alone -/

theorem resolveInto_host (p : Params) (cm : ColourModel) (s : State) : (resolveInto p cm s).host = s.host := by
  rw [resolveInto, writeResolved_eq, setStatus_host, setCoefs_host]

theorem buildInto_host (p : Params) (d : Nat) (mono ident full : Bool) (s : State) :
    (buildInto p d mono ident full s).host = s.host := by
  rw [buildInto, setLut_host]

theorem recordTile_host (b : Bank) (s : State) : (recordTile b s).host = s.host := by
  unfold recordTile
  split
  · exact setBank_host s b _
  · rfl

theorem encodeColorEffect_host (p : Params) (s : State) : (encodeColorEffect p s).host = s.host := by
  rw [encodeColorEffect, setFrame_host, resolveInto_host, setMem_host]

theorem encodeAlphaEffect_host (s : State) : (encodeAlphaEffect s).host = s.host := by
  rw [encodeAlphaEffect, setFrame_host, setMem_host]

theorem decodeColorEffect_host (p : Params) (s : State) : (decodeColorEffect p s).host = s.host := by
  rw [decodeColorEffect, setMem_host, buildInto_host, resolveInto_host, recordTile_host]

theorem decodeAlphaEffect_host (p : Params) (s : State) : (decodeAlphaEffect p s).host = s.host := by
  rw [decodeAlphaEffect, setMem_host, buildInto_host, recordTile_host]

theorem command_continues {effect s : State} (failure : Option Status) (h : effect.host = s.host) :
    ∃ t, command failure effect s = .next t ∧ t.host = s.host := by
  rcases command_cases failure effect s with ⟨c, _, heq⟩ | ⟨_, heq⟩
  · exact ⟨_, heq, rfl⟩
  · exact ⟨_, heq, h⟩

/-- A command completes (60_exceptions.md rule R294), the script as before. -/
theorem exec_continues (i : Instr) (s : State) : ∃ t, exec i s = .next t ∧ t.host = s.host := by
  cases i with
  | resolve => exact command_continues none (resolveInto_host _ _ s)
  | buildLut => exact command_continues (buildLutCheck s) (buildInto_host _ _ _ _ _ s)
  | encodeColor => exact command_continues (encodeColorCheck _ s) (encodeColorEffect_host _ s)
  | encodeAlpha => exact command_continues (encodeAlphaCheck _ s) (encodeAlphaEffect_host s)
  | decodeColor => exact command_continues (decodeColorCheck _ s) (decodeColorEffect_host _ s)
  | decodeAlpha => exact command_continues (decodeAlphaCheck _ s) (decodeAlphaEffect_host _ s)
  | tileValidate b => exact command_continues (tileValidateCheck b s) (recordTile_host b s)
  | tileReset b => exact command_continues none (setBank_host s b TileBank.zero)

/-- A word written to `CMD` completes, whether it is a command or not. -/
theorem runWord_continues (w : Word) (s : State) : ∃ t, runWord w s = .next t ∧ t.host = s.host := by
  unfold runWord
  split
  · exact exec_continues _ s
  · exact ⟨_, rfl, rfl⟩

/-! ### Defined transactions -/

/-- The machine goes on with the script `q` left: an access done, or a command issued. -/
def Continues (q : List HostTx) : Fetched → Prop
  | .done t => t.host = q
  | .issued _ t => t.host = q
  | .idle | .outOfRange | .undefinedAccess => False

theorem continues_done {q : List HostTx} {t : State} (h : t.host = q) : Continues q (.done t) := h

theorem storeReg_host (s : State) (v : Word) (r : RegName) : (storeReg s v r).host = s.host := (storeReg_frame s v r).1

theorem hostWriteReg_host (s : State) (r : RegName) (v : Word) : (hostWriteReg s r v).host = s.host := by
  unfold hostWriteReg
  split
  · exact storeReg_host s _ r
  · rfl
  · rfl

theorem continues_busRegWrite {off : BitVec 12} (halign : off.toNat % 4 = 0) (v : Word) (s : State) :
    Continues s.host (busRegWrite off v s) := by
  rw [busRegWrite, if_pos halign]
  split
  · exact rfl
  · split
    · exact rfl
    · exact hostWriteReg_host s _ v

theorem continues_busRegRead {off : BitVec 12} (halign : off.toNat % 4 = 0) (s : State) :
    Continues s.host (busRegRead off s) := by
  rw [busRegRead, if_pos halign]
  split <;> exact rfl

/-- The offset of an aligned address is aligned, since `CMC_BASE` is (20_memory.md rule R85). -/
theorem window_offset_aligned (p : Params) {a : Nat} (halign : a % 4 = 0) :
    (BitVec.ofNat 12 (a - p.cmcBase)).toNat % 4 = 0 := by
  rw [BitVec.toNat_ofNat, Params.cmcBase]
  omega

theorem continues_busRoute {p : Params} {a n : Nat} {q : List HostTx} {onMemory : Fetched}
    {onRegister : BitVec 12 → Fetched} (hdef : accessDefined p a n = true) (hmemory : Continues q onMemory)
    (hregister : ∀ off : BitVec 12, off.toNat % 4 = 0 → Continues q (onRegister off)) :
    Continues q (busRoute p a n onMemory onRegister) := by
  simp only [accessDefined, Bool.and_eq_true, Bool.or_eq_true, decide_eq_true_eq, beq_iff_eq, Bool.not_eq_true'] at hdef
  obtain ⟨hrange, hwindow⟩ := hdef
  rcases busRoute_cases p a n onMemory onRegister with
    ⟨hout, _⟩ | ⟨_, _, heq⟩ | ⟨_, _, halign, heq⟩ | ⟨htouch, hnarrow, _⟩
  · exact absurd hrange hout.not_ge
  · rwa [heq]
  · rw [heq]
    exact hregister _ (window_offset_aligned p halign)
  · exact absurd (hwindow.resolve_left (by simp [htouch])) hnarrow

/-- A defined transaction is an access done or a command issued, and no more of the script is used. -/
theorem continues_hostTransaction {p : Params} {tx : HostTx} (hdef : HostTx.wellFormed p tx = true) (s : State) :
    Continues s.host (hostTransaction p tx s) := by
  cases tx with
  | regWrite off v => exact continues_busRegWrite (eq_of_beq hdef) v s
  | regRead off => exact continues_busRegRead (eq_of_beq hdef) s
  | memWrite a size v =>
    exact continues_busRoute hdef (continues_done (setMem_host s _)) fun _ halign => continues_busRegWrite halign v s
  | memRead a size =>
    exact continues_busRoute hdef (continues_done (noteRead_host s _)) fun _ halign => continues_busRegRead halign s
  | memBytes a bs =>
    simp only [HostTx.wellFormed, Bool.and_eq_true, decide_eq_true_eq, Bool.not_eq_true'] at hdef
    obtain ⟨hrange, hclear⟩ := hdef
    rw [hostTransaction, if_neg hrange.not_gt, hclear, if_neg Bool.false_ne_true]
    exact continues_done (setMem_host s _)
  | platformReset => exact continues_done rfl

/-- A step on a defined transaction answers a next state, the transaction taken off the script. -/
theorem step_continues {s : State} {tx : HostTx} {rest : List HostTx} (hhost : s.host = tx :: rest)
    (hdef : HostTx.wellFormed Config.params tx = true) : ∃ t, step s = .next t ∧ t.host = rest := by
  have hcont := continues_hostTransaction hdef (setHost s rest)
  rw [setHost_host] at hcont
  rw [step, nextTx_cons hhost]
  cases htx : hostTransaction Config.params tx (setHost s rest) with
  | done t => exact ⟨t, rfl, by rwa [htx] at hcont⟩
  | issued w u =>
    obtain ⟨t, hrun, hthost⟩ := runWord_continues w u
    rw [htx] at hcont
    exact ⟨t, hrun, hthost.trans hcont⟩
  | idle | outOfRange | undefinedAccess => rw [htx] at hcont; exact hcont.elim

/-! ### Scripts -/

theorem run_succ (M : Host.Core) {s t : M.State} (h : M.step s = .next t) (n : Nat) : M.run (n + 1) s = M.run n t := by
  rw [Host.Core.run, h]

theorem runSteps_zero (s : State) : runSteps 0 s = .next s := rfl

theorem runSteps_succ {s t : State} (h : step s = .next t) (n : Nat) : runSteps (n + 1) s = runSteps n t :=
  run_succ Sys2Proof.core h n

/-- A script of defined transactions is used up in as many steps as it has transactions. -/
theorem runSteps_script {q : List HostTx} (hdef : ∀ tx ∈ q, HostTx.wellFormed Config.params tx = true) {s : State}
    (hhost : s.host = q) : ∃ t, runSteps q.length s = .next t ∧ t.host = [] := by
  induction q generalizing s with
  | nil => exact ⟨s, runSteps_zero s, hhost⟩
  | cons tx rest ih =>
    obtain ⟨hdeftx, hdefrest⟩ := List.forall_mem_cons.1 hdef
    obtain ⟨u, hstep, huhost⟩ := step_continues hhost hdeftx
    obtain ⟨t, hrun, hthost⟩ := ih hdefrest huhost
    exact ⟨t, (runSteps_succ hstep _).trans hrun, hthost⟩

/-- Settles O9: one step for each transaction; with none left the block is idle. -/
theorem scriptRunsToItsEnd : Obligations.ScriptRunsToItsEnd := by
  unfold Obligations.ScriptRunsToItsEnd
  intro s hdef
  obtain ⟨t, hrun, hthost⟩ := runSteps_script hdef rfl
  exact ⟨t, hrun, hthost, step_idle hthost⟩

end Sys2Proof.HostScript
end

