-- ==== Sys2Proof/Proofs/Resolver.lean ====
section
/-! PROOFS. The resolver (40_resolver.md rules R130 to R137): which pair a matrix code takes before the guard, when the
guard of rule R136 acts, and the command RESOLVE. -/

namespace Sys2Proof.Resolver
open Sys2Proof.Machine Sys2Proof.Invariant

/-! ### Exact arithmetic (00_scope.md rule R5) -/

@[simp] theorem numAdd_exactQ (a b : Sys2Proof.Num) : numAdd .exactQ a b = a + b := rfl
@[simp] theorem numSub_exactQ (a b : Sys2Proof.Num) : numSub .exactQ a b = a - b := rfl
@[simp] theorem numMul_exactQ (a b : Sys2Proof.Num) : numMul .exactQ a b = a * b := rfl

/-! ### The table of rule R132 -/

/-- The rows of `KTAB` as 40_resolver.md rule R132 prints them. -/
def ktabRows : List (Nat × Rat × Rat) :=
  [(1, 2126 / 10000, 722 / 10000), (4, 30 / 100, 11 / 100), (5, 299 / 1000, 114 / 1000),
    (6, 299 / 1000, 114 / 1000), (7, 212 / 1000, 87 / 1000), (9, 2627 / 10000, 593 / 10000)]

theorem ktab_eq_none_iff {mc : Nat} : ktab mc = none ↔ mc ∉ [1, 4, 5, 6, 7, 9] := by
  unfold ktab
  split_ifs <;> simp_all

theorem ktab_of_mem : ∀ row ∈ ktabRows, ktab row.1 = some row.2 := by decide +kernel

theorem mem_ktabRows_of_ktab {mc : Nat} {k : Rat × Rat} (h : ktab mc = some k) : (mc, k) ∈ ktabRows := by
  have hmc : mc ∈ [1, 4, 5, 6, 7, 9] := by
    by_contra hnot
    rw [ktab_eq_none_iff.2 hnot] at h
    cases h
  have hrows : ∀ n ∈ [1, 4, 5, 6, 7, 9], ∀ k' ∈ ktab n, (n, k') ∈ ktabRows := by decide +kernel
  exact hrows mc hmc k h

/-! ### The triple before the guard -/

theorem candidate_of_ktab {mc : Nat} {k : Rat × Rat} (h : ktab mc = some k) (p : Params) (cp : Nat) :
    candidate p cp mc = literalTriple p.num k := by
  rw [candidate, h]

theorem candidate_of_derive {p : Params} {cp : Nat} {kr kb : Sys2Proof.Num} (h : derive p cp = some (kr, kb)) :
    candidate p cp 12 = tripleOf p.num kr kb := by
  rw [candidate, ktab_eq_none_iff.2 (by decide), h]
  rfl

theorem candidate_of_none {p : Params} {cp mc : Nat} (hk : ktab mc = none) (hd : mc = 12 → derive p cp = none) :
    candidate p cp mc = literalTriple p.num fallback := by
  rw [candidate, hk]
  by_cases h : mc = 12
  · simp only [h, if_true, hd h]
  · simp only [h, if_false]

/-- Where the triple before the guard comes from (40_resolver.md rule R137): a row of `KTAB`, the derivation, or the
fallback. -/
theorem candidate_cases (p : Params) (cp mc : Nat) :
    (∃ k, ktab mc = some k ∧ candidate p cp mc = literalTriple p.num k) ∨
      (mc = 12 ∧ ∃ kr kb, derive p cp = some (kr, kb) ∧ candidate p cp mc = tripleOf p.num kr kb) ∨
      (ktab mc = none ∧ (mc = 12 → derive p cp = none) ∧ candidate p cp mc = literalTriple p.num fallback) := by
  cases hk : ktab mc with
  | some k => exact .inl ⟨k, rfl, candidate_of_ktab hk p cp⟩
  | none =>
    by_cases hd : mc = 12 → derive p cp = none
    · exact .inr (.inr ⟨rfl, hd, candidate_of_none hk hd⟩)
    · obtain ⟨rfl, hsome⟩ := Classical.not_imp.1 hd
      obtain ⟨⟨kr, kb⟩, h⟩ := Option.ne_none_iff_exists'.1 hsome
      exact .inr (.inl ⟨rfl, kr, kb, h, candidate_of_derive h⟩)

theorem candidate_eq_tripleOf (p : Params) (cp mc : Nat) :
    candidate p cp mc = tripleOf p.num (candidate p cp mc).kr (candidate p cp mc).kb := by
  rcases candidate_cases p cp mc with ⟨k, _, h⟩ | ⟨_, kr, kb, _, h⟩ | ⟨_, _, h⟩ <;> rw [h] <;> rfl

/-! ### The guard of rule R136 -/

theorem degenerate_iff {m : NumMode} {k : Coefs} :
    degenerate m k = true ↔ k.kg = 0 ∨ numSub m (numOf 1) k.kr = 0 ∨ numSub m (numOf 1) k.kb = 0 := by
  simp only [degenerate, Bool.or_eq_true, decide_eq_true_eq, or_assoc]

theorem not_degenerate_iff {m : NumMode} {k : Coefs} :
    degenerate m k = false ↔ k.kg ≠ 0 ∧ numSub m (numOf 1) k.kr ≠ 0 ∧ numSub m (numOf 1) k.kb ≠ 0 := by
  rw [← Bool.not_eq_true, degenerate_iff, not_or, not_or]

theorem degenerate_ktab {mc : Nat} {k : Rat × Rat} (h : ktab mc = some k) (m : NumMode) :
    degenerate m (literalTriple m k) = false := by
  have hrows : ∀ row ∈ ktabRows, degenerate m (literalTriple m row.2) = false := by cases m <;> decide +kernel
  exact hrows (mc, k) (mem_ktabRows_of_ktab h)

/-! ### The resolved triple -/

theorem resolveCoefs_of_degenerate {p : Params} {cp mc : Nat} (h : degenerate p.num (candidate p cp mc) = true) :
    resolveCoefs p cp mc = literalTriple p.num fallback := by
  rw [resolveCoefs, if_pos h]

theorem resolveCoefs_of_not_degenerate {p : Params} {cp mc : Nat}
    (h : degenerate p.num (candidate p cp mc) = false) : resolveCoefs p cp mc = candidate p cp mc := by
  rw [resolveCoefs, h]
  rfl

theorem resolveCoefs_of_ktab {mc : Nat} {k : Rat × Rat} (h : ktab mc = some k) (p : Params) (cp : Nat) :
    resolveCoefs p cp mc = literalTriple p.num k := by
  have hcand := candidate_of_ktab h p cp
  rw [resolveCoefs_of_not_degenerate (hcand ▸ degenerate_ktab h p.num), hcand]

theorem resolveCoefs_of_none {p : Params} {cp mc : Nat} (hk : ktab mc = none) (hd : mc = 12 → derive p cp = none) :
    resolveCoefs p cp mc = literalTriple p.num fallback := by
  have hcand := candidate_of_none hk hd
  rw [resolveCoefs_of_not_degenerate (hcand ▸ degenerate_fallback p.num), hcand]

theorem resolveCoefs_eq_tripleOf (p : Params) (cp mc : Nat) :
    resolveCoefs p cp mc = tripleOf p.num (resolveCoefs p cp mc).kr (resolveCoefs p cp mc).kb := by
  cases h : degenerate p.num (candidate p cp mc) with
  | true => rw [resolveCoefs_of_degenerate h]; rfl
  | false => rw [resolveCoefs_of_not_degenerate h]; exact candidate_eq_tripleOf p cp mc

/-- No row for `cp`, so no derivation (40_resolver.md rule R133). -/
theorem derive_of_no_primaries {p : Params} {cp : Nat} (h : p.primaries cp = none) : derive p cp = none := by
  rw [derive, h]

/-- Settles O23: the guard leaves every row of `KTAB` as it is. -/
theorem tableBackedCoefficients : Obligations.TableBackedCoefficients := by
  unfold Obligations.TableBackedCoefficients
  intro p cp row hrow
  rw [resolveCoefs_of_ktab (ktab_of_mem row hrow)]
  exact ⟨rfl, rfl⟩

/-- Settles O24: neither `KTAB` nor the derivation gives a pair, and the guard leaves the fallback as it is. -/
theorem fallbackCoefficients : Obligations.FallbackCoefficients := by
  unfold Obligations.FallbackCoefficients
  intro p cp mc hmc hd
  rw [resolveCoefs_of_none (ktab_eq_none_iff.2 hmc) fun h => (hd h).elim derive_of_no_primaries id]
  exact ⟨rfl, rfl⟩

/-- Settles O25: every resolved triple is that of its pair. -/
theorem greenCoefficient : Obligations.GreenCoefficient := by
  unfold Obligations.GreenCoefficient
  exact fun p cp mc => congrArg Coefs.kg (resolveCoefs_eq_tripleOf p cp mc)

/-! ### The default `PRIMARIES` table -/

/-- The codes with a row in the default `PRIMARIES` table (40_resolver.md rule R133). -/
def defaultCodes : List Nat := [1, 4, 5, 6, 7, 8, 9, 10, 11, 12, 22]

theorem defaultPrimaries_eq_none {cp : Nat} (h : cp ∉ defaultCodes) : defaultPrimaries cp = none := by
  simp only [defaultCodes, List.mem_cons, List.not_mem_nil, or_false, not_or] at h
  simp only [defaultPrimaries, h, if_false]

theorem mem_defaultCodes_of_derive {m : NumMode} {b : ChromaBias} {cp : Nat} {k : Sys2Proof.Num × Sys2Proof.Num}
    (h : derive (vectorParams m b) cp = some k) : cp ∈ defaultCodes := by
  by_contra hnot
  rw [derive_of_no_primaries (defaultPrimaries_eq_none hnot)] at h
  cases h

/-- Every row of the default table has a derivation, whose divisors are not zero. -/
theorem derive_default (m : NumMode) (b : ChromaBias) : ∀ cp ∈ defaultCodes,
    (derive (vectorParams m b) cp).isSome = true ∧ degenerate m (candidate (vectorParams m b) cp 12) = false := by
  cases m <;> cases b <;> decide +kernel

theorem degenerate_candidate_default (m : NumMode) (b : ChromaBias) (cp mc : Nat) :
    degenerate m (candidate (vectorParams m b) cp mc) = false := by
  rcases candidate_cases (vectorParams m b) cp mc with ⟨k, hk, h⟩ | ⟨rfl, kr, kb, hd, _⟩ | ⟨_, _, h⟩
  · rw [h]
    exact degenerate_ktab hk m
  · exact (derive_default m b cp (mem_defaultCodes_of_derive hd)).2
  · rw [h]
    exact degenerate_fallback m

/-- Settles O26: the guard replaces what would divide by zero, and no candidate of the default table does. -/
theorem divisorsNeverZero : Obligations.DivisorsNeverZero := by
  unfold Obligations.DivisorsNeverZero
  refine ⟨fun p cp mc => ?_, fun m b cp mc _ _ =>
    resolveCoefs_of_not_degenerate (degenerate_candidate_default m b cp mc)⟩
  obtain ⟨hkg, hkr, hkb⟩ := not_degenerate_iff.1 (degenerate_resolveCoefs p cp mc)
  refine ⟨hkg, hkr, hkb, fun hzero => ?_⟩
  rw [resolveCoefs_of_degenerate (degenerate_iff.2 hzero)]
  exact ⟨rfl, rfl⟩

/-! ### The sum of the coefficients -/

/-- `(kr + kg) + kb` in `NUM`, the sum of 40_resolver.md rule R130's property. -/
def coefSum (m : NumMode) (k : Coefs) : Sys2Proof.Num := numAdd m (numAdd m k.kr k.kg) k.kb

/-- Exactly, `kg` is what the pair leaves of 1 (40_resolver.md rule R135). -/
theorem coefSum_tripleOf_exactQ (kr kb : Rat) : coefSum .exactQ (tripleOf .exactQ kr kb) = 1 := by
  simp only [coefSum, tripleOf, numAdd_exactQ, numSub_exactQ, numOf]
  ring

/-- The rows of `KTAB` under `F32`: all but the two of BT.601 sum to 1. -/
theorem coefSum_ktab_f32 {mc : Nat} {k : Rat × Rat} (h : ktab mc = some k) :
    coefSum .f32 (literalTriple .f32 k) = if mc ∈ [1, 4, 7, 9] then 1 else 1 - 1 / 2 ^ 24 := by
  have hrows : ∀ row ∈ ktabRows, coefSum .f32 (literalTriple .f32 row.2) =
      if row.1 ∈ [1, 4, 7, 9] then 1 else 1 - 1 / 2 ^ 24 := by decide +kernel
  exact hrows (mc, k) (mem_ktabRows_of_ktab h)

theorem coefSum_fallback_f32 : coefSum .f32 (literalTriple .f32 fallback) = 1 - 1 / 2 ^ 24 := by decide +kernel

theorem coefSum_default_f32 (b : ChromaBias) :
    ∀ cp ∈ defaultCodes, coefSum .f32 (candidate (vectorParams .f32 b) cp 12) = 1 := by
  cases b <;> decide +kernel

/-- The sum under `F32` with the default table, by the source of the pair (40_resolver.md rule R130). -/
theorem coefSum_candidate_f32 (b : ChromaBias) (cp mc : Nat) :
    coefSum .f32 (candidate (vectorParams .f32 b) cp mc) =
      if mc ∈ [1, 4, 7, 9] ∨ (mc = 12 ∧ cp ∈ defaultCodes) then 1 else 1 - 1 / 2 ^ 24 := by
  rcases candidate_cases (vectorParams .f32 b) cp mc with ⟨k, hk, h⟩ | ⟨rfl, kr, kb, hd, _⟩ | ⟨hk, hd, h⟩
  · have h12 : mc ≠ 12 := by rintro rfl; cases hk
    simp only [h12, false_and, or_false]
    rw [h]
    exact coefSum_ktab_f32 hk
  · have hcp := mem_defaultCodes_of_derive hd
    rw [coefSum_default_f32 b cp hcp, if_pos (.inr ⟨rfl, hcp⟩)]
  · have hmc : mc ∉ [1, 4, 7, 9] := fun hmem =>
      ktab_eq_none_iff.1 hk ((by decide : [1, 4, 7, 9] ⊆ [1, 4, 5, 6, 7, 9]) hmem)
    have hcp : ¬ (mc = 12 ∧ cp ∈ defaultCodes) := fun ⟨h12, hmem⟩ => by
      have hsome := (derive_default .f32 b cp hmem).1
      rw [hd h12] at hsome
      cases hsome
    rw [h, if_neg (not_or.2 ⟨hmc, hcp⟩)]
    exact coefSum_fallback_f32

/-- Settles O27: exactly by the definition of `kg`, under `F32` by the source of the pair. -/
theorem coefficientSum : Obligations.CoefficientSum := by
  unfold Obligations.CoefficientSum
  refine ⟨fun p cp mc hnum => ?_, fun b cp mc _ _ => ?_⟩
  · rw [resolveCoefs_eq_tripleOf, hnum]
    exact coefSum_tripleOf_exactQ _ _
  · rw [resolveCoefs_of_not_degenerate (degenerate_candidate_default .f32 b cp mc)]
    exact coefSum_candidate_f32 b cp mc

/-! ### RESOLVE -/

/-- The status word of a command that resolves a colour model and succeeds (10_state.md rule R24). -/
theorem statusWithCode_statusResolved (w : Word) (cls : MatrixClass) :
    statusWithCode (statusResolved w cls) .ok = withResolved w (classCode cls) := by
  simp only [statusWithCode, statusResolved, setField, withResolved, BitVec.and_or_distrib_right, BitVec.and_assoc,
    BitVec.or_assoc]
  exact congrArg₂ (fun mask fields => w &&& mask ||| fields) (by decide) (by cases cls <;> decide)

/-- The class codes of 10_state.md rule R24 by matrix code (40_resolver.md rule R131). -/
theorem classCode_classify (mc : Nat) :
    classCode (classify mc) = match mc with
      | 0 => 1
      | 8 => 2
      | 16 => 3
      | 17 => 4
      | _ => 0 := by
  split
  next => rfl
  next => rfl
  next => rfl
  next => rfl
  next h0 h8 h16 h17 =>
    rw [classify, if_neg h0, if_neg h8, if_neg h16, if_neg h17]
    rfl

theorem colourModel_cp (w : Word) : (colourModel w).cp = w.toNat % 2 ^ 8 := by
  rw [colourModel, getField, pow_zero, Nat.div_one]

theorem colourModel_mc (w : Word) : (colourModel w).mc = w.toNat / 2 ^ 16 % 2 ^ 8 := rfl

theorem exec_resolve (s : State) : exec .resolve s =
    .next (succeed (resolveInto Config.params (colourModel s.cm) s)) := rfl

theorem succeed_resolveInto (p : Params) (cm : ColourModel) (s : State) :
    succeed (resolveInto p cm s) = setStatus (setCoefs s (resolveCoefs p cm.cp cm.mc))
      (withResolved s.status (classCode (classify cm.mc))) := by
  rw [succeed_eq, resolveInto, writeResolved_eq, setStatus_status, statusWithCode_statusResolved]
  rfl

/-- Settles O22: no check; the execute phase writes the triple and `STATUS`. -/
theorem resolveResult : Obligations.ResolveResult := by
  unfold Obligations.ResolveResult
  intro s
  rw [exec_resolve, succeed_resolveInto, ← colourModel_cp, ← colourModel_mc, classCode_classify]
  rfl

end Sys2Proof.Resolver
end

