-- ==== Sys2Proof/Proofs/ChromaticityDerivation.lean ====
section
/-! PROOFS. The chromaticity derivation (40_resolver.md rule R133): its closed form, when `MC = 12` takes its pair, and
that under `EXACT` the closed form is Cramer's rule for the amounts of the primaries that make the white point. -/

namespace Sys2Proof.ChromaticityDerivation
open Sys2Proof.Machine Sys2Proof.Resolver

/-! ### The closed form -/

theorem derive_of_primaries {p : Params} {cp : Nat} {c : Chromaticities} (h : p.primaries cp = some c) :
    derive p cp = if deriveDen p.num (primariesNum p.num c) = 0 then none else
      some (numDiv p.num (deriveKrn p.num (primariesNum p.num c)) (deriveDen p.num (primariesNum p.num c)),
        numDiv p.num (deriveKbn p.num (primariesNum p.num c)) (deriveDen p.num (primariesNum p.num c))) := by
  rw [derive, h]

/-- Under `EXACT` a derived pair is the quotients of the closed form, whose divisor is not zero. -/
theorem derive_exactQ {p : Params} {cp : Nat} {c : Chromaticities} {kr kb : Rat} (hnum : p.num = .exactQ)
    (hc : p.primaries cp = some c) (h : derive p cp = some (kr, kb)) :
    deriveDen .exactQ c ≠ 0 ∧ kr = deriveKrn .exactQ c / deriveDen .exactQ c ∧
      kb = deriveKbn .exactQ c / deriveDen .exactQ c := by
  rw [derive_of_primaries hc, hnum] at h
  split at h
  next => cases h
  next hden =>
    cases h
    exact ⟨hden, rfl, rfl⟩

/-! ### Cramer's rule -/

/-- The primaries as columns of `(x, y, z)`, `z = 1 - x - y`. -/
def primariesMatrix (c : Chromaticities) : Matrix (Fin 3) (Fin 3) Rat :=
  !![c.rX, c.gX, c.bX;
     c.rY, c.gY, c.bY;
     1 - c.rX - c.rY, 1 - c.gX - c.gY, 1 - c.bX - c.bY]

/-- The white point scaled to luminance 1. -/
def whitePoint (c : Chromaticities) : Fin 3 → Rat := ![c.wX / c.wY, 1, (1 - c.wX - c.wY) / c.wY]

/-- The amounts of red, green and blue whose sum is the white point. -/
def amounts (c : Chromaticities) : Fin 3 → Rat :=
  (primariesMatrix c).det⁻¹ • (primariesMatrix c).cramer (whitePoint c)

theorem primariesMatrix_mulVec_amounts {c : Chromaticities} (h : (primariesMatrix c).det ≠ 0) :
    (primariesMatrix c).mulVec (amounts c) = whitePoint c := by
  rw [amounts, Matrix.mulVec_smul, Matrix.mulVec_cramer, smul_smul, inv_mul_cancel₀ h, one_smul]

theorem deriveDen_exactQ (c : Chromaticities) : deriveDen .exactQ c = c.wY * (primariesMatrix c).det := by
  simp [deriveDen, sum3, crossDiff, zOf, numOf, primariesMatrix, Matrix.det_fin_three, -mul_eq_mul_left_iff]
  ring

theorem deriveKrn_exactQ {c : Chromaticities} (hw : c.wY ≠ 0) :
    deriveKrn .exactQ c = c.wY * (c.rY * (primariesMatrix c).cramer (whitePoint c) 0) := by
  simp [deriveKrn, sum3, crossDiff, zOf, numOf, primariesMatrix, whitePoint, Matrix.cramer_apply,
    Matrix.det_fin_three]
  field_simp
  ring

theorem deriveKbn_exactQ {c : Chromaticities} (hw : c.wY ≠ 0) :
    deriveKbn .exactQ c = c.wY * (c.bY * (primariesMatrix c).cramer (whitePoint c) 2) := by
  simp [deriveKbn, sum3, crossDiff, zOf, numOf, primariesMatrix, whitePoint, Matrix.cramer_apply,
    Matrix.det_fin_three]
  field_simp
  ring

/-- The three coordinates of the sum of the primaries in their amounts. -/
theorem sum_amounts {c : Chromaticities} (h : (primariesMatrix c).det ≠ 0) :
    amounts c 0 * c.rX + amounts c 1 * c.gX + amounts c 2 * c.bX = c.wX / c.wY ∧
      amounts c 0 * c.rY + amounts c 1 * c.gY + amounts c 2 * c.bY = 1 ∧
      amounts c 0 * (1 - c.rX - c.rY) + amounts c 1 * (1 - c.gX - c.gY) + amounts c 2 * (1 - c.bX - c.bY) =
        (1 - c.wX - c.wY) / c.wY := by
  have hsum (i : Fin 3) : amounts c 0 * primariesMatrix c i 0 + amounts c 1 * primariesMatrix c i 1 +
      amounts c 2 * primariesMatrix c i 2 = whitePoint c i := by
    rw [← primariesMatrix_mulVec_amounts h, Matrix.mulVec, dotProduct, Fin.sum_univ_three]
    ring
  exact ⟨hsum 0, hsum 1, hsum 2⟩

/-- Under `EXACT` the derived pair is the luminances of the red and the blue amount. -/
theorem derive_exactQ_eq_luminance {p : Params} {cp : Nat} {c : Chromaticities} {kr kb : Rat}
    (hnum : p.num = .exactQ) (hc : p.primaries cp = some c) (h : derive p cp = some (kr, kb)) :
    (primariesMatrix c).det ≠ 0 ∧ kr = amounts c 0 * c.rY ∧ kb = amounts c 2 * c.bY := by
  obtain ⟨hden, hkr, hkb⟩ := derive_exactQ hnum hc h
  rw [deriveDen_exactQ] at hden hkr hkb
  obtain ⟨hw, hdet⟩ := mul_ne_zero_iff.1 hden
  rw [deriveKrn_exactQ hw, mul_div_mul_left _ _ hw] at hkr
  rw [deriveKbn_exactQ hw, mul_div_mul_left _ _ hw] at hkb
  have hluminance (y : Rat) (i : Fin 3) :
      y * (primariesMatrix c).cramer (whitePoint c) i / (primariesMatrix c).det = amounts c i * y := by
    rw [amounts, Pi.smul_apply, smul_eq_mul]
    ring
  exact ⟨hdet, hkr.trans (hluminance _ 0), hkb.trans (hluminance _ 2)⟩

/-- Settles O28: the closed form is the definition's; past the guard `MC = 12` takes its pair; and the amounts are the
solution of the three equations, whose second gives the green luminance. -/
theorem chromaticityDerivation : Obligations.ChromaticityDerivation := by
  unfold Obligations.ChromaticityDerivation
  refine ⟨fun p cp => derive_of_no_primaries, fun p cp c => derive_of_primaries,
    fun p cp kr kb hd hkg hkr hkb => ?_, fun p cp c kr kb hnum hc hd => ?_⟩
  · have hcand := candidate_of_derive hd
    rw [resolveCoefs_of_not_degenerate (hcand ▸ not_degenerate_iff.2 ⟨hkg, hkr, hkb⟩), hcand]
    rfl
  · obtain ⟨hdet, hkr, hkb⟩ := derive_exactQ_eq_luminance hnum hc hd
    obtain ⟨hX, hY, hZ⟩ := sum_amounts hdet
    exact ⟨amounts c 0, amounts c 1, amounts c 2, hX, hY, hZ, hkr, hkb, by linarith⟩

end Sys2Proof.ChromaticityDerivation
end

