-- ==== Sys2Proof/Proofs/ByteRoundTrip.lean ====
section
/-! PROOFS. A byte survives normalising and quantising (41_color_matrix.md rules R152, R161 (a)): rounding to binary32
keeps every dyadic bound of few bits, and a value near enough to a code quantises to that code. -/

namespace Sys2Proof.ByteRoundTrip
open Sys2Proof.Machine Sys2Proof.Binary32 Sys2Proof.Quantisation

/-! ### Dyadic bounds that rounding keeps -/

/-- A fraction of few bits over a power of two is a binary32 value. -/
theorem isBinary32_dyadic {k : Int} {e : Nat} (he : e ≤ 149) (hk : k.natAbs < 2 ^ 24) : isBinary32 (k / 2 ^ e) := by
  refine isBinary32_iff_abs.2 ⟨k.natAbs, 149 - e, hk, by omega, ?_⟩
  rw [abs_div, abs_of_pos (by positivity : (0 : Rat) < 2 ^ e), Nat.cast_natAbs, Int.cast_abs,
    pow_sub₀ _ two_ne_zero he]
  field_simp

/-- Under either reading of `NUM`, a result between two such fractions stays between them. -/
theorem numRound_between_dyadic (m : NumMode) {v : Rat} {lo hi : Int} (e : Nat) (he : e ≤ 149)
    (hlo : lo.natAbs < 2 ^ 24) (hhi : hi.natAbs < 2 ^ 24) (hge : lo / 2 ^ e ≤ v) (hle : v ≤ hi / 2 ^ e) :
    lo / 2 ^ e ≤ numRound m v ∧ numRound m v ≤ hi / 2 ^ e := by
  have hsmall {k : Int} (hk : k.natAbs < 2 ^ 24) : |(k / 2 ^ e : Rat)| < 2 ^ 24 := by
    have hk' : |(k : Rat)| < 2 ^ 24 := by
      rw [← Int.cast_abs, ← Nat.cast_natAbs]
      exact_mod_cast hk
    rw [abs_div, abs_of_pos (by positivity : (0 : Rat) < 2 ^ e)]
    exact (div_le_self (abs_nonneg _) (one_le_pow₀ one_le_two)).trans_lt hk'
  cases m with
  | f32 =>
    have h : f32Overflows v = false := f32Overflows_eq_false
      (abs_lt.2 ⟨(abs_lt.1 (hsmall hlo)).1.trans_le hge, hle.trans_lt (abs_lt.1 (hsmall hhi)).2⟩)
    exact ⟨le_roundF32 h (isBinary32_dyadic he hlo) hge, roundF32_le h (isBinary32_dyadic he hhi) hle⟩
  | exactQ => exact ⟨hge, hle⟩

theorem roundF32_of_isBinary32 {v : Rat} (h : f32Overflows v = false) (hb : isBinary32 v) : roundF32 v = v :=
  le_antisymm (roundF32_le h hb le_rfl) (le_roundF32 h hb le_rfl)

theorem abs_numRound_le_one (m : NumMode) {v : Rat} (h : |v| ≤ 1) : |numRound m v| ≤ 1 := by
  obtain ⟨hge, hle⟩ := abs_le.1 h
  have hround := numRound_between_dyadic m (v := v) (lo := -1) (hi := 1) 0 (by norm_num) (by norm_num) (by norm_num)
    (by norm_num; exact hge) (by norm_num; exact hle)
  norm_num at hround
  exact abs_le.2 hround

/-- Rounding a small value once more leaves it as it is. -/
theorem numRound_numRound (m : NumMode) {v : Rat} (h : |v| ≤ 1) : numRound m (numRound m v) = numRound m v := by
  cases m with
  | f32 =>
    have hfits {w : Rat} (hw : |w| ≤ 1) : f32Overflows w = false := f32Overflows_eq_false (by linarith)
    exact roundF32_of_isBinary32 (hfits (abs_numRound_le_one .f32 h)) (isBinary32_roundF32 (hfits h))
  | exactQ => rfl

/-! ### Quantising -/

theorem clamp01_eq_self {v : Rat} (hlo : 0 ≤ v) (hhi : v ≤ 1) : clamp01 v = v := by
  rw [clamp01, if_neg hlo.not_gt, if_neg hhi.not_gt]

/-- `rnd` gives the code that the value lies around. -/
theorem rnd_eq_of_near (m : NumMode) {v : Rat} {c : Nat} (hc : c < 2 ^ 21) (hlo : c - 1 / 2 ≤ v)
    (hhi : v ≤ c + 1 / 4) : rnd m v = c := by
  obtain ⟨hge, hle⟩ := numRound_between_dyadic m (v := v + 1 / 2) (lo := 4 * c) (hi := 4 * c + 3) 2 (by norm_num)
    (by omega) (by omega) (by push_cast; linarith) (by push_cast; linarith)
  rw [rnd, numAdd, numLit_half]
  push_cast at hge hle
  have hfloor : (c : Rat) ≤ numRound m (v + 1 / 2) ∧ numRound m (v + 1 / 2) < c + 1 := by constructor <;> linarith
  exact Int.floor_eq_iff.2 hfloor

/-- `quant` gives the code that the scaled value lies around (00_scope.md rule R9). -/
theorem quant_eq_of_near (m : NumMode) {v : Rat} {c top : Nat} (hc : c < 2 ^ 21) (hmem : 0 ≤ v ∧ v ≤ 1)
    (hlo : c - 1 / 2 ≤ v * top) (hhi : v * top ≤ c + 1 / 4) : quant m v top = c := by
  obtain ⟨hge, hle⟩ := numRound_between_dyadic m (v := v * top) (lo := 4 * c - 2) (hi := 4 * c + 1) 2 (by norm_num)
    (by omega) (by omega) (by push_cast; linarith) (by push_cast; linarith)
  have hrnd : rnd m (numMul m v (numOf top)) = c := by
    push_cast at hge hle
    exact rnd_eq_of_near m hc (by rw [numMul, numOf]; linarith) (by rw [numMul, numOf]; linarith)
  rw [quant, clamp01_eq_self hmem.1 hmem.2, hrnd, Int.toNat_natCast]

/-! ### A normalised byte -/

theorem numDiv_byte_mem (m : NumMode) {c : Nat} (hc : c < 256) :
    0 ≤ numDiv m (numOf c) (numOf 255) ∧ numDiv m (numOf c) (numOf 255) ≤ 1 := by
  have hc' : (c : Rat) ≤ 255 := by exact_mod_cast Nat.le_of_lt_succ hc
  have h := numRound_between_dyadic m (v := (c : Rat) / 255) (lo := 0) (hi := 1) 0 (by norm_num) (by norm_num)
    (by norm_num) (by norm_num; positivity) (by norm_num; linarith)
  norm_num at h
  exact h

/-- Normalising a byte errs by at most `2^-16`, which scaled back is less than a quarter of a code. -/
theorem numDiv_byte_near (m : NumMode) {c : Nat} (hc : c < 256) :
    c - 1 / 4 ≤ numDiv m (numOf c) (numOf 255) * 255 ∧ numDiv m (numOf c) (numOf 255) * 255 ≤ c + 1 / 4 := by
  obtain ⟨k, hk⟩ : ∃ k, k = c * 2 ^ 16 / 255 := ⟨_, rfl⟩
  have hfloor : 255 * k ≤ c * 2 ^ 16 ∧ c * 2 ^ 16 < 255 * (k + 1) := by omega
  have hfloor' : (255 * k : Rat) ≤ c * 2 ^ 16 ∧ (c * 2 ^ 16 : Rat) < 255 * (k + 1) := by exact_mod_cast hfloor
  obtain ⟨hge, hle⟩ := numRound_between_dyadic m (v := (c : Rat) / 255) (lo := k) (hi := k + 1) 16 (by norm_num)
    (by omega) (by omega) (by push_cast; linarith) (by push_cast; linarith)
  rw [numDiv, numOf, numOf]
  push_cast at hge hle ⊢
  constructor <;> linarith

/-- A byte survives normalising and quantising (41_color_matrix.md rule R161 (a)). -/
theorem quant_numDiv_byte (m : NumMode) {c : Nat} (hc : c < 256) :
    quant m (numDiv m (numOf c) (numOf 255)) 255 = c := by
  obtain ⟨hlo, hhi⟩ := numDiv_byte_near m hc
  exact quant_eq_of_near m (by omega) (numDiv_byte_mem m hc) (by push_cast; linarith) (by push_cast; linarith)

/-! ### The encoder's quantisation -/

theorem zero_numAdd (m : NumMode) (v : Rat) : numAdd m 0 v = numRound m v := by rw [numAdd, zero_add]

/-- The neutral code, under either bias (41_color_matrix.md rule R152). -/
theorem quantChroma_zero (p : Params) : quantChroma p 0 = 128 := by
  rw [quantChroma, zero_numAdd, chromaBias]
  cases p.bias with
  | half =>
    have h : numRound p.num (numLit p.num (1 / 2)) = 1 / 2 := by
      rw [numLit_half]
      exact numLit_half p.num
    rw [h]
    exact quant_eq_of_near p.num (by norm_num) (by norm_num) (by norm_num) (by norm_num)
  | code =>
    have h := numRound_numRound p.num (v := 128 / 255) (by norm_num [abs_of_pos])
    exact (congrArg (quant p.num · 255) h).trans (quant_numDiv_byte p.num (c := 128) (by norm_num))

/-- Settles O21: the two biases are those of the 8-bit chroma table, and the neutral code is half the range or the
code 128 normalised and quantised. -/
theorem encoderQuantisation : Obligations.EncoderQuantisation := by
  unfold Obligations.EncoderQuantisation
  refine fun p c => ⟨rfl, fun hbias => ?half, fun hbias => ?code, quant_le _ _ (by norm_num),
    quant_le _ _ (by norm_num), quantChroma_zero p⟩
  case half => rw [quantChroma, chromaBias, hbias]
  case code =>
    rw [quantChroma, chromaBias, hbias]
    rfl

/-! ### The Identity pixel of depth 8 -/

/-- The pixel of full-range Identity tables of depth 8 (41_color_matrix.md rule R154). -/
theorem invIdentity_bytes (p : Params) {r g b : Nat} (hr : r < 256) (hg : g < 256) (hb : b < 256) :
    invIdentity (buildTables p 8 false true true) g b r =
      ⟨numDiv p.num (numOf r) (numOf 255), numDiv p.num (numOf g) (numOf 255),
        numDiv p.num (numOf b) (numOf 255)⟩ := by
  simp only [invIdentity, buildTables, Bool.false_eq_true, if_false]
  rw [lutRead_tabulate (n := 2 ^ 8) _ hr, lutRead_tabulate (n := 2 ^ 8) _ hg, lutRead_tabulate (n := 2 ^ 8) _ hb]
  rfl

theorem quantOut_byte (m : NumMode) {c : Nat} (hc : c < 256) :
    quantOut m .bgra8 (numDiv m (numOf c) (numOf 255)) = c := quant_numDiv_byte m hc

/-- Settles O36: the entries of full-range Identity tables are the normalised bytes. -/
theorem identityPixelRoundTrip : Obligations.IdentityPixelRoundTrip := by
  unfold Obligations.IdentityPixelRoundTrip
  refine ⟨fun m c => quant_numDiv_byte m, fun p r g b hr hg hb => ?_⟩
  simp only [invIdentity_bytes p hr hg hb]
  exact ⟨quantOut_byte p.num hr, quantOut_byte p.num hg, quantOut_byte p.num hb⟩

end Sys2Proof.ByteRoundTrip
end

