-- ==== Sys2Proof/Proofs/ColourTransforms.lean ====
section
/-! PROOFS. The colour transforms (41_color_matrix.md rules R151 to R157): the standard pair undo each other under
`EXACT`, and the reversible classes lose nothing where no clamp acts. -/

namespace Sys2Proof.ColourTransforms
open Sys2Proof.Machine Sys2Proof.Resolver

/-! ### The standard transform under `EXACT` -/

@[simp] theorem numDiv_exactQ (a b : Sys2Proof.Num) : numDiv .exactQ a b = a / b := rfl

/-- Twice `1 - k` times a difference divided by it gives the difference back. -/
theorem scaled_difference {k d : Rat} (hk : k ≠ 1) : 2 * (1 - k) * (d / (2 * (1 - k))) = d :=
  mul_div_cancel₀ d (mul_ne_zero two_ne_zero (sub_ne_zero.2 hk.symm))

/-- Luma less the weighted differences from red and blue, over the green coefficient, is green. -/
theorem green_of_differences {kr kg kb r g b : Rat} (hsum : kr + kg + kb = 1) (hkg : kg ≠ 0) :
    let y := kr * r + kg * g + kb * b
    y - (kr * (r - y) + kb * (b - y)) / kg = g := by
  intro y
  rw [sub_eq_iff_eq_add, ← sub_eq_iff_eq_add', eq_div_iff hkg]
  have hkg' : kg = 1 - kr - kb := by linarith
  simp only [y, hkg']
  ring

/-- Settles O33: red and blue are luma plus a difference, green is what is left of luma. -/
theorem linearInverseOfForward : Obligations.LinearInverseOfForward := by
  unfold Obligations.LinearInverseOfForward
  intro k t r g b yc uc vc hsum hkg hkr hkb hy hu hv
  have hred (d : Rat) := scaled_difference (d := d) hkr
  have hblue (d : Rat) := scaled_difference (d := d) hkb
  have hgreen := green_of_differences (r := r / 255) (g := g / 255) (b := b / 255) hsum hkg
  have hweighted (u v : Rat) : 2 * (k.kr * (1 - k.kr) * v + k.kb * (1 - k.kb) * u) =
      k.kr * (2 * (1 - k.kr) * v) + k.kb * (2 * (1 - k.kb) * u) := by ring
  rw [invLinear, hy, hu, hv]
  simp only [fwd, n8, numOf, numAdd_exactQ, numSub_exactQ, numMul_exactQ, numDiv_exactQ, Nat.cast_one, Nat.cast_ofNat,
    hweighted, hred, hblue, Rgb.mk.injEq, add_sub_cancel, true_and, and_true]
  exact hgreen

/-- Settles O34: each pixel is the definition's, read from the three entries. -/
theorem tablePixelFormulas : Obligations.TablePixelFormulas := by
  unfold Obligations.TablePixelFormulas
  exact fun m k bd t yc uc vc => ⟨rfl, rfl, rfl, rfl⟩

/-! ### The reversible classes -/

theorem clampI_mem (v : Int) (top : Nat) : 0 ≤ clampI v 0 top ∧ clampI v 0 top ≤ top :=
  ⟨le_max_left _ _, max_le (Int.natCast_nonneg top) (min_le_left _ _)⟩

theorem clampI_toNat (v : Int) (top : Nat) : ((clampI v 0 top).toNat : Int) = clampI v 0 top :=
  Int.toNat_of_nonneg (clampI_mem v top).1

theorem clampI_toNat_le (v : Int) (top : Nat) : (clampI v 0 top).toNat ≤ top := Int.toNat_le.2 (clampI_mem v top).2

theorem clampI_eq_self {v : Int} {top : Nat} (hlo : 0 ≤ v) (hhi : v ≤ top) : clampI v 0 top = v := by
  rw [clampI, min_eq_right hhi, max_eq_right hlo]

/-- The lifting steps undone: from the three integers of a reversible pixel, its three codes (41_color_matrix.md rule
R156). -/
theorem lifting_inverse (yc cg co : Int) :
    let t := yc - cg / 2
    let b := t - co / 2
    let r := b + co
    let g := t + cg
    r - b = co ∧ g - (b + (r - b) / 2) = cg ∧ b + (r - b) / 2 + (g - (b + (r - b) / 2)) / 2 = yc := by
  intro t b r g
  have hco : r - b = co := add_sub_cancel_left b co
  have hcg : g - (b + (r - b) / 2) = cg := by rw [hco]; ring
  refine ⟨hco, hcg, ?_⟩
  rw [hcg, hco]
  ring

/-- Settles O35: the integers are the clamped ones, and where no clamp acts they lift back to the codes. -/
theorem reversibleReconstruction : Obligations.ReversibleReconstruction := by
  unfold Obligations.ReversibleReconstruction
  intro m k tb top bd yc uc vc i cg co t gi bi ri pixel
  have hb : (i.2.2 : Int) = bi top := clampI_toNat ..
  have hg : (i.2.1 : Int) = gi top := clampI_toNat ..
  have hr : (i.1 : Int) = ri top := clampI_toNat ..
  refine ⟨rfl, rfl, hr, hg, hb, clampI_toNat_le .., clampI_toNat_le .., clampI_toNat_le ..,
    fun hg0 hgtop hb0 hbtop hr0 hrtop => ?_⟩
  have hb' : bi top = t - co / 2 := clampI_eq_self hb0 hbtop
  have hg' : gi top = t + cg := clampI_eq_self hg0 hgtop
  have hr' : ri top = t - co / 2 + co := by
    simp only [ri, hb']
    exact clampI_eq_self hr0 hrtop
  rw [hr, hg, hb, hr', hg', hb']
  exact lifting_inverse yc cg co

end Sys2Proof.ColourTransforms
end

