-- ==== Sys2Proof/Proofs/EncodeColorCheck.lean ====
section
/-! PROOFS. The check phase of ENCODE_COLOR (44_encoder.md rule R201) against its verdict, the same list of checks in
terms of the registers: check by check, both report the same status number. -/

namespace Sys2Proof.EncodeColorCheck
open Sys2Proof.Machine Sys2Proof.DecodeColorCheck Sys2Proof.DecodeColorPixels

/-! ### Operands in terms of the registers -/

theorem encChromaW_eq (s : State) (cfmt : Nat) :
    encChromaW s cfmt = if cfmt = 3 then s.surf.width.toNat else (s.surf.width.toNat + 1) / 2 := by
  unfold encChromaW chromaDim cfmtXsh
  split_ifs <;> simp

theorem encChromaH_eq (s : State) (cfmt : Nat) :
    encChromaH s cfmt =
      if cfmt = 0 ∨ cfmt = 1 then (s.surf.height.toNat + 1) / 2 else s.surf.height.toNat := by
  unfold encChromaH chromaDim cfmtYsh
  split_ifs <;> simp

theorem pixelFormat_bgra8_iff {w : Word} : pixelFormat w = .bgra8 ↔ getField w 1 0 = 0 := by
  unfold pixelFormat
  split <;> simp_all

/-- A `BGRA8` surface as a buffer (20_memory.md rules R75, R77). -/
theorem surfaceBuffer_bgra8 {f : Surface} (h : pixelFormat f.fmt = .bgra8) :
    surfaceBuffer f = ⟨f.base.toNat, f.stride.toNat, f.height.toNat, 4 * f.width.toNat, 1⟩ := by
  rw [surfaceBuffer, h, Nat.mul_comm 4]
  rfl

/-- The planes an encode writes (20_memory.md rule R79). -/
theorem encodeWrites_eq (s : State) (cfmt : Nat) :
    encodeWrites s cfmt =
      [⟨s.yPlane.base.toNat, s.yPlane.stride.toNat, s.surf.height.toNat, s.surf.width.toNat, 1⟩,
        ⟨s.uPlane.base.toNat, s.uPlane.stride.toNat, encChromaH s cfmt, encChromaW s cfmt, 1⟩,
        ⟨s.vPlane.base.toNat, s.vPlane.stride.toNat, encChromaH s cfmt, encChromaW s cfmt, 1⟩] := by
  simp only [encodeWrites, planeBuffer, Nat.mul_one]

/-! ### The check phase -/

theorem ite_bnot {α : Type} (b : Bool) (x y : α) : (if (!b) = true then x else y) = if b = true then y else x := by
  cases b <;> rfl

theorem toNat_eq_zero_iff {w : Word} : w.toNat = 0 ↔ w = 0 := (BitVec.toNat_eq (y := 0#32)).symm

/-- The check phase and the verdict report the same status number (44_encoder.md rule R201). -/
theorem map_encodeColorCheck (p : Params) (s : State) :
    (encodeColorCheck p s).map statusCode = encodeColorVerdict p s := by
  rw [encodeColorCheck, ← Option.or_none (o := firstFailure _)]
  simp only [map_firstFailure_cons_or, firstFailure_nil_or]
  refine if_congr ?null rfl (if_congr ?unknown rfl ((ite_or ..).symm.trans (if_ctx_congr ?empty (fun _ => rfl)
    fun hpassed => if_congr ?family rfl (if_congr ?subsampled rfl (if_congr ?stride rfl ?address)))))
  case null => simp only [encodeNull, Bool.or_eq_true, decide_eq_true_eq, or_assoc]
  case unknown => exact decide_eq_true_iff
  case empty =>
    simp only [Bool.or_eq_true, decide_eq_true_eq, ne_eq, pixelFormat_bgra8_iff, toNat_eq_zero_iff]
  case family =>
    simp only [Bool.and_eq_true, decide_eq_true_eq, isYCgCoFamily_classify_iff]
    rfl
  case subsampled =>
    simp only [Bool.and_eq_true, Bool.or_eq_true, decide_eq_true_eq, classify_eq_identity_iff]
    rfl
  case stride =>
    simp only [encodeStrideShort, Bool.or_eq_true, decide_eq_true_eq, or_assoc, encChromaW_eq]
    rfl
  case address =>
    have hformat : pixelFormat s.surf.fmt = .bgra8 := by
      rw [pixelFormat_bgra8_iff]
      exact not_not.1 (not_or.1 hpassed).1
    rw [surfaceBuffer_bgra8 hformat, encodeWrites_eq, encChromaW_eq, encChromaH_eq, ite_bnot]
    rfl

theorem encodeColorCheck_eq_none_iff {p : Params} {s : State} :
    encodeColorCheck p s = none ↔ encodeColorVerdict p s = none := by
  rw [← map_encodeColorCheck, Option.map_eq_none_iff]

/-! ### What a passed check phase says -/

theorem exec_encodeColor_of_verdict {s : State} (h : encodeColorVerdict Config.params s = none) :
    exec .encodeColor s = .next (succeed (encodeColorEffect Config.params s)) := by
  rw [exec, execEncodeColor, encodeColorCheck_eq_none_iff.2 h, command_succeeds]

theorem stride_of_encodeColorCheck {p : Params} {s : State} (h : encodeColorCheck p s = none) :
    s.surf.width.toNat ≤ s.yPlane.stride.toNat ∧ encChromaW s (encFormat s.encCtrl) ≤ s.uPlane.stride.toNat ∧
      encChromaW s (encFormat s.encCtrl) ≤ s.vPlane.stride.toNat := by
  simp only [encodeColorCheck, firstFailure_none, List.forall_mem_cons] at h
  obtain ⟨_, _, _, _, _, _, hstride, _⟩ := h
  simp only [encodeStrideShort, Bool.or_eq_false_iff, decide_eq_false_iff_not] at hstride
  omega

end Sys2Proof.EncodeColorCheck
end

