-- ==== Sys2Proof/Proofs/PlaneStores.lean ====
section
/-! PROOFS. The samples an encode writes (20_memory.md rules R76 to R80): elements of disjoint buffers share no byte,
nor do samples at different positions of one plane, so each sample is read back. -/

namespace Sys2Proof.PlaneStores
open Sys2Proof.Machine Sys2Proof.InvariantStep Sys2Proof.DecodeColorStores

/-! ### Elements of buffers -/

/-- The element lies in the buffer's extent (20_memory.md rule R77). -/
def InBuffer (b : Buffer) (e : Store) : Prop := b.base ≤ e.addr ∧ e.addr + e.size ≤ bufferEnd b

theorem inBuffer_sampleStore {pl : Plane} {w h x y : Nat} (hx : x < w) (hy : y < h) (v : Nat) :
    InBuffer (planeBuffer pl w h 1) (sampleStore pl x y v) := by
  have hrow : pl.base.toNat + y * pl.stride.toNat + (x + 1) * 1 ≤ bufferEnd (planeBuffer pl w h 1) :=
    row_le_bufferEnd (b := planeBuffer pl w h 1) hy (Nat.mul_le_mul_right 1 hx)
  simp only [InBuffer, sampleStore, sampAddr]
  simp only [planeBuffer] at hrow ⊢
  omega

theorem buffersApart_comm (b c : Buffer) : buffersApart b c = buffersApart c b := Bool.or_comm ..

theorem storesApart_of_buffersApart {b c : Buffer} {e e' : Store} (h : buffersApart b c = true) (he : InBuffer b e)
    (he' : InBuffer c e') : storesApart e e' := by
  simp only [buffersApart, Bool.or_eq_true, decide_eq_true_eq] at h
  obtain ⟨hlo, hhi⟩ := he
  obtain ⟨hlo', hhi'⟩ := he'
  exact h.imp (fun hbc => hhi.trans (hbc.trans hlo')) fun hcb => hhi'.trans (hcb.trans hlo)

/-- A later sample of the same plane, in raster order. -/
theorem storesApart_of_later {pl : Plane} {w x y x' y' : Nat} (hrow : w ≤ pl.stride.toNat) (hx : x < w)
    (hlater : y < y' ∨ y = y' ∧ x < x') (v v' : Nat) :
    storesApart (sampleStore pl x y v) (sampleStore pl x' y' v') := by
  simp only [storesApart, sampleStore, sampAddr]
  rcases hlater with hy | ⟨rfl, hx'⟩
  · have hnext : (y + 1) * pl.stride.toNat ≤ y' * pl.stride.toNat := Nat.mul_le_mul_right _ hy
    rw [Nat.add_one_mul] at hnext
    omega
  · omega

/-! ### Planes of one size -/

/-- One sample of each plane at every position of a `w` by `h` rectangle; a plane comes with the value of each of its
samples. -/
def planeStores (w h : Nat) (planes : List (Plane × (Nat → Nat → Nat))) : List Store :=
  gridStores w h fun x y => planes.map fun q => sampleStore q.1 x y (q.2 x y)

/-- The planes of an Identity encode, with the byte each copies (44_encoder.md rule R204). -/
def identityPlanes (s : State) : List (Plane × (Nat → Nat → Nat)) :=
  [(s.yPlane, fun x y => surfByte s x y .g), (s.uPlane, fun x y => surfByte s x y .b),
    (s.vPlane, fun x y => surfByte s x y .r)]

theorem identityStores_eq (s : State) :
    identityStores s = planeStores s.surf.width.toNat s.surf.height.toNat (identityPlanes s) := rfl

theorem surfByte_lt (s : State) (x y : Nat) (c : Channel) : surfByte s x y c < 256 := memRead_lt (n := 1)

theorem map_fst_identityPlanes (s : State) : (identityPlanes s).map Prod.fst = [s.yPlane, s.uPlane, s.vPlane] := rfl

/-- Elements of a grid share no byte where those of a cell share none with one another nor with those of a later
cell. -/
theorem pairwise_gridStores_of_later {w h : Nat} {f : Nat → Nat → List Store}
    (hown : ∀ x y, x < w → y < h → (f x y).Pairwise storesApart)
    (hlater : ∀ x y x' y', x < w → y < h → x' < w → y' < h → y < y' ∨ y = y' ∧ x < x' →
      ∀ e ∈ f x y, ∀ e' ∈ f x' y', storesApart e e') : (gridStores w h f).Pairwise storesApart := by
  refine List.pairwise_flatMap.2 ⟨fun y hy => List.pairwise_flatMap.2
    ⟨fun x hx => hown x y (List.mem_range.1 hx) (List.mem_range.1 hy), ?columns⟩, ?rows⟩
  case columns =>
    refine List.pairwise_lt_range.imp_of_mem fun {x x'} hx hx' hlt => ?_
    have hy' := List.mem_range.1 hy
    exact hlater x y x' y (List.mem_range.1 hx) hy' (List.mem_range.1 hx') hy' (.inr ⟨rfl, hlt⟩)
  case rows =>
    refine List.pairwise_lt_range.imp_of_mem fun {y y'} hy hy' hlt e he e' he' => ?_
    obtain ⟨x, hx, he⟩ := List.mem_flatMap.1 he
    obtain ⟨x', hx', he'⟩ := List.mem_flatMap.1 he'
    exact hlater x y x' y' (List.mem_range.1 hx) (List.mem_range.1 hy) (List.mem_range.1 hx') (List.mem_range.1 hy')
      (.inl hlt) e he e' he'

section Planes
variable {w h : Nat} {planes : List (Plane × (Nat → Nat → Nat))}
  (hrow : ∀ q ∈ planes, w ≤ q.1.stride.toNat)
  (hapart : planes.Pairwise fun q r => buffersApart (planeBuffer q.1 w h 1) (planeBuffer r.1 w h 1) = true)
include hrow hapart

theorem pairwise_planeStores : (planeStores w h planes).Pairwise storesApart := by
  refine pairwise_gridStores_of_later (fun x y hx hy => List.pairwise_map.2 (hapart.imp fun hqr =>
    storesApart_of_buffersApart hqr (inBuffer_sampleStore hx hy _) (inBuffer_sampleStore hx hy _)))
    fun x y x' y' hx hy hx' hy' hlater e he e' he' => ?_
  obtain ⟨q, hq, rfl⟩ := List.mem_map.1 he
  obtain ⟨r, hr, rfl⟩ := List.mem_map.1 he'
  by_cases hqr : q = r
  · subst hqr
    exact storesApart_of_later (hrow q hq) hx hlater _ _
  · have hsymm : Std.Symm fun q r : Plane × (Nat → Nat → Nat) =>
        buffersApart (planeBuffer q.1 w h 1) (planeBuffer r.1 w h 1) = true :=
      ⟨fun q r hqr => by rwa [buffersApart_comm]⟩
    exact storesApart_of_buffersApart (hapart.forall hq hr hqr) (inBuffer_sampleStore hx hy _)
      (inBuffer_sampleStore hx' hy' _)

/-- Each sample reads as its value. -/
theorem memRead_planeStores {m : Memory} (hmem : memWf m = true) (hrange : storesInRange (planeStores w h planes))
    {q : Plane × (Nat → Nat → Nat)} (hq : q ∈ planes) {x y : Nat} (hx : x < w) (hy : y < h) (hv : q.2 x y < 256) :
    memRead (memStores m (planeStores w h planes)) (sampAddr q.1 1 x y) 1 = q.2 x y := by
  have hread := memRead_memStores (e := sampleStore q.1 x y (q.2 x y)) hmem hrange (pairwise_planeStores hrow hapart)
    (mem_gridStores.2 ⟨x, y, hx, hy, List.mem_map_of_mem hq⟩)
  exact hread.trans (Nat.mod_eq_of_lt hv)

end Planes

end Sys2Proof.PlaneStores
end

