-- ==== Sys2Proof/Proofs/IdentityRoundTrip.lean ====
section
/-! PROOFS. Encoding with the Identity model and decoding again (41_color_matrix.md rule R161, 95_test_vectors.md
property L1-1): the planes hold the bytes of the surface, a decode fetches them as codes, and each code quantises back
to itself. -/

namespace Sys2Proof.IdentityRoundTrip
open Sys2Proof.Machine Sys2Proof.InvariantStep Sys2Proof.DecodeColorCheck Sys2Proof.DecodeColorStores
  Sys2Proof.DecodeColorPixels Sys2Proof.EncodeColorCheck Sys2Proof.PlaneStores Sys2Proof.ByteRoundTrip

/-! ### Encoding -/

theorem toNat_memByte (m : Memory) (a : Nat) : (memByte m a).toNat = memRead m a 1 := rfl

theorem encodeColorStores_identity {p : Params} {s : State} (hmc : (colourModel s.cm).mc = 0)
    (hcfmt : encFormat s.encCtrl = 3) : encodeColorStores p s = identityStores s := by
  simp only [encodeColorStores, hcfmt, hmc]
  rfl

/-- What an Identity encode in 4:4:4 leaves in memory and in `FRM_*`, and that it leaves the plane registers
(44_encoder.md rules R200, R206). -/
theorem exec_encodeColor_identity {s t : State} (hverdict : encodeColorVerdict Config.params s = none)
    (hmc : (colourModel s.cm).mc = 0) (hcfmt : encFormat s.encCtrl = 3) (hexec : exec .encodeColor s = .next t) :
    t.mem = memStores s.mem (identityStores s) ∧
      t.frm = encodedFrame s 3 (packModel (colourModel s.cm).cp (colourModel s.cm).tc 0 true) ∧
      t.yPlane = s.yPlane ∧ t.uPlane = s.uPlane ∧ t.vPlane = s.vPlane := by
  obtain rfl : succeed (encodeColorEffect Config.params s) = t :=
    Host.Outcome.next.inj ((exec_encodeColor_of_verdict hverdict).symm.trans hexec)
  rw [← encodeColorStores_identity (p := Config.params) hmc hcfmt, ← hcfmt, ← hmc]
  exact ⟨rfl, rfl, rfl, rfl, rfl⟩

theorem memWf_identityStores {p : Params} {s : State} (hmem : memWf s.mem = true) (hcheck : encodeColorCheck p s = none)
    (hmc : (colourModel s.cm).mc = 0) (hcfmt : encFormat s.encCtrl = 3) :
    memWf (memStores s.mem (identityStores s)) = true := by
  rw [← encodeColorStores_identity (p := p) hmc hcfmt]
  exact memStores_wf hmem (storesInRange_encodeColorStores hcheck)

/-- The three planes of an Identity encode hold green, blue and red (44_encoder.md rule R204). -/
theorem memRead_identityStores {p : Params} {s : State} (hmem : memWf s.mem = true)
    (hcheck : encodeColorCheck p s = none) (hcfmt : encFormat s.encCtrl = 3) {x y : Nat}
    (hx : x < s.surf.width.toNat) (hy : y < s.surf.height.toNat) :
    let m := memStores s.mem (identityStores s)
    memRead m (sampAddr s.yPlane 1 x y) 1 = surfByte s x y .g ∧
      memRead m (sampAddr s.uPlane 1 x y) 1 = surfByte s x y .b ∧
      memRead m (sampAddr s.vPlane 1 x y) 1 = surfByte s x y .r := by
  obtain ⟨_, haddr⟩ := encodeColorCheck_passed hcheck
  obtain ⟨hstrideY, hstrideU, hstrideV⟩ := stride_of_encodeColorCheck hcheck
  rw [hcfmt] at haddr hstrideU hstrideV
  rw [encChromaW_eq, if_pos rfl] at hstrideU hstrideV
  have hapart := (writesApart_iff.1 (Bool.and_eq_true_iff.1 haddr).2).1
  rw [encodeWrites_444, List.pairwise_map, ← map_fst_identityPlanes, List.pairwise_map] at hapart
  have hbyte : ∀ q ∈ identityPlanes s, q.2 x y < 256 := by simp [identityPlanes, surfByte_lt]
  have hread : ∀ q ∈ identityPlanes s,
      memRead (memStores s.mem (identityStores s)) (sampAddr q.1 1 x y) 1 = q.2 x y := fun q hq =>
    memRead_planeStores (by simp [identityPlanes, hstrideY, hstrideU, hstrideV]) hapart hmem
      (storesInRange_identityStores haddr) hq hx hy (hbyte q hq)
  simpa [identityPlanes] using hread

/-! ### The frame an Identity encode describes -/

/-- The fields of a packed colour model (30_encoding.md rule R106). -/
theorem colourModel_packModel {cp tc mc : Nat} (hcp : cp < 2 ^ 8) (htc : tc < 2 ^ 8) (hmc : mc < 2 ^ 8) (fr : Bool) :
    colourModel (packModel cp tc mc fr) = ⟨cp, tc, mc, fr⟩ := by
  have hfr : bitNat fr ≤ 1 := by cases fr <;> decide
  have hbit : getBit (packModel cp tc mc fr) 24 = decide (bitNat fr = 1) := by
    rw [getBit, ← BitVec.testBit_toNat, Nat.testBit_eq_decide_div_mod_eq, packModel, BitVec.toNat_ofNat]
    exact decide_eq_decide.2 (by omega)
  have hfull : decide (bitNat fr = 1) = fr := by cases fr <;> rfl
  rw [colourModel, hbit, hfull, ColourModel.mk.injEq]
  simp only [getField, packModel, BitVec.toNat_ofNat]
  exact ⟨by omega, by omega, by omega, trivial⟩

theorem frameFormat_encoded_444 : frameFormat (encodedFrameFormat 3) = ⟨8, 0, 0, false, false⟩ := by decide

/-! ### Decoding -/

theorem chromaIndex_full {n x : Nat} (hx : x < n) : chromaIndex n 0 x = x := by
  simp only [chromaIndex, chromaDim, pow_zero, Nat.div_one, Nat.add_zero]
  omega

theorem fetchSample_byte {s : State} (hfmt : s.frm.fmt = encodedFrameFormat 3) (pl : Plane) (x y : Nat) :
    fetchSample s pl x y = memRead s.mem (sampAddr pl 1 x y) 1 := by
  have hlt : memRead s.mem (sampAddr pl 1 x y) 1 < 256 := memRead_lt (n := 1)
  rw [fetchSample, hfmt, frameFormat_encoded_444]
  exact min_eq_left (Nat.le_of_lt_succ hlt)

/-- A pixel of a full-range Identity frame of depth 8 in 4:4:4: its three samples normalised. -/
theorem decodedPixel_identity (p : Params) {s : State} (hfmt : s.frm.fmt = encodedFrameFormat 3)
    (hmc : (effectiveModel s).mc = 0) (hfr : (effectiveModel s).fr = true) {x y : Nat}
    (hx : x < s.frm.width.toNat) (hy : y < s.frm.height.toNat) :
    decodedPixel p s (colourTables p s) x y =
      invIdentity (buildTables p 8 false true true) (memRead s.mem (sampAddr s.yPlane 1 x y) 1)
        (memRead s.mem (sampAddr s.uPlane 1 x y) 1) (memRead s.mem (sampAddr s.vPlane 1 x y) 1) := by
  have hcidx : cidx s x y = (x, y) := by
    rw [cidx, hfmt, frameFormat_encoded_444, chromaIndex_full hx, chromaIndex_full hy]
  have hu : decodeUPlane s = s.uPlane := by rw [decodeUPlane, hfmt, frameFormat_encoded_444]; rfl
  have hv : decodeVPlane s = s.vPlane := by rw [decodeVPlane, hfmt, frameFormat_encoded_444]; rfl
  rw [decodedPixel, fetchY, fetchU, fetchV, hcidx, hu, hv, fetchSample_byte hfmt, fetchSample_byte hfmt,
    fetchSample_byte hfmt, colourTables_eq, hfmt, frameFormat_encoded_444, hmc, hfr]
  rfl

/-- The whole surface is placed where the tile is the first and the frame has the surface's size (46_tile_assembly.md
rule R275). -/
theorem placement_whole {s : State} (htile : s.tile = 0) (hw : s.frm.width = s.surf.width)
    (hh : s.frm.height = s.surf.height) : placement s = ⟨0, 0, s.surf.width.toNat, s.surf.height.toNat⟩ := by
  simp [placement, htile, hw, hh, tileCol, tileRow, getField]

/-- `CM`, where it is valid, or else the frame's own colour model is full-range Identity. -/
theorem effectiveModel_identity {s : State} {cp tc : Nat} (hcp : cp < 2 ^ 8) (htc : tc < 2 ^ 8)
    (hcicp : s.frm.cicp = packModel cp tc 0 true)
    (hcm : cmValid s.cm = true → (colourModel s.cm).mc = 0 ∧ (colourModel s.cm).fr = true) :
    (effectiveModel s).mc = 0 ∧ (effectiveModel s).fr = true := by
  unfold effectiveModel
  split
  next hvalid => exact hcm hvalid
  next =>
    rw [hcicp, colourModel_packModel hcp htc (by decide)]
    exact ⟨rfl, rfl⟩

/-- A decode of a full-range Identity frame of depth 8 in 4:4:4 to a `BGRA8` surface of its size: the channels are the
samples of the three planes (41_color_matrix.md rules R154, R161). -/
theorem memRead_decoded {s : State} (hmem : memWf s.mem = true)
    (hverdict : decodeColorVerdict Config.params s = none) (hfmt : s.frm.fmt = encodedFrameFormat 3)
    (heff : (effectiveModel s).mc = 0 ∧ (effectiveModel s).fr = true) (htile : s.tile = 0)
    (hw : s.frm.width = s.surf.width) (hh : s.frm.height = s.surf.height) (hbgra : pixelFormat s.surf.fmt = .bgra8)
    {x y : Nat} (hx : x < s.surf.width.toNat) (hy : y < s.surf.height.toNat) :
    let m := memStores s.mem (decodeColorStores Config.params s)
    memRead m (channelAddr s.surf x y .b) 1 = memRead s.mem (sampAddr s.uPlane 1 x y) 1 ∧
      memRead m (channelAddr s.surf x y .g) 1 = memRead s.mem (sampAddr s.yPlane 1 x y) 1 ∧
      memRead m (channelAddr s.surf x y .r) 1 = memRead s.mem (sampAddr s.vPlane 1 x y) 1 := by
  have hplace := placement_whole htile hw hh
  have hbyte (pl : Plane) : memRead s.mem (sampAddr pl 1 x y) 1 < 256 := memRead_lt (n := 1)
  have hpixel : decodedPixel Config.params s (colourTables Config.params s) x y = _ :=
    (decodedPixel_identity Config.params hfmt heff.1 heff.2 (hw ▸ hx) (hh ▸ hy)).trans
      (invIdentity_bytes Config.params (hbyte s.vPlane) (hbyte s.yPlane) (hbyte s.uPlane))
  have hread {c : Channel} {v : Sys2Proof.Num} := memRead_decodeColorStores hmem
    (decodeColorCheck_eq_none_iff.2 hverdict) (x := x) (y := y) (by rwa [hplace]) (by rwa [hplace]) (c := c) (v := v)
  simp only [hplace, Nat.zero_add, hbgra, hpixel] at hread
  exact ⟨(hread (by simp [colourStores])).trans (quantOut_byte _ (hbyte _)),
    (hread (by simp [colourStores])).trans (quantOut_byte _ (hbyte _)),
    (hread (by simp [colourStores])).trans (quantOut_byte _ (hbyte _))⟩

/-- Settles O52: a decoded channel is the sample its plane holds, and that is the byte of the surface the encode
copied. -/
theorem identityRoundTrip : Obligations.IdentityRoundTrip := by
  unfold Obligations.IdentityRoundTrip
  intro s t f c hmem hmc hcfmt hencode hexec hw hh hbgra hcm u hdecode
  have hcfmt' : encFormat s.encCtrl = 3 := (getField_zero s.encCtrl 2).trans hcfmt
  have hcheck := encodeColorCheck_eq_none_iff.2 hencode
  obtain ⟨htmem, hfrm, hyPlane, huPlane, hvPlane⟩ := exec_encodeColor_identity hencode hmc hcfmt' hexec
  have htwf : memWf t.mem = true := htmem ▸ memWf_identityStores hmem hcheck hmc hcfmt'
  have hfmt : t.frm.fmt = encodedFrameFormat 3 := by rw [hfrm]; rfl
  have hcicp : t.frm.cicp = packModel (colourModel s.cm).cp (colourModel s.cm).tc 0 true := by rw [hfrm]; rfl
  have hwidth : t.frm.width = f.width := by rw [hfrm, hw]; rfl
  have hheight : t.frm.height = f.height := by rw [hfrm, hh]; rfl
  have heff : (effectiveModel u).mc = 0 ∧ (effectiveModel u).fr = true :=
    effectiveModel_identity (s := u) (getField_lt s.cm 7 0) (getField_lt s.cm 15 8) hcicp hcm
  obtain ⟨v, hv, -, -, hvmem⟩ := exec_decodeColor_of_verdict hdecode
  refine ⟨v, hv, fun x y hx hy ch hch => BitVec.eq_of_toNat_eq ?_⟩
  obtain ⟨hb, hg, hr⟩ := memRead_decoded (s := u) htwf hdecode hfmt heff rfl hwidth hheight (pixelFormat_bgra8 hbgra)
    (hw ▸ hx) (hh ▸ hy)
  obtain ⟨hcopiedG, hcopiedB, hcopiedR⟩ := memRead_identityStores hmem hcheck hcfmt' hx hy
  rw [← htmem] at hcopiedB hcopiedG hcopiedR
  rw [← huPlane] at hcopiedB
  rw [← hyPlane] at hcopiedG
  rw [← hvPlane] at hcopiedR
  rw [toNat_memByte, toNat_memByte, hvmem]
  simp only [List.mem_cons, List.not_mem_nil, or_false] at hch
  rcases hch with rfl | rfl | rfl
  · exact hb.trans hcopiedB
  · exact hg.trans hcopiedG
  · exact hr.trans hcopiedR

end Sys2Proof.IdentityRoundTrip
end

