-- ==== Sys2Proof/Proofs/RangeRescale.lean ====
section
/-! PROOFS. The limited-to-full rescale (42_lut_builder.md rules R172, R173), for every depth of at least 8 bits: it is
monotone and takes the two limits to 0 and to the largest code, so all codes outside them clamp. -/

namespace Sys2Proof.RangeRescale
open Sys2Proof.Machine Sys2Proof.ColourTransforms

/-! ### The limits -/

theorem limSpan_pos (bd : Nat) (kind : RangeKind) : 0 < limSpan bd kind := by
  have hpow : 0 < 2 ^ (bd - 8) := Nat.two_pow_pos _
  cases kind <;> simp only [limSpan, limHi, limLo] <;> omega

theorem limHi_eq_limLo_add_limSpan (bd : Nat) (kind : RangeKind) : limHi bd kind = limLo bd + limSpan bd kind :=
  (Nat.add_sub_of_le (Nat.sub_pos_iff_lt.1 (limSpan_pos bd kind)).le).symm

/-! ### The rescale -/

/-- The quotient of rule R173 before it is clamped. -/
def rescaleQuotient (i bd : Nat) (kind : RangeKind) : Int :=
  (((i : Int) - limLo bd) * maxCode bd + (limSpan bd kind / 2 : Nat)) / (limSpan bd kind : Int)

theorem rescale_eq_clamp (i bd : Nat) (kind : RangeKind) :
    (rescale i bd kind : Int) = max 0 (min (maxCode bd : Int) (rescaleQuotient i bd kind)) :=
  clampI_toNat (rescaleQuotient i bd kind) (maxCode bd)

theorem rescale_le_maxCode (i bd : Nat) (kind : RangeKind) : rescale i bd kind ≤ maxCode bd :=
  clampI_toNat_le (rescaleQuotient i bd kind) (maxCode bd)

theorem rescaleQuotient_mono {i j : Nat} (h : i ≤ j) (bd : Nat) (kind : RangeKind) :
    rescaleQuotient i bd kind ≤ rescaleQuotient j bd kind := by
  refine Int.ediv_le_ediv (by exact_mod_cast limSpan_pos bd kind) ?_
  gcongr

theorem rescale_mono {i j : Nat} (h : i ≤ j) (bd : Nat) (kind : RangeKind) :
    rescale i bd kind ≤ rescale j bd kind := by
  have hquot := rescaleQuotient_mono h bd kind
  have hi := rescale_eq_clamp i bd kind
  have hj := rescale_eq_clamp j bd kind
  omega

/-- A whole number of spans, and the half span that rounds, have that number as their quotient. -/
theorem rescaleQuotient_eq {i bd : Nat} {kind : RangeKind} {c : Int}
    (h : ((i : Int) - limLo bd) * maxCode bd = c * limSpan bd kind) : rescaleQuotient i bd kind = c := by
  have hspan := limSpan_pos bd kind
  have hhalf : ((limSpan bd kind / 2 : Nat) : Int) / limSpan bd kind = 0 :=
    Int.ediv_eq_zero_of_lt (by omega) (by omega)
  rw [rescaleQuotient, h, add_comm, Int.add_mul_ediv_right _ _ (by omega), hhalf, zero_add]

theorem rescale_limLo (bd : Nat) (kind : RangeKind) : rescale (limLo bd) bd kind = 0 := by
  have hquot : rescaleQuotient (limLo bd) bd kind = 0 := rescaleQuotient_eq (by ring)
  have h := rescale_eq_clamp (limLo bd) bd kind
  omega

theorem rescale_limHi (bd : Nat) (kind : RangeKind) : rescale (limHi bd kind) bd kind = maxCode bd := by
  have hquot : rescaleQuotient (limHi bd kind) bd kind = maxCode bd := rescaleQuotient_eq (by
    rw [limHi_eq_limLo_add_limSpan]
    push_cast
    ring)
  have h := rescale_eq_clamp (limHi bd kind) bd kind
  omega

theorem rescale_eq_zero {i bd : Nat} (h : i ≤ limLo bd) (kind : RangeKind) : rescale i bd kind = 0 :=
  Nat.le_zero.1 ((rescale_mono h bd kind).trans_eq (rescale_limLo bd kind))

theorem rescale_eq_maxCode {i bd : Nat} {kind : RangeKind} (h : limHi bd kind ≤ i) :
    rescale i bd kind = maxCode bd :=
  (rescale_le_maxCode i bd kind).antisymm ((rescale_limHi bd kind).symm.trans_le (rescale_mono h bd kind))

/-! ### The neutral chroma code -/

theorem neutral_le_maxCode {bd : Nat} (h : 0 < bd) : 2 ^ (bd - 1) ≤ maxCode bd :=
  Nat.le_sub_one_of_lt (Nat.pow_lt_pow_right one_lt_two (by omega))

/-- The neutral code lies in the middle of the chroma limits, and the half span that rounds makes up for the 1 that the
largest code is short of a power of two. -/
theorem rescaleQuotient_neutral {bd : Nat} (h : 8 ≤ bd) :
    rescaleQuotient (2 ^ (bd - 1)) bd .chroma = (2 ^ (bd - 1) : Nat) := by
  have hneutral : 2 ^ (bd - 1) = 128 * 2 ^ (bd - 8) := by
    rw [show bd - 1 = 7 + (bd - 8) by omega, pow_add]
    norm_num
  have hmax : ((maxCode bd : Nat) : Int) = 2 * (2 ^ (bd - 1) : Nat) - 1 := by
    rw [maxCode, Nat.cast_sub Nat.one_le_two_pow, ← mul_pow_sub_one (by omega : bd ≠ 0) 2]
    norm_num
  have hpow : 0 < 2 ^ (bd - 8) := Nat.two_pow_pos _
  rw [rescaleQuotient, limSpan, limHi, limLo, hmax, hneutral]
  generalize 2 ^ (bd - 8) = n at hpow
  have hspan : 240 * n - 16 * n = 224 * n := by omega
  have hhalf : 224 * n / 2 = 112 * n := by omega
  rw [hspan, hhalf]
  refine Int.ediv_eq_of_eq_mul_left (by omega) ?_
  push_cast
  ring

theorem rescale_neutral {bd : Nat} (h : 8 ≤ bd) : rescale (2 ^ (bd - 1)) bd .chroma = 2 ^ (bd - 1) := by
  have hle := neutral_le_maxCode (bd := bd) (by omega)
  have hclamp := rescale_eq_clamp (2 ^ (bd - 1)) bd .chroma
  rw [rescaleQuotient_neutral h, min_eq_right (by exact_mod_cast hle), max_eq_right (Int.natCast_nonneg _)] at hclamp
  exact_mod_cast hclamp

/-! ### The four depths -/

/-- The rows of the table `LIM` as 42_lut_builder.md rule R172 prints them. -/
def limRows : List (Nat × Nat × Nat × Nat × Nat) :=
  [(8, 16, 235, 240, 255), (10, 64, 940, 960, 1023), (12, 256, 3760, 3840, 4095), (16, 4096, 60160, 61440, 65535)]

theorem limits_of_mem : ∀ row ∈ limRows, 8 ≤ row.1 ∧ limLo row.1 = row.2.1 ∧ limHi row.1 .luma = row.2.2.1 ∧
    limHi row.1 .chroma = row.2.2.2.1 ∧ maxCode row.1 = row.2.2.2.2 := by decide

/-- Settles O30: the limits of each row are those of its depth, and the rescale takes them to 0 and to the largest
code. -/
theorem limitedToFullRescale : Obligations.LimitedToFullRescale := by
  unfold Obligations.LimitedToFullRescale
  intro row hrow kind bd lo hi top
  obtain ⟨hbd, hlo, hhiY, hhiC, htop⟩ := limits_of_mem row hrow
  have hlo' : limLo bd = lo := hlo
  have htop' : maxCode bd = top := htop
  have hhi : limHi bd kind = hi := by
    cases kind with
    | luma => exact hhiY
    | chroma => exact hhiC
  rw [← hlo', ← hhi, ← htop']
  exact ⟨fun i => rescale_eq_clamp i bd kind, fun i h => rescale_eq_zero h kind, fun i => rescale_eq_maxCode,
    fun i j h => rescale_mono h bd kind, fun i => ⟨rfl, rfl⟩, rescale_neutral hbd⟩

end Sys2Proof.RangeRescale
end

