-- ==== Sys2Proof/Proofs/LutTables.lean ====
section
/-! PROOFS. The lookup tables (42_lut_builder.md rules R170, R174 to R176, R179): the values of `NUM` are fixed by
rounding, so rounding keeps bounds that are such values; codes normalise in their order, because neighbouring ones are
further apart than rounding moves them; BUILD_LUT as the statement writes it. -/

namespace Sys2Proof.LutTables
open Sys2Proof.Machine Sys2Proof.Binary32 Sys2Proof.Quantisation Sys2Proof.ByteRoundTrip Sys2Proof.RangeRescale

/-! ### Values that rounding leaves as they are -/

theorem f32Overflows_of_abs_le_one {v : Rat} (h : |v| ≤ 1) : f32Overflows v = false :=
  f32Overflows_eq_false (by linarith)

theorem roundF32_eq_self_iff {v : Rat} (h : |v| ≤ 1) : roundF32 v = v ↔ isBinary32 v :=
  ⟨fun hv => hv ▸ isBinary32_roundF32 (f32Overflows_of_abs_le_one h),
    roundF32_of_isBinary32 (f32Overflows_of_abs_le_one h)⟩

/-- Multiples of one half are values of either reading of `NUM`. -/
theorem numRound_half_mul (m : NumMode) {k : Nat} (hk : k < 2 ^ 24) : numRound m (k / 2) = k / 2 := by
  obtain ⟨hge, hle⟩ := numRound_between m hk (le_refl (k / 2 : Rat)) le_rfl
  exact hle.antisymm hge

theorem numRound_zero (m : NumMode) : numRound m 0 = 0 := by
  have h := numRound_half_mul m (k := 0) (by norm_num)
  norm_num at h
  exact h

theorem numRound_one (m : NumMode) : numRound m 1 = 1 := by
  have h := numRound_half_mul m (k := 2) (by norm_num)
  norm_num at h
  exact h

/-- A small result between two values of `NUM` stays between them. -/
theorem numRound_mem (m : NumMode) {v lo hi : Rat} (hlo : numRound m lo = lo) (hhi : numRound m hi = hi)
    (hlo1 : |lo| ≤ 1) (hhi1 : |hi| ≤ 1) (hge : lo ≤ v) (hle : v ≤ hi) :
    lo ≤ numRound m v ∧ numRound m v ≤ hi := by
  cases m with
  | f32 =>
    have h : f32Overflows v = false := f32Overflows_of_abs_le_one
      (abs_le.2 ⟨(abs_le.1 hlo1).1.trans hge, hle.trans (abs_le.1 hhi1).2⟩)
    exact ⟨le_roundF32 h ((roundF32_eq_self_iff hlo1).1 hlo) hge,
      roundF32_le h ((roundF32_eq_self_iff hhi1).1 hhi) hle⟩
  | exactQ => exact ⟨hge, hle⟩

theorem isBinary32_neg {v : Rat} (h : isBinary32 v) : isBinary32 (-v) := by
  rw [isBinary32_iff_abs] at h ⊢
  rwa [abs_neg]

/-- The binary32 values from one half on are whole numbers of steps of `2^-24`. -/
theorem isBinary32_in_steps {b : Rat} (h : isBinary32 b) (hhalf : 1 / 2 ≤ b) : ∃ n : Nat, b = n / 2 ^ 24 := by
  obtain ⟨m, e, hm, -, habs⟩ := isBinary32_iff_abs.1 h
  rw [abs_of_nonneg (by linarith)] at habs
  have hscaled : 2 ^ 148 ≤ m * 2 ^ e := by
    have hrat : (2 ^ 148 : Rat) ≤ m * 2 ^ e := by
      rw [habs, mul_div_assoc', le_div_iff₀ (by positivity)] at hhalf
      linarith
    exact_mod_cast hrat
  have he : 125 ≤ e := by
    by_contra hlt
    have hpow : 2 ^ e ≤ 2 ^ 124 := Nat.pow_le_pow_right two_pos (by omega)
    have hprod : m * 2 ^ e < 2 ^ 24 * 2 ^ 124 :=
      (Nat.mul_le_mul_left m hpow).trans_lt (Nat.mul_lt_mul_of_pos_right hm (by norm_num))
    omega
  refine ⟨m * 2 ^ (e - 125), ?_⟩
  rw [habs, Nat.cast_mul, Nat.cast_pow, Nat.cast_ofNat, pow_sub₀ _ two_ne_zero he]
  ring

theorem isBinary32_one_sub {b : Rat} (h : isBinary32 b) (hhalf : 1 / 2 ≤ b) (hone : b ≤ 1) :
    isBinary32 (1 - b) := by
  obtain ⟨n, rfl⟩ := isBinary32_in_steps h hhalf
  have hn : (2 ^ 23 : Nat) ≤ (n : Rat) ∧ (n : Rat) ≤ (2 ^ 24 : Nat) := by
    constructor <;> push_cast <;> linarith
  have hn' : 2 ^ 23 ≤ n ∧ n ≤ 2 ^ 24 := by exact_mod_cast hn
  have hdyadic := isBinary32_dyadic (k := 2 ^ 24 - n) (e := 24) (by norm_num) (by omega)
  convert hdyadic using 1
  push_cast
  ring

theorem numRound_neg {m : NumMode} {b : Rat} (h : numRound m b = b) (hb : |b| ≤ 1) : numRound m (-b) = -b := by
  cases m with
  | f32 => exact (roundF32_eq_self_iff (by rwa [abs_neg])).2 (isBinary32_neg ((roundF32_eq_self_iff hb).1 h))
  | exactQ => rfl

theorem numRound_one_sub {m : NumMode} {b : Rat} (h : numRound m b = b) (hhalf : 1 / 2 ≤ b) (hone : b ≤ 1) :
    numRound m (1 - b) = 1 - b := by
  have hb : |b| ≤ 1 := abs_le.2 ⟨by linarith, hone⟩
  cases m with
  | f32 =>
    have hsmall : |1 - b| ≤ 1 := abs_le.2 ⟨by linarith, by linarith⟩
    exact (roundF32_eq_self_iff hsmall).2 (isBinary32_one_sub ((roundF32_eq_self_iff hb).1 h) hhalf hone)
  | exactQ => rfl

/-- Rounding keeps the order of values at least `2^-16` apart: multiples of `2^-17` lie between them. -/
theorem numRound_lt (m : NumMode) {v w : Rat} (hv : 0 ≤ v) (hw : w ≤ 1) (hgap : v + 1 / 2 ^ 16 ≤ w) :
    numRound m v < numRound m w := by
  have hk := Int.floor_le (v * 2 ^ 17)
  have hk' := Int.lt_floor_add_one (v * 2 ^ 17)
  have hk0 : 0 ≤ ⌊v * 2 ^ 17⌋ := Int.floor_nonneg.2 (by positivity)
  generalize ⌊v * 2 ^ 17⌋ = k at hk hk' hk0
  have hlt : k + 2 ≤ 2 ^ 17 := by
    have hrat : (k : Rat) + 2 ≤ 2 ^ 17 := by linarith
    exact_mod_cast hrat
  obtain ⟨-, hbelow⟩ := numRound_between_dyadic m (v := v) (lo := 0) (hi := k + 1) 17 (by norm_num) (by norm_num)
    (by omega) (by push_cast; linarith) (by push_cast; linarith)
  obtain ⟨habove, -⟩ := numRound_between_dyadic m (v := w) (lo := k + 2) (hi := 2 ^ 17) 17 (by norm_num) (by omega)
    (by norm_num) (by push_cast; linarith) (by push_cast; linarith)
  push_cast at hbelow habove
  linarith

/-! ### Normalised codes -/

theorem normalise_eq (m : NumMode) (bd c : Nat) : normalise m bd c = numRound m ((c : Rat) / maxCode bd) := rfl

theorem code_div_maxCode_mem {bd c : Nat} (h : c ≤ maxCode bd) :
    0 ≤ (c : Rat) / maxCode bd ∧ (c : Rat) / maxCode bd ≤ 1 :=
  ⟨by positivity, div_le_one_of_le₀ (by exact_mod_cast h) (Nat.cast_nonneg _)⟩

theorem normalise_mem (m : NumMode) {bd c : Nat} (h : c ≤ maxCode bd) :
    0 ≤ normalise m bd c ∧ normalise m bd c ≤ 1 := by
  obtain ⟨hge, hle⟩ := code_div_maxCode_mem h
  exact numRound_mem m (numRound_zero m) (numRound_one m) (by norm_num) (by norm_num) hge hle

theorem numRound_normalise (m : NumMode) {bd c : Nat} (h : c ≤ maxCode bd) :
    numRound m (normalise m bd c) = normalise m bd c := by
  obtain ⟨hge, hle⟩ := code_div_maxCode_mem h
  exact numRound_numRound m ((abs_of_nonneg hge).trans_le hle)

theorem normalise_zero (m : NumMode) (bd : Nat) : normalise m bd 0 = 0 := by
  rw [normalise_eq, Nat.cast_zero, zero_div, numRound_zero]

theorem maxCode_pos {bd : Nat} (h : 0 < bd) : 0 < maxCode bd :=
  Nat.sub_pos_of_lt (Nat.one_lt_two_pow h.ne')

theorem normalise_maxCode (m : NumMode) {bd : Nat} (h : 0 < bd) : normalise m bd (maxCode bd) = 1 := by
  have hne : (maxCode bd : Rat) ≠ 0 := by exact_mod_cast (maxCode_pos h).ne'
  rw [normalise_eq, div_self hne, numRound_one]

/-- Up to 16 bits, neighbouring codes are further apart than rounding moves them. -/
theorem normalise_lt (m : NumMode) {bd c d : Nat} (hbd : bd ≤ 16) (hcd : c < d) (hd : d ≤ maxCode bd) :
    normalise m bd c < normalise m bd d := by
  have hpos : (0 : Rat) < maxCode bd := by exact_mod_cast (show 0 < maxCode bd by omega)
  have hmax : (maxCode bd : Rat) ≤ 2 ^ 16 := by
    exact_mod_cast (Nat.sub_le _ _).trans (Nat.pow_le_pow_right two_pos hbd)
  have hcd' : (c + 1 : Rat) ≤ d := by exact_mod_cast hcd
  refine numRound_lt m (code_div_maxCode_mem (hcd.le.trans hd)).1 (code_div_maxCode_mem hd).2 ?_
  calc (c / maxCode bd + 1 / 2 ^ 16 : Rat) ≤ c / maxCode bd + 1 / maxCode bd := by gcongr
    _ = (c + 1) / maxCode bd := by ring
    _ ≤ d / maxCode bd := by gcongr

theorem normalise_mono (m : NumMode) {bd c d : Nat} (hbd : bd ≤ 16) (hcd : c ≤ d) (hd : d ≤ maxCode bd) :
    normalise m bd c ≤ normalise m bd d := by
  rcases hcd.eq_or_lt with rfl | hlt
  · exact le_rfl
  · exact (normalise_lt m hbd hlt hd).le

theorem rangedCode_le_maxCode {bd i : Nat} (full : Bool) (kind : RangeKind) (h : i < 2 ^ bd) :
    rangedCode bd full kind i ≤ maxCode bd := by
  cases full with
  | true => exact Nat.le_sub_one_of_lt h
  | false => exact rescale_le_maxCode i bd kind

/-- The neutral chroma code in either range. -/
theorem rangedCode_neutral {bd : Nat} (h : 8 ≤ bd) (full : Bool) :
    rangedCode bd full .chroma (2 ^ (bd - 1)) = 2 ^ (bd - 1) := by
  cases full with
  | true => rfl
  | false => exact rescale_neutral h

/-! ### The luma table -/

theorem supportedDepth_bounds {bd : Nat} (h : bd = 8 ∨ bd = 10 ∨ bd = 12 ∨ bd = 16) : 8 ≤ bd ∧ bd ≤ 16 := by
  omega

/-- Settles O31: codes normalise in their order, and the limited range adds the rescale, which is monotone. -/
theorem lumaTableMonotone : Obligations.LumaTableMonotone := by
  unfold Obligations.LumaTableMonotone
  intro m bd hdepth
  obtain ⟨hbd8, hbd16⟩ := supportedDepth_bounds hdepth
  have hone : normalise m bd (maxCode bd) = 1 := normalise_maxCode m (by omega)
  refine ⟨fun i => ⟨rfl, rfl⟩, normalise_zero m bd, hone, fun i j hij hj => ?strict, fun i j hij hj => ?mono,
    fun i hi => ?low, fun i hi _ => ?high⟩
  case strict => exact normalise_lt m hbd16 hij (Nat.le_sub_one_of_lt hj)
  case mono => exact normalise_mono m hbd16 (rescale_mono hij bd .luma) (rescale_le_maxCode j bd .luma)
  case low => exact (congrArg (normalise m bd) (rescale_eq_zero hi .luma)).trans (normalise_zero m bd)
  case high => exact (congrArg (normalise m bd) (rescale_eq_maxCode (kind := .luma) hi)).trans hone

/-! ### The chroma table -/

theorem chromaBias_half {p : Params} (h : p.bias = .half) (bd : Nat) : chromaBias p bd = 1 / 2 := by
  rw [chromaBias, h]
  exact numLit_half p.num

theorem chromaBias_code {p : Params} (h : p.bias = .code) (bd : Nat) :
    chromaBias p bd = normalise p.num bd (2 ^ (bd - 1)) := by
  rw [chromaBias, h]
  rfl

/-- The neutral code is at least half the largest, and normalises to at least one half. -/
theorem normalise_neutral_mem (m : NumMode) {bd : Nat} (h : 0 < bd) :
    1 / 2 ≤ normalise m bd (2 ^ (bd - 1)) ∧ normalise m bd (2 ^ (bd - 1)) ≤ 1 := by
  have hle := neutral_le_maxCode h
  have hhalf : maxCode bd ≤ 2 * 2 ^ (bd - 1) := (Nat.sub_le _ _).trans_eq (mul_pow_sub_one h.ne' 2).symm
  have hpos : (0 : Rat) < maxCode bd := by exact_mod_cast maxCode_pos h
  refine numRound_mem m (numLit_half m) (numRound_one m) (by norm_num [abs_of_pos]) (by norm_num) ?_
    (code_div_maxCode_mem hle).2
  rw [numOf, numOf, div_le_div_iff₀ two_pos hpos, one_mul, mul_comm]
  exact_mod_cast hhalf

/-- A bias that is a value of `NUM` of at least one half bounds the entries below, and what it leaves of 1 above. -/
theorem chromaEntry_mem {p : Params} {bd i : Nat} (full : Bool) (hi : i < 2 ^ bd)
    (hfix : numRound p.num (chromaBias p bd) = chromaBias p bd) (hhalf : 1 / 2 ≤ chromaBias p bd)
    (hone : chromaBias p bd ≤ 1) :
    -chromaBias p bd ≤ chromaEntry p bd full false i ∧ chromaEntry p bd full false i ≤ 1 - chromaBias p bd := by
  obtain ⟨hge, hle⟩ := normalise_mem p.num (rangedCode_le_maxCode full .chroma hi)
  have habs : |chromaBias p bd| ≤ 1 := abs_le.2 ⟨by linarith, hone⟩
  exact numRound_mem p.num (numRound_neg hfix habs) (numRound_one_sub hfix hhalf hone) (by rwa [abs_neg])
    (abs_le.2 ⟨by linarith, by linarith⟩) (by linarith) (by linarith)

/-- Settles O32: the normalised code is between 0 and 1, and subtracting the bias rounds to a value between the
bounds. -/
theorem chromaTableRange : Obligations.ChromaTableRange := by
  unfold Obligations.ChromaTableRange
  intro p bd full hdepth
  obtain ⟨hbd8, -⟩ := supportedDepth_bounds hdepth
  have hbd : 0 < bd := by omega
  refine ⟨fun i => rfl, fun i => rfl, fun hbias i hi => ?half, fun hbias => ⟨?neutral, fun i hi => ?code⟩⟩
  case half =>
    have hb := chromaBias_half hbias bd
    have h := chromaEntry_mem full hi (by rw [hb]; exact numLit_half p.num) hb.ge (by rw [hb]; norm_num)
    rw [hb] at h
    exact ⟨h.1, h.2.trans_eq (by norm_num)⟩
  case neutral =>
    rw [chromaEntry, if_neg Bool.false_ne_true, rangedCode_neutral hbd8, chromaBias_code hbias, numSub, sub_self,
      numRound_zero]
  case code =>
    have hb := chromaBias_code hbias bd
    obtain ⟨hhalf, hone⟩ := normalise_neutral_mem p.num hbd
    have hfix := numRound_normalise p.num (neutral_le_maxCode hbd)
    rw [← hb] at hhalf hone hfix
    have h := chromaEntry_mem full hi hfix hhalf hone
    rw [hb] at h
    exact h

end Sys2Proof.LutTables
end

