-- ==== Sys2Proof/Proofs/BuildLut.lean ====
section
/-! PROOFS. BUILD_LUT (42_lut_builder.md rules R170, R176): its one check, and the word it records, which is its
argument word without the reserved bits and with bit 31 set. -/

namespace Sys2Proof.BuildLut
open Sys2Proof.Machine Sys2Proof.DecodeColorStores Sys2Proof.CommandWords

/-! ### `LUT_CUR` -/

/-- The arguments of a build as bits of their word (10_state.md rule R36). -/
theorem lutConfig_eq (w : Word) :
    lutConfig w = ⟨w.toNat % 2 ^ 5, w.getLsbD 8, w.getLsbD 9, w.getLsbD 10⟩ := by
  rw [lutConfig, getField_zero]
  rfl

theorem and_low_bits (w : Word) : w &&& 0x1F = BitVec.ofNat 32 (w.toNat % 2 ^ 5) := by
  refine BitVec.eq_of_toNat_eq ?_
  rw [BitVec.toNat_and, BitVec.toNat_ofNat, Nat.mod_eq_of_lt (by omega)]
  exact Nat.and_two_pow_sub_one_eq_mod w.toNat 5

theorem and_bit (w : Word) (i : Nat) : w &&& BitVec.twoPow 32 i = if getBit w i then BitVec.twoPow 32 i else 0 :=
  BitVec.and_twoPow w i

/-- The argument bits of `LUT_CFG` (10_state.md rule R36), field by field. -/
theorem and_lutCfg_fields (w : Word) :
    w &&& 0x71F = BitVec.ofNat 32 (lutConfig w).depth |||
      (if (lutConfig w).mono then 0x100 else 0) ||| (if (lutConfig w).ident then 0x200 else 0) |||
      (if (lutConfig w).full then 0x400 else 0) := by
  have hmask : (0x71F : Word) = 0x1F ||| BitVec.twoPow 32 8 ||| BitVec.twoPow 32 9 ||| BitVec.twoPow 32 10 := by decide
  rw [hmask, BitVec.and_or_distrib_left, BitVec.and_or_distrib_left, BitVec.and_or_distrib_left, and_low_bits, and_bit,
    and_bit, and_bit, ← getField_zero w 4]
  rfl

/-- A build of a supported depth records the argument bits and sets `VALID` (42_lut_builder.md rule R176). -/
theorem lutCurWord_lutConfig {w : Word} (h : depthOk (lutConfig w).depth = true) :
    lutCurWord (lutConfig w).depth (lutConfig w).mono (lutConfig w).ident (lutConfig w).full =
      (w &&& 0x71F) ||| 0x80000000 := by
  rw [and_lutCfg_fields]
  generalize lutConfig w = cfg at h ⊢
  obtain ⟨depth, mono, ident, full⟩ := cfg
  rcases depthOk_iff.1 h with rfl | rfl | rfl | rfl <;> revert mono ident full <;> decide

/-! ### The command -/

theorem exec_buildLut_of_depthOk {s : State} (h : depthOk (lutConfig s.lutCfg).depth = true) :
    exec .buildLut s = .next (succeed (buildLutEffect Config.params s)) := by
  have hcheck : buildLutCheck s = none := by rw [buildLutCheck, h]; rfl
  rw [exec, execBuildLut, hcheck, command_succeeds]

theorem exec_buildLut_of_not_depthOk {s : State} (h : depthOk (lutConfig s.lutCfg).depth = false) :
    exec .buildLut s = .next (fail s .unsupportedBitDepth) := by
  have hcheck : buildLutCheck s = some .unsupportedBitDepth := by rw [buildLutCheck, h]; rfl
  rw [exec, execBuildLut, hcheck, command_fails]

/-- What BUILD_LUT leaves once its check has passed: the tables, the record of its arguments, and `STATUS.CODE = 0`. -/
theorem succeed_buildLutEffect (p : Params) {s : State} (h : depthOk (lutConfig s.lutCfg).depth = true) :
    succeed (buildLutEffect p s) =
      setStatus (setLut s (buildTables p (lutConfig s.lutCfg).depth (lutConfig s.lutCfg).mono
        (lutConfig s.lutCfg).ident (lutConfig s.lutCfg).full) ((s.lutCfg &&& 0x71F) ||| 0x80000000))
        (withCode s.status 0x00) := by
  rw [succeed_eq, statusWithCode_eq_withCode, buildLutEffect, buildInto, lutCurWord_lutConfig h]
  rfl

/-- Settles O29: the depth is the one check; the tables are those of the argument bits, entry by entry. -/
theorem buildLutResult : Obligations.BuildLutResult := by
  unfold Obligations.BuildLutResult
  intro s bd mono ident full
  have hcfg : lutConfig s.lutCfg = ⟨bd, mono, ident, full⟩ := lutConfig_eq s.lutCfg
  have hdepth : depthOk (lutConfig s.lutCfg).depth = true ↔ bd = 8 ∨ bd = 10 ∨ bd = 12 ∨ bd = 16 := by
    rw [hcfg, depthOk_iff]
  refine ⟨fun h => ⟨buildTables Config.params bd mono ident full, ?built, buildTables_luma _ _ _ _ _,
    buildTables_chroma _ _ _ _ _⟩, fun h => ?rejected⟩
  case built =>
    rw [exec_buildLut_of_depthOk (hdepth.2 h), succeed_buildLutEffect _ (hdepth.2 h), hcfg]
    rfl
  case rejected =>
    rw [exec_buildLut_of_not_depthOk (Bool.eq_false_of_not_eq_true (mt hdepth.1 h)), fail_eq,
      statusWithCode_eq_withCode]
    rfl

end Sys2Proof.BuildLut
end

