-- ==== Sys2Proof/Proofs/Subsampler.lean ====
section
/-! PROOFS. The geometry of the subsampler (43_chroma_subsampler.md rules R190, R191, R195): a pixel's block is the
one at its halved coordinates, and a chroma index lies in the chroma plane, so the clamp is idle. -/

namespace Sys2Proof.Subsampler
open Sys2Proof.Machine

/-! ### Blocks -/

/-- One coordinate of a block: the numbers that halve to `b`. -/
theorem div_two_eq_iff {x b : Nat} : x / 2 = b ↔ x = 2 * b ∨ x = 2 * b + 1 := by omega

/-- Membership in a block, with no list left: halved coordinates and existence. -/
theorem mem_blockPixels_iff {w h bx rowB x y : Nat} :
    (x, y) ∈ blockPixels w h bx rowB ↔ (x / 2 = bx ∧ y / 2 = rowB) ∧ x < w ∧ y < h := by
  simp only [blockPixels, List.mem_filter, List.mem_cons, List.not_mem_nil, or_false, Prod.mk.injEq,
    Bool.and_eq_true, decide_eq_true_eq, div_two_eq_iff]
  exact and_congr_left' (by tauto)

/-- The pixels of a block whose upper left pixel exists: the right column and the lower row may be missing. -/
theorem blockPixels_eq {w h bx rowB : Nat} (hbx : bx < (w + 1) / 2) (hrow : rowB < (h + 1) / 2) :
    blockPixels w h bx rowB =
      if 2 * bx + 1 < w then
        (if 2 * rowB + 1 < h then
          [(2 * bx, 2 * rowB), (2 * bx + 1, 2 * rowB), (2 * bx, 2 * rowB + 1), (2 * bx + 1, 2 * rowB + 1)]
        else [(2 * bx, 2 * rowB), (2 * bx + 1, 2 * rowB)])
      else if 2 * rowB + 1 < h then [(2 * bx, 2 * rowB), (2 * bx, 2 * rowB + 1)]
      else [(2 * bx, 2 * rowB)] := by
  have hleft : 2 * bx < w := by omega
  have hupper : 2 * rowB < h := by omega
  by_cases hright : 2 * bx + 1 < w <;> by_cases hlower : 2 * rowB + 1 < h <;>
    simp [blockPixels, hleft, hupper, hright, hlower]

/-- Settles O37: membership in a block is a condition on the halved coordinates, which one block meets; the list is
the filtered raster order. -/
theorem blockPartition : Obligations.BlockPartition := by
  unfold Obligations.BlockPartition
  intro w h
  refine ⟨fun x y hx hy => ⟨?inOwnBlock, fun bx rowB hmem => ?onlyThere⟩, fun bx rowB q hmem => ?existing,
    fun bx rowB hbx hrow => ⟨?size, blockPixels_eq hbx hrow⟩⟩
  case inOwnBlock => exact mem_blockPixels_iff.2 ⟨⟨rfl, rfl⟩, hx, hy⟩
  case onlyThere =>
    obtain ⟨⟨hcol, hrow⟩, -⟩ := mem_blockPixels_iff.1 hmem
    exact ⟨hcol.symm, hrow.symm⟩
  case existing => exact (mem_blockPixels_iff.1 hmem).2
  case size =>
    rw [blockPixels_eq hbx hrow]
    split <;> split <;> rfl

/-! ### Chroma indices -/

/-- The shifts of a frame format are single bits, which is all the bound below needs: for larger shifts `chromaDim`
does not round up. -/
theorem div_two_pow_lt_chromaDim {n sh x : Nat} (hsh : sh < 2) (hx : x < n) : x / 2 ^ sh < chromaDim n sh := by
  unfold chromaDim
  interval_cases sh <;> omega

theorem chromaIndex_eq_div {n sh x : Nat} (hsh : sh < 2) (hx : x < n) : chromaIndex n sh x = x / 2 ^ sh :=
  min_eq_left (Nat.le_sub_one_of_lt (div_two_pow_lt_chromaDim hsh hx))

theorem frameFormat_xsh_lt (w : Word) : (frameFormat w).xsh < 2 := getField_lt w 8 8

theorem frameFormat_ysh_lt (w : Word) : (frameFormat w).ysh < 2 := getField_lt w 9 9

/-- The chroma position of a position of the frame, without the clamp. -/
theorem cidx_eq_div {s : State} {x y : Nat} (hx : x < s.frm.width.toNat) (hy : y < s.frm.height.toNat) :
    cidx s x y = (x / 2 ^ (frameFormat s.frm.fmt).xsh, y / 2 ^ (frameFormat s.frm.fmt).ysh) := by
  rw [cidx, chromaIndex_eq_div (frameFormat_xsh_lt _) hx, chromaIndex_eq_div (frameFormat_ysh_lt _) hy]

/-- Settles O38: the shifted position is inside the plane, so the clamp leaves it. -/
theorem chromaIndexInPlane : Obligations.ChromaIndexInPlane := by
  unfold Obligations.ChromaIndexInPlane
  intro s x y hx hy
  have hcidx := cidx_eq_div hx hy
  refine ⟨rfl, hcidx, ?_⟩
  rw [hcidx]
  exact ⟨div_two_pow_lt_chromaDim (frameFormat_xsh_lt _) hx, div_two_pow_lt_chromaDim (frameFormat_ysh_lt _) hy⟩

end Sys2Proof.Subsampler
end

