-- ==== Sys2Proof/Proofs/PixelCommandChecks.lean ====
section
/-! PROOFS. The check phases of the commands that move pixels (44_encoder.md rules R201, R207, 45_decoder.md rules R231,
R239) against their verdicts. A verdict is the status number the check phase reports, so a command whose verdict is a
number writes it to `STATUS.CODE` and nothing else. -/

namespace Sys2Proof.PixelCommandChecks
open Sys2Proof.Machine Sys2Proof.CommandWords Sys2Proof.DecodeColorCheck Sys2Proof.EncodeColorCheck

/-! ### ENCODE_ALPHA -/

/-- ENCODE_ALPHA checks what ENCODE_COLOR checks in 4:0:0, where no colour model is rejected (44_encoder.md rules R201,
R207). -/
theorem encodeAlphaCheck_eq (p : Params) (s : State) :
    encodeAlphaCheck p s = encodeColorCheck p { s with encCtrl := 0 } := by
  have hcfmt : encFormat 0 = 0 := rfl
  simp only [encodeAlphaCheck, encodeColorCheck, firstFailure, hcfmt, ne_eq, not_true_eq_false, not_lt_zero,
    zero_ne_one, OfNat.zero_ne_ofNat, decide_false, Bool.or_self, Bool.and_false, Bool.false_and, Bool.false_eq_true,
    if_false]
  rfl

theorem encodeAlphaVerdict_eq (p : Params) (s : State) :
    encodeAlphaVerdict p s = encodeColorVerdict p { s with encCtrl := 0 } := by
  have hcfmt : getField 0 2 0 = 0 := rfl
  simp only [encodeAlphaVerdict, encodeColorVerdict, hcfmt, ne_eq, not_true_eq_false, not_lt_zero,
    zero_ne_one, OfNat.zero_ne_ofNat, or_self, and_false, false_and, true_or, if_true, if_false]

theorem map_encodeAlphaCheck (p : Params) (s : State) :
    (encodeAlphaCheck p s).map statusCode = encodeAlphaVerdict p s := by
  rw [encodeAlphaCheck_eq, encodeAlphaVerdict_eq, map_encodeColorCheck]

theorem encodeAlphaCheck_eq_none_iff {p : Params} {s : State} :
    encodeAlphaCheck p s = none ↔ encodeAlphaVerdict p s = none := by
  rw [← map_encodeAlphaCheck, Option.map_eq_none_iff]

/-! ### DECODE_ALPHA -/

/-- The check phase and the verdict report the same status number (45_decoder.md rule R239). -/
theorem map_decodeAlphaCheck (p : Params) (s : State) :
    (decodeAlphaCheck p s).map statusCode = decodeAlphaVerdict p s := by
  simp only [decodeAlphaCheck, map_firstFailure_cons_or, firstFailure_nil_or, map_validateTile]
  refine if_congr ?null rfl (if_congr ?depth rfl (if_congr ?format rfl (if_congr ?empty rfl (if_congr ?stride rfl
    (if_congr ?address rfl (if_congr ?size rfl rfl))))))
  case null => simp only [Bool.or_eq_true, decide_eq_true_eq]
  case depth => rw [Bool.not_eq_true', ← Bool.not_eq_true, depthOk_iff]
  case format => rw [decide_eq_true_iff, pixelFormat_invalid_iff]
  case empty => simp only [decodeEmpty, Bool.or_eq_true, decide_eq_true_eq, or_assoc]
  case stride =>
    simp only [decodeStrideShort, Bool.or_eq_true, decide_eq_true_eq]
    rfl
  case address =>
    rw [Bool.not_eq_true']
    rfl
  case size => exact sizeDiffers_iff

theorem decodeAlphaCheck_eq_none_iff {p : Params} {s : State} :
    decodeAlphaCheck p s = none ↔ decodeAlphaVerdict p s = none := by
  rw [← map_decodeAlphaCheck, Option.map_eq_none_iff]

/-! ### Failing -/

/-- A command whose check phase reports a status writes its number to `STATUS.CODE` (60_exceptions.md rule R294). -/
theorem command_reports {failure : Option Status} {verdict : Option Nat} (hmap : failure.map statusCode = verdict)
    {c : Nat} (h : verdict = some c) (effect s : State) :
    command failure effect s = .next { s with status := withCode s.status c } := by
  obtain ⟨status, hfailure, rfl⟩ := Option.map_eq_some_iff.1 (hmap.trans h)
  rw [hfailure, command_fails, fail_eq, statusWithCode_eq_withCode]
  rfl

/-- Settles O18: each check phase reports the number of its verdict. -/
theorem firstFailingCheckReported : Obligations.FirstFailingCheckReported := by
  unfold Obligations.FirstFailingCheckReported
  exact fun s c => ⟨fun h => command_reports (map_encodeColorCheck _ s) h _ s,
    fun h => command_reports (map_encodeAlphaCheck _ s) h _ s,
    fun h => command_reports (map_decodeColorCheck _ s) h _ s,
    fun h => command_reports (map_decodeAlphaCheck _ s) h _ s⟩

end Sys2Proof.PixelCommandChecks
end

