-- ==== Sys2Proof/Proofs/EncodedPlanes.lean ====
section
/-! PROOFS. The planes an encode leaves (44_encoder.md rules R203 to R206, 20_memory.md rules R76 to R80): one luma
sample for every pixel and one sample of each chroma plane for every chroma position. Each is read back, and no other
byte changes. -/

namespace Sys2Proof.EncodedPlanes
open Sys2Proof.Machine Sys2Proof.InvariantStep Sys2Proof.EncodeColorCheck Sys2Proof.PlaneStores
  Sys2Proof.PixelCommandChecks

/-! ### The samples of an encode -/

/-- A luma sample `y` for every pixel, and chroma samples `u` and `v` for every chroma position of the format. -/
def encodedStores (s : State) (cfmt : Nat) (y u v : Nat → Nat → Nat) : List Store :=
  planeStores s.surf.width.toNat s.surf.height.toNat [(s.yPlane, y)] ++
    planeStores (encChromaW s cfmt) (encChromaH s cfmt) [(s.uPlane, u), (s.vPlane, v)]

/-- A monochrome encode copies one channel and zero-fills the chroma planes (44_encoder.md rule R203). -/
theorem monoStores_eq (s : State) (ch : Channel) :
    monoStores s ch = encodedStores s 0 (fun x y => surfByte s x y ch) (fun _ _ => 0) fun _ _ => 0 := rfl

/-- A standard encode quantises the forward transform (44_encoder.md rule R205). -/
theorem standardStores_eq (p : Params) (k : Coefs) (cfmt : Nat) (s : State) :
    standardStores p k cfmt s =
      encodedStores s cfmt (fun x y => quantLuma p.num (pixelYuv p k s x y).y) (encodedU p k cfmt s)
        (encodedV p k cfmt s) := rfl

/-! ### What the checks say of the planes -/

/-- What an encode needs of its planes: approved addresses and rows that fit their strides (44_encoder.md rule R201). -/
def PlanesApproved (p : Params) (s : State) (cfmt : Nat) : Prop :=
  addressesOk p [surfaceBuffer s.surf] (encodeWrites s cfmt) = true ∧
    s.surf.width.toNat ≤ s.yPlane.stride.toNat ∧ encChromaW s cfmt ≤ s.uPlane.stride.toNat ∧
    encChromaW s cfmt ≤ s.vPlane.stride.toNat

theorem planesApproved_of_encodeColorCheck {p : Params} {s : State} (h : encodeColorCheck p s = none) :
    PlanesApproved p s (encFormat s.encCtrl) :=
  ⟨(encodeColorCheck_passed h).2, stride_of_encodeColorCheck h⟩

theorem planesApproved_of_encodeAlphaCheck {p : Params} {s : State} (h : encodeAlphaCheck p s = none) :
    PlanesApproved p s 0 := by
  rw [encodeAlphaCheck_eq] at h
  have hcfmt : encFormat 0 = 0 := rfl
  have happroved : PlanesApproved p { s with encCtrl := 0 } (encFormat 0) := planesApproved_of_encodeColorCheck h
  rwa [hcfmt] at happroved

/-! ### Reading the samples back -/

section Approved
variable {p : Params} {s : State} {cfmt : Nat} (happroved : PlanesApproved p s cfmt)
include happroved

theorem storesInRange_encodedStores (y u v : Nat → Nat → Nat) : storesInRange (encodedStores s cfmt y u v) := by
  obtain ⟨haddr, _⟩ := happroved
  exact storesInRange_append (storesInRange_luma haddr y) (storesInRange_chroma haddr u v)

/-- No two samples share a byte (20_memory.md rule R80). -/
theorem pairwise_encodedStores (y u v : Nat → Nat → Nat) : (encodedStores s cfmt y u v).Pairwise storesApart := by
  obtain ⟨haddr, hrowY, hrowU, hrowV⟩ := happroved
  have hapart := (writesApart_iff.1 (Bool.and_eq_true_iff.1 haddr).2).1
  simp only [encodeWrites, List.pairwise_cons, List.mem_cons, List.not_mem_nil, or_false, forall_eq_or_imp,
    forall_eq] at hapart
  obtain ⟨⟨hyu, hyv⟩, huv, _⟩ := hapart
  refine List.pairwise_append.2 ⟨?luma, ?chroma, fun e he e' he' => ?between⟩
  case luma => exact pairwise_planeStores (by simpa using hrowY) (List.pairwise_singleton _ _)
  case chroma => exact pairwise_planeStores (by simp [hrowU, hrowV]) (List.pairwise_pair.2 huv)
  case between =>
    obtain ⟨x, j, hx, hj, he⟩ := mem_gridStores.1 he
    obtain ⟨cx, cy, hcx, hcy, he'⟩ := mem_gridStores.1 he'
    simp only [List.map_cons, List.map_nil, List.mem_cons, List.not_mem_nil, or_false] at he he'
    subst he
    rcases he' with rfl | rfl
    · exact storesApart_of_buffersApart hyu (inBuffer_sampleStore hx hj _) (inBuffer_sampleStore hcx hcy _)
    · exact storesApart_of_buffersApart hyv (inBuffer_sampleStore hx hj _) (inBuffer_sampleStore hcx hcy _)

section Memory
variable (hmem : memWf s.mem = true) {y u v : Nat → Nat → Nat}
include hmem

/-- Each sample reads as its value. -/
theorem memByte_sampleStore {pl : Plane} {i j n : Nat} (hn : n < 256)
    (he : sampleStore pl i j n ∈ encodedStores s cfmt y u v) :
    (memByte (memStores s.mem (encodedStores s cfmt y u v)) (sampAddr pl 1 i j)).toNat = n :=
  (memRead_memStores hmem (storesInRange_encodedStores happroved y u v) (pairwise_encodedStores happroved y u v)
    he).trans (Nat.mod_eq_of_lt hn)

theorem memByte_encodedLuma {i j : Nat} (hi : i < s.surf.width.toNat) (hj : j < s.surf.height.toNat)
    (hy : y i j < 256) :
    (memByte (memStores s.mem (encodedStores s cfmt y u v)) (sampAddr s.yPlane 1 i j)).toNat = y i j :=
  memByte_sampleStore happroved hmem hy
    (List.mem_append_left _ (mem_gridStores.2 ⟨i, j, hi, hj, List.mem_singleton_self _⟩))

theorem memByte_encodedChroma {i j : Nat} (hi : i < encChromaW s cfmt) (hj : j < encChromaH s cfmt)
    (hu : u i j < 256) (hv : v i j < 256) :
    (memByte (memStores s.mem (encodedStores s cfmt y u v)) (sampAddr s.uPlane 1 i j)).toNat = u i j ∧
      (memByte (memStores s.mem (encodedStores s cfmt y u v)) (sampAddr s.vPlane 1 i j)).toNat = v i j :=
  ⟨memByte_sampleStore happroved hmem hu
      (List.mem_append_right _ (mem_gridStores.2 ⟨i, j, hi, hj, List.mem_cons_self ..⟩)),
    memByte_sampleStore happroved hmem hv
      (List.mem_append_right _ (mem_gridStores.2 ⟨i, j, hi, hj, List.mem_cons_of_mem _ (List.mem_singleton_self _)⟩))⟩

end Memory

end Approved

/-- A monochrome encode copies the bytes of its channel and zero-fills the chroma planes (44_encoder.md rule R203). -/
theorem memByte_monoStores {p : Params} {s : State} (happroved : PlanesApproved p s 0) (hmem : memWf s.mem = true)
    (ch : Channel) :
    let m := memStores s.mem (monoStores s ch)
    (∀ x y, x < s.surf.width.toNat → y < s.surf.height.toNat →
      memByte m (sampAddr s.yPlane 1 x y) = memByte s.mem (channelAddr s.surf x y ch)) ∧
    ∀ cx cy, cx < (s.surf.width.toNat + 1) / 2 → cy < (s.surf.height.toNat + 1) / 2 →
      memByte m (sampAddr s.uPlane 1 cx cy) = 0 ∧ memByte m (sampAddr s.vPlane 1 cx cy) = 0 := by
  refine ⟨fun x y hx hy => BitVec.eq_of_toNat_eq ?_, fun cx cy hcx hcy => ?_⟩
  · exact memByte_encodedLuma happroved hmem hx hy (surfByte_lt s x y ch)
  · obtain ⟨hu, hv⟩ := memByte_encodedChroma happroved hmem (y := fun x y => surfByte s x y ch) (u := fun _ _ => 0)
      (v := fun _ _ => 0) hcx hcy (by decide) (by decide)
    exact ⟨BitVec.eq_of_toNat_eq hu, BitVec.eq_of_toNat_eq hv⟩

/-! ### The frame -/

/-- Every byte an element of the list covers is a byte of a sample of one of the three planes. -/
def CoversSamples (s : State) (cw ch : Nat) (st : List Store) : Prop :=
  ∀ a, ∀ e ∈ st, storeCovers e a = true →
    isSampleByte s.yPlane 1 s.surf.width.toNat s.surf.height.toNat a ∨ isSampleByte s.uPlane 1 cw ch a ∨
      isSampleByte s.vPlane 1 cw ch a

theorem isSampleByte_of_covers {w h x y v a : Nat} {pl : Plane} (hx : x < w) (hy : y < h)
    (hcover : storeCovers (sampleStore pl x y v) a = true) : isSampleByte pl 1 w h a := by
  simp only [storeCovers, Bool.and_eq_true, decide_eq_true_eq] at hcover
  exact ⟨x, y, hx, hy, hcover⟩

/-- Every byte samples of planes cover is a sample byte of one of the planes. -/
theorem isSampleByte_of_planeStores {w h a : Nat} {planes : List (Plane × (Nat → Nat → Nat))} {e : Store}
    (he : e ∈ planeStores w h planes) (hcover : storeCovers e a = true) :
    ∃ pl ∈ planes.map Prod.fst, isSampleByte pl 1 w h a := by
  obtain ⟨x, y, hx, hy, hcell⟩ := mem_gridStores.1 he
  obtain ⟨q, hq, rfl⟩ := List.mem_map.1 hcell
  exact ⟨q.1, List.mem_map_of_mem hq, isSampleByte_of_covers hx hy hcover⟩

theorem coversSamples_encodedStores (s : State) (cfmt : Nat) (y u v : Nat → Nat → Nat) :
    CoversSamples s (encChromaW s cfmt) (encChromaH s cfmt) (encodedStores s cfmt y u v) := by
  intro a e he hcover
  rcases List.mem_append.1 he with he | he
  · simpa using Or.inl (isSampleByte_of_planeStores he hcover)
  · simpa using Or.inr (isSampleByte_of_planeStores he hcover)

theorem coversSamples_identityStores (s : State) :
    CoversSamples s s.surf.width.toNat s.surf.height.toNat (identityStores s) := by
  intro a e he hcover
  rw [identityStores_eq] at he
  simpa [map_fst_identityPlanes] using isSampleByte_of_planeStores he hcover

/-- A byte of no sample reads as before. -/
theorem memByte_of_coversSamples {s : State} {cw ch a : Nat} {st : List Store} (hmem : memWf s.mem = true)
    (hrange : storesInRange st) (hcovers : CoversSamples s cw ch st)
    (hy : ¬ isSampleByte s.yPlane 1 s.surf.width.toNat s.surf.height.toNat a)
    (hu : ¬ isSampleByte s.uPlane 1 cw ch a) (hv : ¬ isSampleByte s.vPlane 1 cw ch a) :
    memByte (memStores s.mem st) a = memByte s.mem a := by
  refine memByte_memStores_frame hmem hrange fun e he => Bool.eq_false_of_not_eq_true fun hcover => ?_
  exact (hcovers a e he hcover).elim hy (Or.elim · hu hv)

end Sys2Proof.EncodedPlanes
end

