-- ==== Sys2Proof/Proofs/EncodeColor.lean ====
section
/-! PROOFS. ENCODE_COLOR with its checks passed (44_encoder.md rules R200, R203 to R206): the registers and the samples
it leaves, for the monochrome format, the Identity model and the standard models. -/

namespace Sys2Proof.EncodeColor
open Sys2Proof.Machine Sys2Proof.Quantisation Sys2Proof.Resolver Sys2Proof.Subsampler Sys2Proof.InvariantStep
  Sys2Proof.DecodeColorStores Sys2Proof.DecodeColorPixels Sys2Proof.EncodeColorCheck Sys2Proof.IdentityRoundTrip
  Sys2Proof.EncodedPlanes

/-! ### Operands in terms of the registers -/

theorem encFormat_eq (w : Word) : encFormat w = w.toNat % 2 ^ 3 := getField_zero w 2

/-- A passed check phase has seen a chroma format the encoder knows (44_encoder.md rule R201). -/
theorem encFormat_le_of_encodeColorCheck {p : Params} {s : State} (h : encodeColorCheck p s = none) :
    encFormat s.encCtrl ≤ 3 := by
  simp only [encodeColorCheck, firstFailure_none, List.forall_mem_cons, decide_eq_false_iff_not, not_lt] at h
  obtain ⟨_, hformat, _⟩ := h
  exact hformat

/-- `FRM_FMT` of each chroma format (44_encoder.md rule R206). -/
theorem encodedFrameFormat_eq : ∀ cfmt ≤ 3, encodedFrameFormat cfmt =
    if cfmt = 0 then 0x708 else if cfmt = 1 then 0x308 else if cfmt = 2 then 0x108 else 0x008 := by decide

/-- The three codes of `CM` with the full range, as bits of the word (44_encoder.md rule R206). -/
theorem packModel_colourModel (w : Word) :
    packModel (colourModel w).cp (colourModel w).tc (colourModel w).mc true = (w &&& 0x00FFFFFF) ||| 0x01000000 := by
  have hlt : w.toNat % 2 ^ 24 < 2 ^ 24 := Nat.mod_lt _ (by decide)
  refine BitVec.eq_of_toNat_eq ?_
  calc
    _ = 2 ^ 24 * 1 + w.toNat % 2 ^ 24 := by
      simp only [packModel, colourModel, getField, bitNat, BitVec.toNat_ofNat, if_true]
      omega
    _ = w.toNat % 2 ^ 24 ||| 2 ^ 24 := by rw [Nat.two_pow_add_eq_or_of_lt hlt, Nat.or_comm, Nat.mul_one]
    _ = _ := by rw [← Nat.and_two_pow_sub_one_eq_mod, BitVec.toNat_or, BitVec.toNat_and]; rfl

/-- `FRM_*` after ENCODE_COLOR (44_encoder.md rule R206). -/
theorem encodedFrame_colourModel (s : State) {cfmt : Nat} (h : cfmt ≤ 3) :
    encodedFrame s cfmt (packModel (colourModel s.cm).cp (colourModel s.cm).tc (colourModel s.cm).mc true) =
      { width := s.surf.width
        height := s.surf.height
        fmt := if cfmt = 0 then 0x708 else if cfmt = 1 then 0x308 else if cfmt = 2 then 0x108 else 0x008
        cicp := if cfmt = 0 then 0x01020202 else (s.cm &&& 0x00FFFFFF) ||| 0x01000000 } := by
  simp only [encodedFrame, encodedFrameFormat_eq cfmt h, packModel_colourModel, cfmtMono, beq_iff_eq]
  rfl

/-- The class codes of 10_state.md rule R24 by matrix code. -/
theorem classCode_classify_eq_ite (mc : Nat) :
    classCode (classify mc) =
      if mc = 0 then 1 else if mc = 8 then 2 else if mc = 16 then 3 else if mc = 17 then 4 else 0 := by
  unfold classify
  split_ifs <;> rfl

/-! ### The state ENCODE_COLOR leaves -/

theorem succeed_setFrame (s : State) (f : Frame) : succeed (setFrame s f) = setFrame (succeed s) f := rfl

/-- The registers and the memory ENCODE_COLOR writes (44_encoder.md rule R200). -/
theorem succeed_encodeColorEffect (p : Params) (s : State) :
    succeed (encodeColorEffect p s) =
      { s with
        mem := memStores s.mem (encodeColorStores p s)
        coefs := resolveCoefs p (colourModel s.cm).cp (colourModel s.cm).mc
        status := withResolved s.status (classCode (classify (colourModel s.cm).mc))
        frm := encodedFrame s (encFormat s.encCtrl)
          (packModel (colourModel s.cm).cp (colourModel s.cm).tc (colourModel s.cm).mc true) } := by
  rw [encodeColorEffect, succeed_setFrame, succeed_resolveInto]
  rfl

/-- The samples of each kind of encode lie in the planes of its format (44_encoder.md rules R203 to R205). -/
theorem coversSamples_encodeColorStores {p : Params} {s : State} (h : encodeColorCheck p s = none) :
    CoversSamples s (encChromaW s (encFormat s.encCtrl)) (encChromaH s (encFormat s.encCtrl))
      (encodeColorStores p s) := by
  obtain ⟨hidentity, _⟩ := encodeColorCheck_passed h
  simp only [encodeColorStores]
  split_ifs with hmono hid
  · rw [monoStores_eq, hmono]
    exact coversSamples_encodedStores s 0 _ _ _
  · rw [encChromaW_eq, encChromaH_eq, hidentity hmono hid]
    exact coversSamples_identityStores s
  · exact coversSamples_encodedStores s _ _ _ _

/-- Settles O40: the effect's registers, with its words field by field; and every sample lies in one of the planes. -/
theorem encodeColorCompletes : Obligations.EncodeColorCompletes := by
  unfold Obligations.EncodeColorCompletes
  intro s hmem hverdict cfmt mc cw ch
  have hcheck := encodeColorCheck_eq_none_iff.2 hverdict
  have hcfmt : encFormat s.encCtrl = cfmt := encFormat_eq _
  have hknown : cfmt ≤ 3 := hcfmt ▸ encFormat_le_of_encodeColorCheck hcheck
  have hrange := storesInRange_encodeColorStores hcheck
  have hcovers : CoversSamples s cw ch (encodeColorStores Config.params s) := by
    have h := coversSamples_encodeColorStores hcheck
    rwa [encChromaW_eq, encChromaH_eq, hcfmt] at h
  refine ⟨memStores s.mem (encodeColorStores Config.params s), ?_, memStores_wf hmem hrange,
    fun a => memByte_of_coversSamples hmem hrange hcovers⟩
  rw [exec_encodeColor_of_verdict hverdict, succeed_encodeColorEffect, hcfmt, encodedFrame_colourModel s hknown,
    colourModel_cp, classCode_classify_eq_ite]
  rfl

/-! ### The samples -/

/-- The memory ENCODE_COLOR leaves. -/
theorem exec_encodeColor_mem {s : State} (h : encodeColorVerdict Config.params s = none) :
    ∃ t, exec .encodeColor s = .next t ∧ codeOf t = 0 ∧
      t.mem = memStores s.mem (encodeColorStores Config.params s) :=
  ⟨_, exec_encodeColor_of_verdict h, statusWithCode_code _ .ok, rfl⟩

/-- Settles O41: in 4:0:0 the samples are those of a monochrome encode of red. -/
theorem encodeMonochromeSamples : Obligations.EncodeMonochromeSamples := by
  unfold Obligations.EncodeMonochromeSamples
  intro s hmem hverdict hcfmt
  rw [← encFormat_eq] at hcfmt
  obtain ⟨t, hexec, hcode, htmem⟩ := exec_encodeColor_mem hverdict
  have happroved := planesApproved_of_encodeColorCheck (encodeColorCheck_eq_none_iff.2 hverdict)
  have hstores : encodeColorStores Config.params s = monoStores s .r := if_pos hcfmt
  rw [hcfmt] at happroved
  rw [hstores] at htmem
  exact ⟨t, hexec, hcode, htmem ▸ memByte_monoStores happroved hmem .r⟩

/-- Settles O42: the checks leave 4:4:4 alone to an Identity model, and its three planes are read back. -/
theorem encodeIdentitySamples : Obligations.EncodeIdentitySamples := by
  unfold Obligations.EncodeIdentitySamples
  intro s hmem hverdict hmc hcolour
  rw [← encFormat_eq] at hcolour
  have hcheck := encodeColorCheck_eq_none_iff.2 hverdict
  have hcfmt : encFormat s.encCtrl = 3 :=
    (encodeColorCheck_passed hcheck).1 hcolour (classify_eq_identity_iff.2 hmc)
  obtain ⟨t, hexec, hcode, htmem⟩ := exec_encodeColor_mem hverdict
  rw [encodeColorStores_identity hmc hcfmt] at htmem
  refine ⟨t, hexec, hcode, fun x y hx hy => ?_⟩
  obtain ⟨hg, hb, hr⟩ := memRead_identityStores hmem hcheck hcfmt hx hy
  rw [htmem]
  exact ⟨BitVec.eq_of_toNat_eq hg, BitVec.eq_of_toNat_eq hb, BitVec.eq_of_toNat_eq hr⟩

/-! ### Standard models -/

/-- The pixels of one row of a block, left first (43_chroma_subsampler.md rule R193). -/
theorem rowPixels_eq {w cx : Nat} (hcx : cx < (w + 1) / 2) (y : Nat) :
    rowPixels w cx y = if 2 * cx + 1 < w then [(2 * cx, y), (2 * cx + 1, y)] else [(2 * cx, y)] := by
  have hleft : 2 * cx < w := by omega
  by_cases hright : 2 * cx + 1 < w <;> simp [rowPixels, hleft, hright]

/-- A block is its upper row and, where it exists, its lower row (43_chroma_subsampler.md rule R190). -/
theorem blockPixels_eq_rowPixels {w h cx cy : Nat} (hcx : cx < (w + 1) / 2) (hcy : cy < (h + 1) / 2) :
    blockPixels w h cx cy =
      if 2 * cy + 1 < h then rowPixels w cx (2 * cy) ++ rowPixels w cx (2 * cy + 1) else rowPixels w cx (2 * cy) := by
  rw [blockPixels_eq hcx hcy, rowPixels_eq hcx, rowPixels_eq hcx]
  split_ifs <;> rfl

theorem quantLuma_lt (m : NumMode) (v : Sys2Proof.Num) : quantLuma m v < 256 :=
  Nat.lt_succ_of_le (quant_le m v (by decide))

theorem quantChroma_lt (p : Params) (v : Sys2Proof.Num) : quantChroma p v < 256 :=
  Nat.lt_succ_of_le (quant_le p.num _ (by decide))

/-- The samples of an encode of a standard model (44_encoder.md rule R205). -/
theorem exec_encodeColor_standard {s : State} (hmem : memWf s.mem = true)
    (hverdict : encodeColorVerdict Config.params s = none) (hmc : (colourModel s.cm).mc ≠ 0)
    (hcolour : encFormat s.encCtrl ≠ 0) :
    let p := Config.params
    let k := resolveCoefs p (colourModel s.cm).cp (colourModel s.cm).mc
    let cfmt := encFormat s.encCtrl
    ∃ t, exec .encodeColor s = .next t ∧ codeOf t = 0 ∧
      (∀ x y, x < s.surf.width.toNat → y < s.surf.height.toNat →
        (memByte t.mem (sampAddr s.yPlane 1 x y)).toNat = quantLuma p.num (pixelYuv p k s x y).y) ∧
      ∀ cx cy, cx < encChromaW s cfmt → cy < encChromaH s cfmt →
        (memByte t.mem (sampAddr s.uPlane 1 cx cy)).toNat = encodedU p k cfmt s cx cy ∧
        (memByte t.mem (sampAddr s.vPlane 1 cx cy)).toNat = encodedV p k cfmt s cx cy := by
  intro p k cfmt
  obtain ⟨t, hexec, hcode, htmem⟩ := exec_encodeColor_mem hverdict
  have happroved := planesApproved_of_encodeColorCheck (encodeColorCheck_eq_none_iff.2 hverdict)
  have hstores : encodeColorStores p s = standardStores p k cfmt s :=
    (if_neg hcolour).trans (if_neg (mt classify_eq_identity_iff.1 hmc))
  rw [hstores, standardStores_eq] at htmem
  refine ⟨t, hexec, hcode, fun x y hx hy => ?_, fun cx cy hcx hcy => ?_⟩
  · rw [htmem]
    exact memByte_encodedLuma happroved hmem hx hy (quantLuma_lt _ _)
  · rw [htmem]
    exact memByte_encodedChroma happroved hmem hcx hcy (quantChroma_lt _ _) (quantChroma_lt _ _)

/-- Settles O43: the chroma of a position is the mean over its block, over its row of the block, or its own pixel's. -/
theorem encodeStandardSamples : Obligations.EncodeStandardSamples := by
  unfold Obligations.EncodeStandardSamples
  refine ⟨fun m a b c d => ⟨rfl, rfl, rfl⟩, fun m k r g b => rfl, fun s hmem hverdict hmc hcolour => ?_⟩
  intro p w h k yuv row block
  rw [← encFormat_eq] at hcolour ⊢
  obtain ⟨t, hexec, hcode, hluma, hchroma⟩ := exec_encodeColor_standard hmem hverdict hmc hcolour
  rw [colourModel_cp] at hluma hchroma
  have hrow {cx : Nat} (hcx : cx < (w + 1) / 2) (y : Nat) : rowPixels w cx y = row cx y := rowPixels_eq hcx y
  have hblock {cx cy : Nat} (hcx : cx < (w + 1) / 2) (hcy : cy < (h + 1) / 2) :
      blockPixels w h cx cy = block cx cy := by
    rw [blockPixels_eq_rowPixels hcx hcy, hrow hcx, hrow hcx]
  refine ⟨t, hexec, hcode, hluma, fun hcfmt cx cy hcx hcy => ?_, fun hcfmt cx cy hcx hcy => ?_,
    fun hcfmt cx cy hcx hcy => ?_⟩ <;> rw [hcfmt, encChromaW_eq, encChromaH_eq] at hchroma
  · rw [← hblock hcx hcy]
    exact hchroma cx cy hcx hcy
  · rw [← hrow hcx cy]
    exact hchroma cx cy hcx hcy
  · exact hchroma cx cy hcx hcy

end Sys2Proof.EncodeColor
end

