-- ==== Sys2Proof/Proofs/AlphaRoundTrip.lean ====
section
/-! PROOFS. ENCODE_ALPHA with its checks passed (44_encoder.md rules R203, R206, R207), and decoding the alpha plane
again (45_decoder.md rule R238, 95_test_vectors.md property L1-8): a full-range luma entry of depth 8 is the normalised
byte, which quantises back to the byte. -/

namespace Sys2Proof.AlphaRoundTrip
open Sys2Proof.Machine Sys2Proof.CommandWords Sys2Proof.ByteRoundTrip Sys2Proof.InvariantStep
  Sys2Proof.DecodeColorStores Sys2Proof.IdentityRoundTrip Sys2Proof.PixelCommandChecks Sys2Proof.EncodedPlanes

/-! ### Encoding -/

/-- The registers and the memory ENCODE_ALPHA writes (44_encoder.md rule R207). -/
theorem exec_encodeAlpha_of_verdict {s : State} (h : encodeAlphaVerdict Config.params s = none) :
    exec .encodeAlpha s = .next { s with
      mem := memStores s.mem (monoStores s .a), status := withCode s.status 0x00
      frm := { width := s.surf.width, height := s.surf.height, fmt := 0x708, cicp := 0x01020202 } } := by
  rw [exec, execEncodeAlpha, encodeAlphaCheck_eq_none_iff.2 h, command_succeeds, succeed_eq,
    statusWithCode_eq_withCode]
  rfl

/-- Settles O44: the samples are those of a monochrome encode of alpha, and they lie in the planes. -/
theorem encodeAlphaResult : Obligations.EncodeAlphaResult := by
  unfold Obligations.EncodeAlphaResult
  intro s hmem hverdict w h
  have happroved := planesApproved_of_encodeAlphaCheck (encodeAlphaCheck_eq_none_iff.2 hverdict)
  have hrange : storesInRange (monoStores s .a) := storesInRange_encodedStores happroved _ _ _
  have hcovers : CoversSamples s ((w + 1) / 2) ((h + 1) / 2) (monoStores s .a) :=
    coversSamples_encodedStores s 0 _ _ _
  obtain ⟨hluma, hchroma⟩ := memByte_monoStores happroved hmem .a
  exact ⟨_, exec_encodeAlpha_of_verdict hverdict, memStores_wf hmem hrange, hluma, hchroma,
    fun a => memByte_of_coversSamples hmem hrange hcovers⟩

/-- `FRM_FMT` of a monochrome encode (44_encoder.md rule R206). -/
theorem frameFormat_encoded_400 : frameFormat 0x708 = ⟨8, 1, 1, true, false⟩ := by decide

/-- `FRM_CICP` of a monochrome encode (44_encoder.md rule R206). -/
theorem colourModel_encoded_400 : colourModel 0x01020202 = ⟨2, 2, 2, true⟩ := by decide

/-! ### Decoding -/

theorem exec_decodeAlpha_of_verdict {s : State} (h : decodeAlphaVerdict Config.params s = none) :
    exec .decodeAlpha s = .next (succeed (decodeAlphaEffect Config.params s)) := by
  rw [exec, execDecodeAlpha, decodeAlphaCheck_eq_none_iff.2 h, command_succeeds]

theorem stride_of_decodeAlphaCheck {p : Params} {s : State} (h : decodeAlphaCheck p s = none) :
    s.surf.width.toNat * bpp (pixelFormat s.surf.fmt) ≤ s.surf.stride.toNat := by
  obtain ⟨hfirst, _⟩ := Option.or_eq_none_iff.1 h
  simp only [firstFailure_none, List.forall_mem_cons] at hfirst
  obtain ⟨_, _, _, _, hstride, _⟩ := hfirst
  simp only [decodeStrideShort, Bool.or_eq_false_iff, decide_eq_false_iff_not] at hstride
  omega

/-- A pixel counted from another pixel (20_memory.md rule R75). -/
theorem pixAddr_add (f : Surface) (x0 y0 x y : Nat) :
    pixAddr f (x0 + x) (y0 + y) = pixAddr f x0 y0 + y * f.stride.toNat + x * bpp (pixelFormat f.fmt) := by
  simp only [pixAddr]
  ring

/-- No two alpha elements share a byte (20_memory.md rule R80). -/
theorem pairwise_decodeAlphaStores {p : Params} {s : State} (h : decodeAlphaCheck p s = none) :
    (decodeAlphaStores p s).Pairwise storesApart := by
  obtain ⟨_, hformat, _⟩ := decodeAlphaCheck_passed h
  have hstride := stride_of_decodeAlphaCheck h
  have hwidth : (placement s).copyW ≤ s.surf.width.toNat := (Nat.min_le_right _ _).trans (Nat.sub_le _ _)
  refine pairwise_gridStores (base := pixAddr s.surf (placement s).x0 (placement s).y0)
    ((Nat.mul_le_mul_right _ hwidth).trans hstride) (fun x y e he => ?_) fun x y => List.pairwise_singleton _ _
  rw [← pixAddr_add, List.mem_singleton.1 he]
  exact within_channelStore hformat ..

/-- The alpha of each placed pixel reads as its quantised entry (45_decoder.md rules R238, R240). -/
theorem memRead_decodeAlphaStores {p : Params} {s : State} (hmem : memWf s.mem = true)
    (h : decodeAlphaCheck p s = none) {x y : Nat} (hx : x < (placement s).copyW) (hy : y < (placement s).copyH) :
    memRead (memStores s.mem (decodeAlphaStores p s))
        (channelAddr s.surf ((placement s).x0 + x) ((placement s).y0 + y) .a) (channelBytes (pixelFormat s.surf.fmt)) =
      quantOut p.num (pixelFormat s.surf.fmt) (lutRead (alphaTables p s).luma (fetchY s x y)) := by
  have hread := memRead_memStores hmem (storesInRange_decodeAlphaStores h) (pairwise_decodeAlphaStores h)
    (mem_gridStores.2 ⟨x, y, hx, hy, List.mem_singleton_self _⟩)
  exact hread.trans (Nat.mod_eq_of_lt (quantOut_lt _ _ _))

/-! ### A full-range alpha frame of depth 8 -/

theorem fetchSample_depth8 {s : State} (hdepth : (frameFormat s.frm.fmt).depth = 8) (pl : Plane) (x y : Nat) :
    fetchSample s pl x y = memRead s.mem (sampAddr pl 1 x y) 1 := by
  have hlt : memRead s.mem (sampAddr pl 1 x y) 1 < 256 := memRead_lt (n := 1)
  rw [fetchSample, hdepth]
  exact min_eq_left (Nat.le_of_lt_succ hlt)

/-- An entry of the tables of such a frame is the normalised byte (42_lut_builder.md rule R174). -/
theorem lutRead_alphaTables {p : Params} {s : State} (hdepth : (frameFormat s.frm.fmt).depth = 8)
    (hfull : (colourModel s.frm.cicp).fr = true) {c : Nat} (hc : c < 256) :
    lutRead (alphaTables p s).luma c = numDiv p.num (numOf c) (numOf 255) := by
  rw [alphaTables, hdepth, hfull]
  exact lutRead_tabulate (n := 2 ^ 8) _ hc

/-- The alpha of a pixel of such a frame, decoded to a `BGRA8` surface of its size, is the frame's luma sample. -/
theorem memByte_decodedAlpha {s : State} (hmem : memWf s.mem = true)
    (hverdict : decodeAlphaVerdict Config.params s = none) (hdepth : (frameFormat s.frm.fmt).depth = 8)
    (hfull : (colourModel s.frm.cicp).fr = true) (htile : s.tile = 0) (hw : s.frm.width = s.surf.width)
    (hh : s.frm.height = s.surf.height) (hbgra : pixelFormat s.surf.fmt = .bgra8) {x y : Nat}
    (hx : x < s.surf.width.toNat) (hy : y < s.surf.height.toNat) :
    memByte (memStores s.mem (decodeAlphaStores Config.params s)) (channelAddr s.surf x y .a) =
      memByte s.mem (sampAddr s.yPlane 1 x y) := by
  have hplace := placement_whole htile hw hh
  have hbyte : memRead s.mem (sampAddr s.yPlane 1 x y) 1 < 256 := memRead_lt (n := 1)
  have hread := memRead_decodeAlphaStores hmem (decodeAlphaCheck_eq_none_iff.2 hverdict) (x := x) (y := y)
    (by rwa [hplace]) (by rwa [hplace])
  rw [fetchY, fetchSample_depth8 hdepth, lutRead_alphaTables hdepth hfull hbyte] at hread
  simp only [hplace, Nat.zero_add, hbgra, quantOut_byte _ hbyte] at hread
  exact BitVec.eq_of_toNat_eq hread

/-- Settles O53: a decoded alpha is the luma sample, and that is the byte of the surface the encode copied. -/
theorem alphaRoundTrip : Obligations.AlphaRoundTrip := by
  unfold Obligations.AlphaRoundTrip
  intro s t f c hmem hencode hexec hw hh hbgra u hdecode
  obtain ⟨m, hresult, hwf, hluma, _⟩ := encodeAlphaResult s hmem hencode
  obtain rfl := Host.Outcome.next.inj (hresult.symm.trans hexec)
  refine ⟨_, exec_decodeAlpha_of_verdict hdecode, fun x y hx hy => ?_⟩
  have hdecoded := memByte_decodedAlpha (s := u) hwf hdecode (congrArg FrameFormat.depth frameFormat_encoded_400)
    (congrArg ColourModel.fr colourModel_encoded_400) rfl hw.symm hh.symm (pixelFormat_bgra8 hbgra) (hw ▸ hx) (hh ▸ hy)
  exact hdecoded.trans (hluma x y hx hy)

end Sys2Proof.AlphaRoundTrip
end

