-- ==== Sys2Proof/Proofs/DecodeAddresses.lean ====
section
/-! PROOFS. Where a decode reads and writes (45_decoder.md rule R241 (a), 20_memory.md rules R75 to R78): its samples
and its channel elements lie in buffers its checks have approved, and so below `2^AW` and outside the register
window. -/

namespace Sys2Proof.DecodeAddresses
open Sys2Proof.Machine Sys2Proof.InvariantStep Sys2Proof.DecodeColorCheck Sys2Proof.PixelCommandChecks
  Sys2Proof.Subsampler

/-! ### Bytes of an approved buffer -/

/-- The `n` bytes from `a` on lie in the buffer's extent (20_memory.md rule R77). -/
def Holds (b : Buffer) (a n : Nat) : Prop := b.base ≤ a ∧ a + n ≤ bufferEnd b

theorem holds_sample {pl : Plane} {bytes w h x y : Nat} (hx : x < w) (hy : y < h) :
    Holds (planeBuffer pl w h bytes) (sampAddr pl bytes x y) bytes := by
  have hrow : pl.base.toNat + y * pl.stride.toNat + (x + 1) * bytes ≤ bufferEnd (planeBuffer pl w h bytes) :=
    row_le_bufferEnd (b := planeBuffer pl w h bytes) hy (Nat.mul_le_mul_right bytes hx)
  rw [Nat.add_one_mul] at hrow
  simp only [Holds, sampAddr, planeBuffer] at hrow ⊢
  omega

theorem holds_channel {f : Surface} (hf : pixelFormat f.fmt ≠ .invalid) {x y : Nat} (hx : x < f.width.toNat)
    (hy : y < f.height.toNat) (c : Channel) :
    Holds (surfaceBuffer f) (channelAddr f x y c) (channelBytes (pixelFormat f.fmt)) := by
  have hrow : f.base.toNat + y * f.stride.toNat + (x + 1) * bpp (pixelFormat f.fmt) ≤ bufferEnd (surfaceBuffer f) :=
    row_le_bufferEnd (b := surfaceBuffer f) hy (Nat.mul_le_mul_right _ hx)
  have hchannel := channelOffset_add_le_bpp hf c
  rw [Nat.add_one_mul] at hrow
  simp only [Holds, channelAddr, pixAddr, surfaceBuffer] at hrow ⊢
  omega

/-- Bytes of an approved buffer that does not begin at 0: no null address, below `2^AW`, clear of the register window
(20_memory.md rule R78 (a), (c), (e)). -/
theorem clear_of_holds {p : Params} {reads writes : List Buffer} {b : Buffer} {a n : Nat}
    (haddr : addressesOk p reads writes = true) (hb : b ∈ reads ++ writes) (hbase : 0 < b.base) (h : Holds b a n) :
    0 < a ∧ a + n ≤ 2 ^ 32 ∧ (a + n ≤ p.cmcBase ∨ p.cmcBase + 4096 ≤ a) := by
  obtain ⟨_, hend, hwindow⟩ := addressesOk_each haddr hb
  obtain ⟨hlo, hhi⟩ := h
  exact ⟨hbase.trans_le hlo, hhi.trans hend, hwindow.imp hhi.trans fun hafter => hafter.trans hlo⟩

/-! ### What the checks of a decode approve -/

theorem base_pos {w : Word} (h : w ≠ 0) : 0 < w.toNat :=
  Nat.pos_of_ne_zero fun h0 => h (BitVec.eq_of_toNat_eq h0)

/-- What the checks of either decode say of the buffers it touches, `reads` being the planes it reads (45_decoder.md
rules R231, R239). -/
structure Approved (p : Params) (s : State) (reads : List Buffer) : Prop where
  surfBase : s.surf.base ≠ 0
  yBase : s.yPlane.base ≠ 0
  format : pixelFormat s.surf.fmt ≠ .invalid
  readsY : yBuffer s ∈ reads
  addresses : addressesOk p reads [surfaceBuffer s.surf] = true

theorem yBuffer_mem_decodeColorReads (s : State) : yBuffer s ∈ decodeColorReads s := by
  simp only [decodeColorReads]
  split <;> exact List.mem_cons_self ..

theorem approved_of_decodeColorCheck {p : Params} {s : State} (h : decodeColorCheck p s = none) :
    Approved p s (decodeColorReads s) := by
  obtain ⟨_, hformat, haddr⟩ := decodeColorCheck_passed h
  obtain ⟨hfirst, _⟩ := Option.or_eq_none_iff.1 h
  simp only [firstFailure_none, List.forall_mem_cons, Bool.or_eq_false_iff, decide_eq_false_iff_not] at hfirst
  obtain ⟨⟨hsurf, hy⟩, _⟩ := hfirst
  exact ⟨hsurf, hy, hformat, yBuffer_mem_decodeColorReads s, haddr⟩

theorem approved_of_decodeAlphaCheck {p : Params} {s : State} (h : decodeAlphaCheck p s = none) :
    Approved p s [yBuffer s] := by
  obtain ⟨_, hformat, haddr⟩ := decodeAlphaCheck_passed h
  obtain ⟨hfirst, _⟩ := Option.or_eq_none_iff.1 h
  simp only [firstFailure_none, List.forall_mem_cons, Bool.or_eq_false_iff, decide_eq_false_iff_not] at hfirst
  obtain ⟨⟨hsurf, hy⟩, _⟩ := hfirst
  exact ⟨hsurf, hy, hformat, List.mem_singleton_self _, haddr⟩

/-- The planes the chroma samples come from, whichever way `UVSWAP` assigns them (20_memory.md rule R76). -/
theorem mem_decodePlanes_iff {s : State} {q : Plane} :
    q ∈ [decodeUPlane s, decodeVPlane s] ↔ q = s.uPlane ∨ q = s.vPlane := by
  simp only [decodeUPlane, decodeVPlane, List.mem_cons, List.not_mem_nil, or_false]
  split
  · exact or_comm
  · rfl

/-- A colour frame has no null chroma plane (45_decoder.md rule R231, step 1). -/
theorem chromaBase_of_decodeColorCheck {p : Params} {s : State} (h : decodeColorCheck p s = none)
    (hmono : (frameFormat s.frm.fmt).mono = false) {q : Plane} (hq : q ∈ [decodeUPlane s, decodeVPlane s]) :
    q.base ≠ 0 := by
  obtain ⟨hfirst, _⟩ := Option.or_eq_none_iff.1 h
  simp only [firstFailure_none, List.forall_mem_cons, hmono, Bool.not_false, Bool.true_and, Bool.or_eq_false_iff,
    decide_eq_false_iff_not] at hfirst
  obtain ⟨_, ⟨hu, hv⟩, _⟩ := hfirst
  rcases mem_decodePlanes_iff.1 hq with rfl | rfl
  · exact hu
  · exact hv

/-- The chroma planes of a colour frame are among the planes read (20_memory.md rule R79). -/
theorem chromaBuffer_mem_decodeColorReads {s : State} (hmono : (frameFormat s.frm.fmt).mono = false) {q : Plane}
    (hq : q ∈ [decodeUPlane s, decodeVPlane s]) :
    planeBuffer q (decChromaW s) (decChromaH s) (bps (frameFormat s.frm.fmt).depth) ∈ decodeColorReads s := by
  simp only [List.mem_cons, List.not_mem_nil, or_false] at hq
  rcases hq with rfl | rfl <;> simp [decodeColorReads, hmono]

/-! ### Samples and channel elements of a placed position -/

/-- A position of the placement rectangle is one of the frame (46_tile_assembly.md rule R275). -/
theorem placement_in_frame {s : State} {x y : Nat} (hx : x < (placement s).copyW) (hy : y < (placement s).copyH) :
    x < s.frm.width.toNat ∧ y < s.frm.height.toNat :=
  ⟨hx.trans_le (Nat.min_le_left _ _), hy.trans_le (Nat.min_le_left _ _)⟩

theorem holds_lumaSample {s : State} {x y : Nat} (hx : x < (placement s).copyW) (hy : y < (placement s).copyH) :
    Holds (yBuffer s) (sampAddr s.yPlane (bps (frameFormat s.frm.fmt).depth) x y)
      (bps (frameFormat s.frm.fmt).depth) := by
  obtain ⟨hfx, hfy⟩ := placement_in_frame hx hy
  exact holds_sample hfx hfy

/-- The chroma sample of a placed position, of either chroma plane (43_chroma_subsampler.md rule R195). -/
theorem holds_chromaSample {s : State} {x y : Nat} (hx : x < (placement s).copyW) (hy : y < (placement s).copyH)
    (q : Plane) :
    Holds (planeBuffer q (decChromaW s) (decChromaH s) (bps (frameFormat s.frm.fmt).depth))
      (sampAddr q (bps (frameFormat s.frm.fmt).depth) (cidx s x y).1 (cidx s x y).2)
      (bps (frameFormat s.frm.fmt).depth) := by
  obtain ⟨hfx, hfy⟩ := placement_in_frame hx hy
  rw [cidx_eq_div hfx hfy]
  exact holds_sample (div_two_pow_lt_chromaDim (frameFormat_xsh_lt _) hfx)
    (div_two_pow_lt_chromaDim (frameFormat_ysh_lt _) hfy)

theorem holds_placedChannel {s : State} (hformat : pixelFormat s.surf.fmt ≠ .invalid) {x y : Nat}
    (hx : x < (placement s).copyW) (hy : y < (placement s).copyH) (c : Channel) :
    Holds (surfaceBuffer s.surf) (channelAddr s.surf ((placement s).x0 + x) ((placement s).y0 + y) c)
      (channelBytes (pixelFormat s.surf.fmt)) := by
  obtain ⟨hpx, hpy⟩ := placement_inside hx hy
  exact holds_channel hformat hpx hpy c

/-- Settles O48: samples and channel elements lie in the buffers the address checks have approved. -/
theorem decodeStaysInside : Obligations.DecodeStaysInside := by
  unfold Obligations.DecodeStaysInside
  intro s p fm n f pl clear
  refine ⟨fun hverdict x y hx hy => ?lumaAndSurface, fun hverdict hmono x y hx hy q hq => ?chroma⟩
  case lumaAndSurface =>
    have happroved : ∃ reads, Approved p s reads := hverdict.elim
      (fun h => ⟨_, approved_of_decodeColorCheck (decodeColorCheck_eq_none_iff.2 h)⟩)
      (fun h => ⟨_, approved_of_decodeAlphaCheck (decodeAlphaCheck_eq_none_iff.2 h)⟩)
    obtain ⟨reads, hsurf, hbase, hformat, hreads, haddr⟩ := happroved
    have hluma := holds_lumaSample hx hy
    have hlumaClear := clear_of_holds haddr (List.mem_append_left _ hreads) (base_pos hbase) hluma
    refine ⟨hluma.1, hluma.2, hlumaClear, fun c => ?_⟩
    have hchannel := holds_placedChannel hformat hx hy c
    exact ⟨hchannel.1, hchannel.2,
      clear_of_holds haddr (List.mem_append_right _ (List.mem_singleton_self _)) (base_pos hsurf) hchannel⟩
  case chroma =>
    have hcheck := decodeColorCheck_eq_none_iff.2 hverdict
    have hsample := holds_chromaSample hx hy q
    exact ⟨hsample.1, hsample.2, clear_of_holds (approved_of_decodeColorCheck hcheck).addresses
      (List.mem_append_left _ (chromaBuffer_mem_decodeColorReads hmono hq))
      (base_pos (chromaBase_of_decodeColorCheck hcheck hmono hq)) hsample⟩

end Sys2Proof.DecodeAddresses
end

