-- ==== Sys2Proof/Proofs/DecodeResult.lean ====
section
/-! PROOFS. The state a decode leaves (45_decoder.md rules R230, R237, R238, R240, 46_tile_assembly.md rules R270,
R272): the words of `LUT_CUR` and of a first tile's record field by field, the tables its codes index, and the bytes of
the channels it writes. -/

namespace Sys2Proof.DecodeResult
open Sys2Proof.Machine Sys2Proof.ReservedBits Sys2Proof.InvariantStep Sys2Proof.DecodeColorCheck
  Sys2Proof.DecodeColorStores Sys2Proof.DecodeColorPixels Sys2Proof.CommandWords Sys2Proof.Resolver
  Sys2Proof.EncodeColor Sys2Proof.PixelCommandChecks Sys2Proof.AlphaRoundTrip

/-! ### Words -/

/-- `LUT_CUR` after a build of a supported depth (42_lut_builder.md rule R176). -/
theorem lutCurWord_eq {d : Nat} (hd : depthOk d = true) (mono ident full : Bool) :
    lutCurWord d mono ident full = BitVec.ofNat 32 d ||| (if mono then 0x100 else 0) |||
      (if ident then 0x200 else 0) ||| (if full then 0x400 else 0) ||| 0x80000000 := by
  rcases depthOk_iff.1 hd with rfl | rfl | rfl | rfl <;> revert mono ident full <;> decide

/-- `LUT_CUR` after an alpha decode, whose tables are monochrome (45_decoder.md rule R238). -/
theorem lutCurWord_mono {d : Nat} (hd : depthOk d = true) (full : Bool) :
    lutCurWord d true false full =
      BitVec.ofNat 32 d ||| 0x100 ||| (if full then 0x400 else 0) ||| 0x80000000 := by
  rw [lutCurWord_eq hd, if_pos rfl, if_neg Bool.false_ne_true]
  exact congrArg (· ||| _ ||| _) BitVec.or_zero

/-- `TS<b>_INFO` of a first tile's record: each field written stays clear of those written after it (10_state.md rule
R41). -/
theorem infoRecorded_eq (w : Word) {depth cls : Nat} (hdepth : depth < 2 ^ 5) (hcls : cls ≤ 5) (auth : Bool) :
    infoRecorded w depth cls auth = (w &&& 0xFFFCF8E0) ||| BitVec.ofNat 32 depth ||| BitVec.ofNat 32 (cls * 2 ^ 8) |||
      0x10000 ||| (if auth then 0x20000 else 0) := by
  have hkept : ~~~fieldMask 4 0 &&& (~~~fieldMask 10 8 &&& (~~~fieldMask 16 16 &&& ~~~fieldMask 17 17)) =
      0xFFFCF8E0 := by decide
  have hdepthField : ∀ d < 2 ^ 5, BitVec.ofNat 32 (d * 2 ^ 0) &&& (fieldMask 4 0 &&& (~~~fieldMask 10 8 &&&
      (~~~fieldMask 16 16 &&& ~~~fieldMask 17 17))) = BitVec.ofNat 32 d := by decide
  have hclassField : ∀ c ≤ 5, BitVec.ofNat 32 (c * 2 ^ 8) &&& (fieldMask 10 8 &&&
      (~~~fieldMask 16 16 &&& ~~~fieldMask 17 17)) = BitVec.ofNat 32 (c * 2 ^ 8) := by decide
  have hseenField : BitVec.ofNat 32 (1 * 2 ^ 16) &&& (fieldMask 16 16 &&& ~~~fieldMask 17 17) = 0x10000 := by decide
  have hauthField : BitVec.ofNat 32 (bitNat auth * 2 ^ 17) &&& fieldMask 17 17 = if auth then 0x20000 else 0 := by
    cases auth <;> decide
  simp only [infoRecorded, setField, BitVec.and_or_distrib_right, BitVec.and_assoc, hkept, hdepthField depth hdepth,
    hclassField cls hcls, hseenField, hauthField]

/-- The class of a frame by the bits of `FRM_FMT` (46_tile_assembly.md rule R270). -/
theorem frameClass_frameFormat (w : Word) :
    frameClass (frameFormat w) = if w.getLsbD 10 then 1
      else if w.getLsbD 8 then (if w.getLsbD 9 then 2 else 3)
      else (if w.getLsbD 9 then 5 else 4) := by
  have hbit (i : Nat) : getField w i i = 1 ↔ w.getLsbD i = true := by
    rw [getField_bit]
    split <;> simp [*]
  simp only [frameClass, frameFormat, hbit, getBit]

/-- What a first tile leaves in a bank, by the bits of the registers (46_tile_assembly.md rule R272). -/
theorem recordedBank_eq (s : State) (t : TileBank) :
    recordedBank s t =
      { expW := if t.expW = 0 ∨ t.expH = 0 then s.frm.width else t.expW
        expH := if t.expW = 0 ∨ t.expH = 0 then s.frm.height else t.expH
        info := (t.info &&& 0xFFFCF8E0) ||| BitVec.ofNat 32 (s.frm.fmt.toNat % 2 ^ 5) |||
          BitVec.ofNat 32 ((if s.frm.fmt.getLsbD 10 then 1
            else if s.frm.fmt.getLsbD 8 then (if s.frm.fmt.getLsbD 9 then 2 else 3)
            else (if s.frm.fmt.getLsbD 9 then 5 else 4)) * 2 ^ 8) ||| 0x10000 |||
          (if s.cm.getLsbD 31 then 0 else 0x20000)
        cicp := if s.cm.getLsbD 31 then 0 else s.frm.cicp &&& 0x01FFFFFF } := by
  have hdepth : (frameFormat s.frm.fmt).depth = s.frm.fmt.toNat % 2 ^ 5 := getField_zero _ 4
  have hmask : fieldMask 24 0 = 0x01FFFFFF := by decide
  have hinfo := infoRecorded_eq t.info (getField_lt s.frm.fmt 4 0) (frameClass_le (frameFormat s.frm.fmt))
    (!cmValid s.cm)
  simp only [recordedBank, Bool.or_eq_true, decide_eq_true_eq]
  rw [← frameClass_frameFormat, ← hdepth, TileBank.mk.injEq, ← hmask]
  refine ⟨rfl, rfl, hinfo.trans ?_, ?_⟩ <;> rw [cmValid, getBit] <;> cases s.cm.getLsbD 31 <;> rfl

/-! ### Recording a first tile -/

/-- A later tile's recording writes back the bank as it is (46_tile_assembly.md rule R272). -/
theorem recordTile_eq (b : Bank) (s : State) :
    recordTile b s = setBank s b (if s.tile = 0 then recordedBank s (bank s b) else bank s b) := by
  unfold recordTile
  by_cases hfirst : s.tile = 0
  · rw [if_pos (isFirstTile_iff.2 hfirst), if_pos hfirst]
  · rw [if_neg (mt isFirstTile_iff.1 hfirst), if_neg hfirst]
    rcases bank_cases b with rfl | rfl <;> rfl

theorem recordTile_colour (s : State) :
    recordTile 0 s = { s with ts0 := if s.tile = 0 then recordedBank s s.ts0 else s.ts0 } := recordTile_eq 0 s

theorem recordTile_alpha (s : State) :
    recordTile 1 s = { s with ts1 := if s.tile = 0 then recordedBank s s.ts1 else s.ts1 } := recordTile_eq 1 s

/-! ### The state a decode leaves -/

/-- The updates of DECODE_COLOR's execute phase, one after another (45_decoder.md rule R230). -/
theorem colourUpdates_eq (s : State) (b : TileBank) (k : Coefs) (resolved status cur : Word) (t : LutMem)
    (m : Memory) :
    setStatus (setMem (setLut (setStatus (setCoefs { s with ts0 := b } k) resolved) t cur) m) status =
      { s with mem := m, coefs := k, status := status, lut := t, lutCur := cur, ts0 := b } := rfl

/-- The updates of DECODE_ALPHA's execute phase, one after another (45_decoder.md rule R238). -/
theorem alphaUpdates_eq (s : State) (b : TileBank) (status cur : Word) (t : LutMem) (m : Memory) :
    setStatus (setMem (setLut { s with ts1 := b } t cur) m) status =
      { s with mem := m, status := status, lut := t, lutCur := cur, ts1 := b } := rfl

/-- The registers, the tables and the memory DECODE_COLOR writes (45_decoder.md rule R230). -/
theorem succeed_decodeColorEffect (p : Params) (s : State) :
    succeed (decodeColorEffect p s) =
      { s with
        mem := memStores s.mem (decodeColorStores p s)
        coefs := resolveCoefs p (effectiveModel s).cp (effectiveModel s).mc
        status := withResolved s.status (classCode (classify (effectiveModel s).mc))
        lut := colourTables p s
        lutCur := lutCurWord (frameFormat s.frm.fmt).depth (frameFormat s.frm.fmt).mono
          (decide (classify (effectiveModel s).mc = .identity)) (effectiveModel s).fr
        ts0 := if s.tile = 0 then recordedBank s s.ts0 else s.ts0 } := by
  rw [← statusWithCode_statusResolved, succeed_eq, decodeColorEffect, buildInto, resolveInto, writeResolved_eq,
    recordTile_colour]
  exact colourUpdates_eq ..

/-- The registers, the tables and the memory DECODE_ALPHA writes (45_decoder.md rule R238). -/
theorem succeed_decodeAlphaEffect (p : Params) (s : State) :
    succeed (decodeAlphaEffect p s) =
      { s with
        mem := memStores s.mem (decodeAlphaStores p s)
        status := withCode s.status 0x00
        lut := alphaTables p s
        lutCur := lutCurWord (frameFormat s.frm.fmt).depth true false (colourModel s.frm.cicp).fr
        ts1 := if s.tile = 0 then recordedBank s s.ts1 else s.ts1 } := by
  rw [succeed_eq, statusWithCode_eq_withCode, decodeAlphaEffect, buildInto, recordTile_alpha, alphaUpdates_eq,
    setMem_status, setLut_status, statusCode, alphaTables]

theorem exec_decodeColor_of_check {s : State} (h : decodeColorCheck Config.params s = none) :
    exec .decodeColor s = .next (succeed (decodeColorEffect Config.params s)) := by
  rw [exec, execDecodeColor, h, command_succeeds]

theorem exec_decodeAlpha_of_check {s : State} (h : decodeAlphaCheck Config.params s = none) :
    exec .decodeAlpha s = .next (succeed (decodeAlphaEffect Config.params s)) :=
  exec_decodeAlpha_of_verdict (decodeAlphaCheck_eq_none_iff.1 h)

/-! ### The bytes a decode writes -/

/-- A byte of a channel element of a placed pixel is a byte of that channel. -/
theorem isPlacedByte_of_covers {m : NumMode} {s : State} {x y : Nat} {c : Channel} {v : Num} {a : Nat}
    (hx : x < (placement s).copyW) (hy : y < (placement s).copyH)
    (hcover : storeCovers (channelStore m s.surf ((placement s).x0 + x) ((placement s).y0 + y) c v) a = true) :
    isPlacedByte s c a := by
  simp only [storeCovers, Bool.and_eq_true, decide_eq_true_eq] at hcover
  exact ⟨x, y, hx, hy, hcover⟩

/-- DECODE_COLOR writes bytes of the three colour channels only (45_decoder.md rule R237). -/
theorem isPlacedByte_of_decodeColorStores {p : Params} {s : State} {e : Store} {a : Nat}
    (he : e ∈ decodeColorStores p s) (hcover : storeCovers e a = true) :
    isPlacedByte s .b a ∨ isPlacedByte s .g a ∨ isPlacedByte s .r a := by
  obtain ⟨x, y, hx, hy, hpixel⟩ := mem_gridStores.1 he
  simp only [colourStores, List.mem_cons, List.not_mem_nil, or_false] at hpixel
  rcases hpixel with rfl | rfl | rfl
  · exact .inl (isPlacedByte_of_covers hx hy hcover)
  · exact .inr (.inl (isPlacedByte_of_covers hx hy hcover))
  · exact .inr (.inr (isPlacedByte_of_covers hx hy hcover))

/-- DECODE_ALPHA writes bytes of the alpha channel only (45_decoder.md rule R240). -/
theorem isPlacedByte_of_decodeAlphaStores {p : Params} {s : State} {e : Store} {a : Nat}
    (he : e ∈ decodeAlphaStores p s) (hcover : storeCovers e a = true) : isPlacedByte s .a a := by
  obtain ⟨x, y, hx, hy, hpixel⟩ := mem_gridStores.1 he
  obtain rfl := List.mem_singleton.1 hpixel
  exact isPlacedByte_of_covers hx hy hcover

/-! ### The tables a decode builds -/

/-- A fetched code indexes the luma table (45_decoder.md rule R234). -/
theorem lutRead_alphaTables_fetch (p : Params) (s : State) (x y : Nat) :
    lutRead (alphaTables p s).luma (fetchY s x y) =
      lumaEntry p.num (frameFormat s.frm.fmt).depth (colourModel s.frm.cicp).fr (fetchY s x y) :=
  lutRead_tabulate _ (fetchSample_lt s s.yPlane x y)

theorem length_buildTables_luma (p : Params) (bd : Nat) (mono ident full : Bool) :
    (buildTables p bd mono ident full).luma.length = 2 ^ bd := tabulate_length _ _ _

theorem length_buildTables_chroma (p : Params) (bd : Nat) (ident full : Bool) :
    (buildTables p bd false ident full).chroma.length = 2 ^ bd := tabulate_length _ _ _

/-- Settles O49: a saturated code lies below the length of a table of its depth. -/
theorem fetchedCodesAreBuilt : Obligations.FetchedCodesAreBuilt := by
  unfold Obligations.FetchedCodesAreBuilt
  intro p s x y f
  have hlt (pl : Plane) (x y : Nat) : fetchSample s pl x y < 2 ^ f.depth := fetchSample_lt s pl x y
  refine ⟨rfl, ?colourLuma, ?alphaLuma, fun hmono => ?chroma⟩
  case colourLuma =>
    rw [colourTables, length_buildTables_luma]
    exact hlt ..
  case alphaLuma =>
    rw [alphaTables, length_buildTables_luma]
    exact hlt ..
  case chroma =>
    rw [colourTables, hmono, length_buildTables_chroma]
    exact ⟨hlt .., hlt ..⟩

/-! ### The statements -/

/-- Settles O45: the effect's registers, with their words field by field; and every byte written is one of a colour
channel. -/
theorem decodeColorCompletes : Obligations.DecodeColorCompletes := by
  unfold Obligations.DecodeColorCompletes
  intro s hmem hverdict eff mc bd mono full cls
  have hcheck := decodeColorCheck_eq_none_iff.2 hverdict
  obtain ⟨hdepthOk, _⟩ := decodeColorCheck_passed hcheck
  have hrange := storesInRange_decodeColorStores hcheck
  have heff : effectiveModel s = colourModel eff := effectiveModel_eq s
  have hdepth : (frameFormat s.frm.fmt).depth = bd := getField_zero _ 4
  have hmc : (colourModel eff).mc = mc := rfl
  refine ⟨memStores s.mem (decodeColorStores Config.params s), ?registers, buildTables_luma _ _ _ _ _,
    buildTables_chroma _ _ _ _ _, memStores_wf hmem hrange, fun a hb hg hr => ?frame⟩
  case registers =>
    rw [exec_decodeColor_of_check hcheck, succeed_decodeColorEffect, lutCurWord_eq hdepthOk,
      colourTables_eq, heff, hdepth, hmc, colourModel_cp, classCode_classify_eq_ite, recordedBank_eq]
    simp only [classify_eq_identity_iff, decide_eq_true_eq]
    rfl
  case frame =>
    refine memByte_memStores_frame hmem hrange fun e he => Bool.eq_false_of_not_eq_true fun hcover => ?_
    exact (isPlacedByte_of_decodeColorStores he hcover).elim hb (Or.elim · hg hr)

/-- Where the alpha of a pixel lies, by the format code (20_memory.md rule R75). -/
theorem channelAddr_alpha {f : Surface} (hf : pixelFormat f.fmt ≠ .invalid) (x y : Nat) :
    channelAddr f x y .a = f.base.toNat + y * f.stride.toNat + x * (4 * (if f.fmt.toNat % 2 ^ 2 = 0 then 1
      else if f.fmt.toNat % 2 ^ 2 = 1 then 2 else 4)) +
      (if f.fmt.toNat % 2 ^ 2 = 0 then 3 else if f.fmt.toNat % 2 ^ 2 = 1 then 6 else 12) := by
  rcases pixelFormat_cases hf with ⟨hcode, hfmt⟩ | ⟨hcode, hfmt⟩ | ⟨hcode, hfmt⟩ <;>
    rw [channelAddr_of_format hfmt, hcode] <;> rfl

/-- Settles O47: the effect's registers, with their words field by field; each alpha element is read back, and every
byte written is one of an alpha element. -/
theorem decodeAlphaResult : Obligations.DecodeAlphaResult := by
  unfold Obligations.DecodeAlphaResult
  intro s hmem hverdict p fmt elem stored alphaOffset pl bd full n cls
  have hcheck := decodeAlphaCheck_eq_none_iff.2 hverdict
  obtain ⟨hdepthOk, hformat, _⟩ := decodeAlphaCheck_passed hcheck
  have hrange := storesInRange_decodeAlphaStores hcheck
  have hdepth : (frameFormat s.frm.fmt).depth = bd := getField_zero _ 4
  have htables : alphaTables p s = buildTables p bd true false full := by rw [alphaTables, hdepth]; rfl
  refine ⟨memStores s.mem (decodeAlphaStores p s), ?registers, buildTables_luma _ _ _ _ _, rfl,
    memStores_wf hmem hrange, fun x y hx hy => ⟨channelAddr_alpha hformat _ _, rfl, ?element⟩, fun a ha => ?frame⟩
  case registers =>
    rw [exec_decodeAlpha_of_verdict hverdict, succeed_decodeAlphaEffect, lutCurWord_mono hdepthOk, htables, hdepth,
      recordedBank_eq]
    rfl
  case element =>
    have hread := memRead_decodeAlphaStores hmem hcheck hx hy
    rw [lutRead_alphaTables_fetch, channelBytes_eq hformat, quantOut_eq hformat, fetchY, fetchSample, hdepth] at hread
    exact hread
  case frame =>
    refine memByte_memStores_frame hmem hrange fun e he => Bool.eq_false_of_not_eq_true fun hcover => ?_
    exact ha (isPlacedByte_of_decodeAlphaStores he hcover)

end Sys2Proof.DecodeResult
end

