-- ==== Sys2Proof/Proofs/DecodeAgain.lean ====
section
/-! PROOFS. What a decode does not depend on (45_decoder.md rule R241 (c), (d), 42_lut_builder.md rule R177): the
coefficients and tables of earlier commands, which it overwrites before it reads any; and its own results, since the
planes it reads are disjoint from the surface it writes, and recording a first tile twice is recording it once. -/

namespace Sys2Proof.DecodeAgain
open Sys2Proof.Machine Sys2Proof.InvariantStep Sys2Proof.DecodeColorCheck Sys2Proof.CommandWords Sys2Proof.Resolver
  Sys2Proof.PlaneStores Sys2Proof.DecodeAddresses Sys2Proof.DecodeResult

/-! ### Commands that succeed -/

/-- No check reports success (60_exceptions.md rule R293). -/
theorem ne_ok_of_firstFailure {l : List (Bool × Status)} {c : Status} (hl : ∀ x ∈ l, x.2 ≠ .ok)
    (h : firstFailure l = some c) : c ≠ .ok := by
  obtain ⟨before, after, rfl, _⟩ := firstFailure_some h
  exact hl (true, c) (by simp)

theorem validateTile_ne_ok {b : Bank} {s : State} {c : Status} (h : validateTile b s = some c) : c ≠ .ok := by
  simp only [validateTile] at h
  split at h
  · cases h
  · exact ne_ok_of_firstFailure (by simp) h

/-- The check phase of a decode: a list of checks, then the tile check (45_decoder.md rules R231, R239). -/
theorem ne_ok_of_check {l : List (Bool × Status)} {b : Bank} {s : State} {c : Status} (hl : ∀ x ∈ l, x.2 ≠ .ok)
    (h : (firstFailure l).or (validateTile b s) = some c) : c ≠ .ok := by
  rcases Option.or_eq_some_iff.1 h with hfail | ⟨_, htile⟩
  · exact ne_ok_of_firstFailure hl hfail
  · exact validateTile_ne_ok htile

theorem decodeColorCheck_ne_ok {p : Params} {s : State} (c : Status) : decodeColorCheck p s = some c → c ≠ .ok :=
  ne_ok_of_check (by simp)

theorem decodeAlphaCheck_ne_ok {p : Params} {s : State} (c : Status) : decodeAlphaCheck p s = some c → c ≠ .ok :=
  ne_ok_of_check (by simp)

theorem statusCode_eq_zero_iff {c : Status} : statusCode c = 0 ↔ c = .ok := by
  cases c <;> decide

/-- A command whose checks report no success ends with `STATUS.CODE = 0` only if they pass (60_exceptions.md rules R290,
R294). -/
theorem command_succeeded {failure : Option Status} {effect s t : State} (hne : ∀ c, failure = some c → c ≠ .ok)
    (h : command failure effect s = .next t) (hcode : codeOf t = 0) : failure = none ∧ succeed effect = t := by
  rcases command_cases failure effect s with ⟨c, hfail, heq⟩ | ⟨hnone, heq⟩
  · cases heq.symm.trans h
    rw [codeOf, fail_eq, setStatus_status, statusWithCode_code] at hcode
    exact absurd (statusCode_eq_zero_iff.1 hcode) (hne c hfail)
  · exact ⟨hnone, Host.Outcome.next.inj (heq.symm.trans h)⟩

/-! ### Coefficients and tables of earlier commands -/

/-- Other coefficients and tables, as earlier commands may have left them (10_state.md rules R26, R38, R39). -/
def withTables (s : State) (k : Coefs) (l : LutMem) (cur : Word) : State :=
  { s with coefs := k, lut := l, lutCur := cur }

theorem decodeColorCheck_withTables (p : Params) (s : State) (k : Coefs) (l : LutMem) (cur : Word) :
    decodeColorCheck p (withTables s k l cur) = decodeColorCheck p s := rfl

theorem decodeAlphaCheck_withTables (p : Params) (s : State) (k : Coefs) (l : LutMem) (cur : Word) :
    decodeAlphaCheck p (withTables s k l cur) = decodeAlphaCheck p s := rfl

/-- DECODE_COLOR overwrites all three (45_decoder.md rules R232, R233). -/
theorem succeed_decodeColorEffect_withTables (p : Params) (s : State) (k : Coefs) (l : LutMem) (cur : Word) :
    succeed (decodeColorEffect p (withTables s k l cur)) = succeed (decodeColorEffect p s) := by
  rw [succeed_decodeColorEffect, succeed_decodeColorEffect]
  rfl

/-- DECODE_ALPHA overwrites the tables and leaves the coefficients (45_decoder.md rule R238). -/
theorem succeed_decodeAlphaEffect_withTables (p : Params) (s : State) (k : Coefs) (l : LutMem) (cur : Word) :
    succeed (decodeAlphaEffect p (withTables s k l cur)) = { succeed (decodeAlphaEffect p s) with coefs := k } := by
  rw [succeed_decodeAlphaEffect, succeed_decodeAlphaEffect]
  rfl

/-! ### Memory -/

theorem memByte_head (k : Nat) (v : Byte) (rest : Memory) : memByte ((k, v) :: rest) k = v := if_pos rfl

/-- Canonical memories with the same bytes list no different first address: it would read as listed in one of them and
as unlisted in the other. -/
theorem head_le_of_memByte_eq {lo lo' k k' : Nat} {v v' : Byte} {rest rest' : Memory}
    (hm : memWfFrom lo ((k, v) :: rest) = true) (hm' : memWfFrom lo' ((k', v') :: rest') = true)
    (h : ∀ a, memByte ((k, v) :: rest) a = memByte ((k', v') :: rest') a) : k' ≤ k := by
  simp only [memWfFrom, Bool.and_eq_true, decide_eq_true_eq] at hm hm'
  obtain ⟨⟨_, hlisted⟩, _⟩ := hm
  obtain ⟨⟨⟨_, hrange⟩, hlisted'⟩, hrest'⟩ := hm'
  have hfrom : memWfFrom k' ((k', v') :: rest') = true := by
    simp only [memWfFrom, le_refl, hrange, hlisted', hrest', ne_eq, not_false_eq_true, decide_true, Bool.and_self]
  refine not_lt.1 fun hlt => hlisted ?_
  rw [← memByte_below hfrom hlt, ← h, memByte_head]

/-- Canonical memories with the same bytes are the same memory. -/
theorem eq_of_memByte_eq {lo lo' : Nat} {m m' : Memory} (hm : memWfFrom lo m = true) (hm' : memWfFrom lo' m' = true)
    (h : ∀ a, memByte m a = memByte m' a) : m = m' := by
  induction m generalizing lo lo' m' with
  | nil =>
    cases m' with
    | nil => rfl
    | cons c rest =>
      have hlisted := (h c.1).trans (memByte_head c.1 c.2 rest)
      simp [memWfFrom, ← hlisted, memByte] at hm'
  | cons c rest ih =>
    obtain ⟨k, v⟩ := c
    cases m' with
    | nil =>
      have hlisted := (h k).symm.trans (memByte_head k v rest)
      simp [memWfFrom, ← hlisted, memByte] at hm
    | cons c' rest' =>
      obtain ⟨k', v'⟩ := c'
      have hle := head_le_of_memByte_eq hm hm' h
      obtain rfl : k = k' := (head_le_of_memByte_eq hm' hm fun a => (h a).symm).antisymm hle
      obtain rfl : v = v' := by rw [← memByte_head k v rest, h, memByte_head]
      simp only [memWfFrom, Bool.and_eq_true, decide_eq_true_eq] at hm hm'
      obtain ⟨_, hrest⟩ := hm
      obtain ⟨_, hrest'⟩ := hm'
      refine congrArg _ (ih hrest hrest' fun a => ?_)
      by_cases ha : k = a
      · have hbelow : a < k + 1 := by omega
        rw [memByte_below hrest hbelow, memByte_below hrest' hbelow]
      · simpa [memByte, ha] using h a

/-- Where an element lies, the memory written to does not show (20_memory.md rule R80). -/
theorem memByte_memStores_of_covered {st : List Store} {m m' : Memory} {a : Nat} (hm : memWf m = true)
    (hm' : memWf m' = true) (hs : storesInRange st)
    (h : memByte m a = memByte m' a ∨ ∃ e ∈ st, storeCovers e a = true) :
    memByte (memStores m st) a = memByte (memStores m' st) a := by
  induction st generalizing m m' with
  | nil => exact h.resolve_right (by simp)
  | cons e rest ih =>
    have he := hs e (List.mem_cons_self ..)
    refine ih (memWrite_wf hm he) (memWrite_wf hm' he) (fun e' he' => hs e' (List.mem_cons_of_mem _ he')) ?_
    rw [memByte_memWrite hm he, memByte_memWrite hm' he]
    by_cases hcover : e.addr ≤ a ∧ a < e.addr + e.size
    · rw [if_pos hcover, if_pos hcover]
      exact .inl rfl
    · rw [if_neg hcover, if_neg hcover]
      simpa [storeCovers, hcover] using h

/-- The same elements written again change nothing (20_memory.md rule R80). -/
theorem memStores_memStores {st : List Store} {m : Memory} (hm : memWf m = true) (hs : storesInRange st) :
    memStores (memStores m st) st = memStores m st := by
  have hwf := memStores_wf hm hs
  refine eq_of_memByte_eq (memStores_wf hwf hs) hwf fun a => ?_
  by_cases hcovered : ∃ e ∈ st, storeCovers e a = true
  · exact memByte_memStores_of_covered hwf hm hs (.inr hcovered)
  · exact memByte_memStores_frame hwf hs (by simpa using hcovered)

/-- Bytes of a buffer read are not among the elements written to another (20_memory.md rule R78 (d)). -/
theorem memRead_memStores_of_holds {b w : Buffer} {m : Memory} {st : List Store} {a n : Nat} (hm : memWf m = true)
    (hs : storesInRange st) (hst : ∀ e ∈ st, InBuffer w e) (hapart : buffersApart w b = true) (h : Holds b a n) :
    memRead (memStores m st) a n = memRead m a n := by
  refine memRead_congr fun x hlo hhi => memByte_memStores_frame hm hs fun e he => ?_
  obtain ⟨hbase, hend⟩ := h
  obtain ⟨helo, hehi⟩ := hst e he
  simp only [buffersApart, Bool.or_eq_true, decide_eq_true_eq] at hapart
  simp only [storeCovers, Bool.and_eq_false_iff, decide_eq_false_iff_not]
  omega

/-! ### The words written again -/

theorem withResolved_again (w : Word) (cls : MatrixClass) :
    withResolved (withResolved w (classCode cls)) (classCode cls) = withResolved w (classCode cls) := by
  simp only [← statusWithCode_statusResolved]
  refine BitVec.eq_of_getLsbD_eq fun i _ => ?_
  simp only [statusWithCode, statusResolved, getLsbD_setField (show 7 < 32 by decide),
    getLsbD_setField (show 8 < 32 by decide), getLsbD_setField (show 14 < 32 by decide)]
  split_ifs <;> rfl

theorem withCode_again (w : Word) (c : Status) :
    withCode (withCode w (statusCode c)) (statusCode c) = withCode w (statusCode c) := by
  simp only [← statusWithCode_eq_withCode]
  refine BitVec.eq_of_getLsbD_eq fun i _ => ?_
  simp only [statusWithCode, getLsbD_setField (show 7 < 32 by decide)]
  split_ifs <;> rfl

theorem infoRecorded_again (w : Word) (depth cls : Nat) (auth : Bool) :
    infoRecorded (infoRecorded w depth cls auth) depth cls auth = infoRecorded w depth cls auth := by
  refine BitVec.eq_of_getLsbD_eq fun i _ => ?_
  simp only [infoRecorded, getLsbD_setField (show 4 < 32 by decide), getLsbD_setField (show 10 < 32 by decide),
    getLsbD_setField (show 16 < 32 by decide), getLsbD_setField (show 17 < 32 by decide)]
  split_ifs <;> rfl

/-- The size of a first tile's record: the frame's, or the one recorded before (46_tile_assembly.md rule R272). -/
theorem recordedBank_size (s : State) (t : TileBank) :
    ((recordedBank s t).expW = s.frm.width ∧ (recordedBank s t).expH = s.frm.height) ∨
      ((recordedBank s t).expW = t.expW ∧ (recordedBank s t).expH = t.expH) := by
  simp only [recordedBank]
  split
  · exact .inl ⟨rfl, rfl⟩
  · exact .inr ⟨rfl, rfl⟩

/-- Recording the same frame again leaves the bank (46_tile_assembly.md rule R272). -/
theorem recordedBank_again (s : State) (t : TileBank) : recordedBank s (recordedBank s t) = recordedBank s t := by
  simp only [recordedBank, infoRecorded_again, TileBank.mk.injEq, and_true]
  rcases Bool.eq_false_or_eq_true (decide (t.expW = 0) || decide (t.expH = 0)) with hunset | hset
  · simp only [hunset, if_true, ite_self, and_self]
  · simp only [hset, Bool.false_eq_true, if_false, and_self]

/-- A first tile is recorded again as it was, a later tile's bank is left again (46_tile_assembly.md rule R272). -/
theorem recorded_again (s : State) (t : TileBank) :
    (if s.tile = 0 then recordedBank s (if s.tile = 0 then recordedBank s t else t)
      else if s.tile = 0 then recordedBank s t else t) = if s.tile = 0 then recordedBank s t else t := by
  by_cases hfirst : s.tile = 0
  · simp only [if_pos hfirst, recordedBank_again]
  · simp only [if_neg hfirst]

/-! ### A decode of what a decode left -/

/-- The operands of `s` with the results of `t`: memory, coefficients, `STATUS`, tables and banks (45_decoder.md rule
R237). -/
def withResultsOf (s t : State) : State :=
  { s with
    mem := t.mem, coefs := t.coefs, status := t.status, lut := t.lut, lutCur := t.lutCur, ts0 := t.ts0, ts1 := t.ts1 }

/-- The bank `b` of `t` is that of `s`, after recording a first tile (46_tile_assembly.md rule R272). -/
def Recorded (b : Bank) (s t : State) : Prop := bank t b = if s.tile = 0 then recordedBank s (bank s b) else bank s b

/-- The planes read hold in `t` what they hold in `s`. -/
def SameReads (reads : List Buffer) (s t : State) : Prop :=
  ∀ b ∈ reads, ∀ a n, Holds b a n → memRead t.mem a n = memRead s.mem a n

section
variable {s t : State}

theorem bank_withResultsOf (s t : State) (b : Bank) : bank (withResultsOf s t) b = bank t b := rfl

/-- A later tile meets the bank it met before; a first tile is not compared (46_tile_assembly.md rule R272). -/
theorem validateTile_again {b : Bank} (hbank : Recorded b s t) :
    validateTile b (withResultsOf s t) = validateTile b s := by
  by_cases hfirst : s.tile = 0
  · have htile : isFirstTile s = true := isFirstTile_iff.2 hfirst
    have htile' : isFirstTile (withResultsOf s t) = true := htile
    simp only [validateTile, htile, htile', if_true]
  · rw [Recorded, if_neg hfirst, ← bank_withResultsOf s] at hbank
    simp only [validateTile, hbank]
    rfl

/-- The size a first tile records is its own, where none was recorded (45_decoder.md rule R231, step 6). -/
theorem sizeDiffers_again {b : Bank} (hbank : Recorded b s t) (h : sizeDiffers b s = false) :
    sizeDiffers b (withResultsOf s t) = false := by
  have hmismatch := mt sizeDiffers_iff.2 (Bool.eq_false_iff.1 h)
  refine Bool.eq_false_of_not_eq_true fun hdiffers => hmismatch ?_
  obtain ⟨hcheck, hw, hh, hsize⟩ := sizeDiffers_iff.1 hdiffers
  rw [bank_withResultsOf, hbank] at hw hh hsize
  by_cases hfirst : s.tile = 0
  · rw [if_pos hfirst] at hw hh hsize
    rcases recordedBank_size s (bank s b) with ⟨hexpW, hexpH⟩ | ⟨hexpW, hexpH⟩
    · exact absurd hsize (by simp [hexpW, hexpH, withResultsOf])
    · rw [hexpW, hexpH] at hsize
      exact ⟨hcheck, hexpW ▸ hw, hexpH ▸ hh, hsize⟩
  · rw [if_neg hfirst] at hw hh hsize
    exact ⟨hcheck, hw, hh, hsize⟩

theorem decodeColorCheck_again {p : Params} (hbank : Recorded 0 s t) (h : decodeColorCheck p s = none) :
    decodeColorCheck p (withResultsOf s t) = none := by
  obtain ⟨hfirst, htile⟩ := Option.or_eq_none_iff.1 h
  refine Option.or_eq_none_iff.2 ⟨?_, (validateTile_again hbank).trans htile⟩
  simp only [firstFailure_none, List.forall_mem_cons] at hfirst ⊢
  obtain ⟨hnull, hchromaNull, hdepth, hformat, hempty, hshifts, hrange, hstride, hchromaStride, haddr, hsize, hnil⟩ :=
    hfirst
  exact ⟨hnull, hchromaNull, hdepth, hformat, hempty, hshifts, hrange, hstride, hchromaStride, haddr,
    sizeDiffers_again hbank hsize, hnil⟩

theorem decodeAlphaCheck_again {p : Params} (hbank : Recorded 1 s t) (h : decodeAlphaCheck p s = none) :
    decodeAlphaCheck p (withResultsOf s t) = none := by
  obtain ⟨hfirst, htile⟩ := Option.or_eq_none_iff.1 h
  refine Option.or_eq_none_iff.2 ⟨?_, (validateTile_again hbank).trans htile⟩
  simp only [firstFailure_none, List.forall_mem_cons] at hfirst ⊢
  obtain ⟨hnull, hdepth, hformat, hempty, hstride, haddr, hsize, hnil⟩ := hfirst
  exact ⟨hnull, hdepth, hformat, hempty, hstride, haddr, sizeDiffers_again hbank hsize, hnil⟩

/-! ### The elements a decode writes again -/

theorem gridStores_congr {w h : Nat} {f g : Nat → Nat → List Store} (hfg : ∀ x y, x < w → y < h → f x y = g x y) :
    gridStores w h f = gridStores w h g :=
  List.flatMap_congr fun y hy => List.flatMap_congr fun x hx =>
    hfg x y (List.mem_range.1 hx) (List.mem_range.1 hy)

/-- A sample of a plane read is fetched again (45_decoder.md rule R234). -/
theorem fetchSample_again {reads : List Buffer} (hreads : SameReads reads s t) {b : Buffer} (hb : b ∈ reads)
    {pl : Plane} {x y : Nat}
    (h : Holds b (sampAddr pl (bps (frameFormat s.frm.fmt).depth) x y) (bps (frameFormat s.frm.fmt).depth)) :
    fetchSample (withResultsOf s t) pl x y = fetchSample s pl x y :=
  congrArg (min · _) (hreads b hb _ _ h)

section
variable {x y : Nat} (hx : x < (placement s).copyW) (hy : y < (placement s).copyH)
include hx hy

theorem fetchY_again {reads : List Buffer} (hreads : SameReads reads s t) (hb : yBuffer s ∈ reads) :
    fetchY (withResultsOf s t) x y = fetchY s x y :=
  fetchSample_again hreads hb (holds_lumaSample hx hy)

/-- The pixel of a placed position, its samples fetched again (45_decoder.md rules R234, R235). -/
theorem decodedPixel_again {p : Params} (hreads : SameReads (decodeColorReads s) s t) (l : LutMem) :
    decodedPixel p (withResultsOf s t) l x y = decodedPixel p s l x y := by
  have hyc := fetchY_again hx hy hreads (yBuffer_mem_decodeColorReads s)
  unfold decodedPixel
  refine if_ctx_congr Iff.rfl (fun _ => congrArg (invMono l) hyc) fun hcolour => ?_
  have hchroma {q : Plane} (hq : q ∈ [decodeUPlane s, decodeVPlane s]) :
      fetchSample (withResultsOf s t) q (cidx s x y).1 (cidx s x y).2 = fetchSample s q (cidx s x y).1 (cidx s x y).2 :=
    fetchSample_again hreads (chromaBuffer_mem_decodeColorReads (Bool.eq_false_of_not_eq_true hcolour) hq)
      (holds_chromaSample hx hy q)
  have huc : fetchU (withResultsOf s t) x y = fetchU s x y := hchroma (List.mem_cons_self ..)
  have hvc : fetchV (withResultsOf s t) x y = fetchV s x y :=
    hchroma (List.mem_cons_of_mem _ (List.mem_singleton_self _))
  rw [hyc, huc, hvc]
  rfl

end

theorem decodeColorStores_again {p : Params} (hreads : SameReads (decodeColorReads s) s t) :
    decodeColorStores p (withResultsOf s t) = decodeColorStores p s := by
  refine gridStores_congr (w := (placement s).copyW) (h := (placement s).copyH) fun x y hx hy => ?_
  exact congrArg (colourStores p.num s.surf ((placement s).x0 + x) ((placement s).y0 + y))
    (decodedPixel_again hx hy hreads (colourTables p s))

theorem decodeAlphaStores_again {p : Params} (hreads : SameReads [yBuffer s] s t) :
    decodeAlphaStores p (withResultsOf s t) = decodeAlphaStores p s := by
  refine gridStores_congr (w := (placement s).copyW) (h := (placement s).copyH) fun x y hx hy => ?_
  exact congrArg (fun code => alphaStores p.num s.surf ((placement s).x0 + x) ((placement s).y0 + y)
    (lutRead (alphaTables p s).luma code)) (fetchY_again hx hy hreads (List.mem_singleton_self _))

end

/-- The elements a decode writes lie in the surface (45_decoder.md rule R241 (a)). -/
theorem inBuffer_channelStore {s : State} (hformat : pixelFormat s.surf.fmt ≠ .invalid) {x y : Nat}
    (hx : x < (placement s).copyW) (hy : y < (placement s).copyH) (m : NumMode) (c : Channel) (v : Num) :
    InBuffer (surfaceBuffer s.surf) (channelStore m s.surf ((placement s).x0 + x) ((placement s).y0 + y) c v) :=
  holds_placedChannel hformat hx hy c

theorem inBuffer_decodeColorStores {p : Params} {s : State} (hformat : pixelFormat s.surf.fmt ≠ .invalid) :
    ∀ e ∈ decodeColorStores p s, InBuffer (surfaceBuffer s.surf) e := by
  intro e he
  obtain ⟨x, y, hx, hy, hpixel⟩ := mem_gridStores.1 he
  simp only [colourStores, List.mem_cons, List.not_mem_nil, or_false] at hpixel
  rcases hpixel with rfl | rfl | rfl <;> exact inBuffer_channelStore hformat hx hy ..

theorem inBuffer_decodeAlphaStores {p : Params} {s : State} (hformat : pixelFormat s.surf.fmt ≠ .invalid) :
    ∀ e ∈ decodeAlphaStores p s, InBuffer (surfaceBuffer s.surf) e := by
  intro e he
  obtain ⟨x, y, hx, hy, hpixel⟩ := mem_gridStores.1 he
  obtain rfl := List.mem_singleton.1 hpixel
  exact inBuffer_channelStore hformat hx hy ..

/-- Elements written to the surface leave the planes read (20_memory.md rule R78 (d)). -/
theorem sameReads_of_memStores {p : Params} {s t : State} {reads : List Buffer} {st : List Store}
    (happroved : Approved p s reads) (hmem : memWf s.mem = true) (hs : storesInRange st)
    (hst : ∀ e ∈ st, InBuffer (surfaceBuffer s.surf) e) (ht : t.mem = memStores s.mem st) : SameReads reads s t := by
  intro b hb a n hholds
  have hwrites := (Bool.and_eq_true_iff.1 happroved.addresses).2
  have hapart := (writesApart_iff.1 hwrites).2 _ (List.mem_singleton_self _) b hb
  rw [ht]
  exact memRead_memStores_of_holds hmem hs hst hapart hholds

/-! ### Decoding again -/

/-- Results that are those the state has are no change. -/
theorem results_eq_self (t : State) {m : Memory} {k : Coefs} {w cur : Word} {l : LutMem} {b0 b1 : TileBank}
    (hm : m = t.mem) (hk : k = t.coefs) (hw : w = t.status) (hl : l = t.lut) (hcur : cur = t.lutCur) (hb0 : b0 = t.ts0)
    (hb1 : b1 = t.ts1) :
    { t with mem := m, coefs := k, status := w, lut := l, lutCur := cur, ts0 := b0, ts1 := b1 } = t := by
  subst hm hk hw hl hcur hb0 hb1
  rfl

/-- DECODE_COLOR, from the state it has left, leaves that state (45_decoder.md rule R241 (c)). -/
theorem exec_decodeColor_again {s t : State} (hmem : memWf s.mem = true)
    (hcheck : decodeColorCheck Config.params s = none) (ht : t = succeed (decodeColorEffect Config.params s)) :
    exec .decodeColor t = .next t := by
  have hrange := storesInRange_decodeColorStores hcheck
  have happroved := approved_of_decodeColorCheck hcheck
  rw [succeed_decodeColorEffect] at ht
  have htmem : t.mem = memStores s.mem (decodeColorStores Config.params s) := by rw [ht]
  have hbank : Recorded 0 s t := by rw [ht]; rfl
  have hoperands : withResultsOf s t = t := by rw [ht]; rfl
  have hreads := sameReads_of_memStores happroved hmem hrange (inBuffer_decodeColorStores happroved.format) htmem
  have hcheck' := decodeColorCheck_again hbank hcheck
  have hstores := decodeColorStores_again (p := Config.params) hreads
  rw [hoperands] at hcheck' hstores
  rw [exec_decodeColor_of_check hcheck', succeed_decodeColorEffect, hstores]
  refine congrArg Host.Outcome.next (results_eq_self t ?memory ?coefs ?status ?tables ?current ?bank rfl)
  case memory => rw [htmem, memStores_memStores hmem hrange]
  case status => rw [ht]; exact withResolved_again ..
  case bank => rw [ht]; exact recorded_again s s.ts0
  all_goals rw [ht]; rfl

/-- DECODE_ALPHA, from the state it has left, leaves that state (45_decoder.md rule R241 (c)). -/
theorem exec_decodeAlpha_again {s t : State} (hmem : memWf s.mem = true)
    (hcheck : decodeAlphaCheck Config.params s = none) (ht : t = succeed (decodeAlphaEffect Config.params s)) :
    exec .decodeAlpha t = .next t := by
  have hrange := storesInRange_decodeAlphaStores hcheck
  have happroved := approved_of_decodeAlphaCheck hcheck
  rw [succeed_decodeAlphaEffect] at ht
  have htmem : t.mem = memStores s.mem (decodeAlphaStores Config.params s) := by rw [ht]
  have hbank : Recorded 1 s t := by rw [ht]; rfl
  have hoperands : withResultsOf s t = t := by rw [ht]; rfl
  have hreads := sameReads_of_memStores happroved hmem hrange (inBuffer_decodeAlphaStores happroved.format) htmem
  have hcheck' := decodeAlphaCheck_again hbank hcheck
  have hstores := decodeAlphaStores_again (p := Config.params) hreads
  rw [hoperands] at hcheck' hstores
  rw [exec_decodeAlpha_of_check hcheck', succeed_decodeAlphaEffect, hstores]
  refine congrArg Host.Outcome.next (results_eq_self t ?memory rfl ?status ?tables ?current rfl ?bank)
  case memory => rw [htmem, memStores_memStores hmem hrange]
  case status => rw [ht]; exact withCode_again s.status .ok
  case bank => rw [ht]; exact recorded_again s s.ts1
  case tables => rw [ht]; rfl
  case current => rw [ht]

/-- Settles O50: a decode overwrites the coefficients and tables it computes with; and a second decode passes the same
checks, fetches the same samples and writes what is there. -/
theorem decodeIgnoresEarlierTables : Obligations.DecodeIgnoresEarlierTables := by
  unfold Obligations.DecodeIgnoresEarlierTables
  intro s t k l cur
  refine ⟨fun hexec hcode => ?colour, fun hexec hcode => ?alpha, fun hmem hcode =>
    ⟨fun hexec => ?colourAgain, fun hexec => ?alphaAgain⟩⟩
  case colour =>
    obtain ⟨hcheck, rfl⟩ := command_succeeded decodeColorCheck_ne_ok hexec hcode
    rw [← succeed_decodeColorEffect_withTables Config.params s k l cur]
    exact exec_decodeColor_of_check ((decodeColorCheck_withTables ..).trans hcheck)
  case alpha =>
    obtain ⟨hcheck, rfl⟩ := command_succeeded decodeAlphaCheck_ne_ok hexec hcode
    rw [← succeed_decodeAlphaEffect_withTables Config.params s k l cur]
    exact exec_decodeAlpha_of_check ((decodeAlphaCheck_withTables ..).trans hcheck)
  case colourAgain =>
    obtain ⟨hcheck, heq⟩ := command_succeeded decodeColorCheck_ne_ok hexec hcode
    exact exec_decodeColor_again hmem hcheck heq.symm
  case alphaAgain =>
    obtain ⟨hcheck, heq⟩ := command_succeeded decodeAlphaCheck_ne_ok hexec hcode
    exact exec_decodeAlpha_again hmem hcheck heq.symm

end Sys2Proof.DecodeAgain
end

