-- ==== Sys2Proof/Proofs/TileAssembly.lean ====
section
/-! PROOFS. Tiled image assembly (46_tile_assembly.md): the placement rectangle, TILE_RESET and TILE_VALIDATE. A later
tile's execute phase changes nothing, so its command writes the verdict of its check phase to `STATUS.CODE` and that
alone. -/

namespace Sys2Proof.TileAssembly
open Sys2Proof.Machine Sys2Proof.DecodeColorCheck Sys2Proof.DecodeColorStores Sys2Proof.CommandWords
  Sys2Proof.BuildLut Sys2Proof.PixelCommandChecks Sys2Proof.DecodeResult

/-! ### The placement rectangle -/

/-- A length clipped to what remains of an extent, the subtraction cut off at 0 or taken in the integers
(46_tile_assembly.md rule R275). -/
theorem clipped_length_cast (len extent start : Nat) :
    ((min len (extent - start) : Nat) : Int) = min (len : Int) (max 0 ((extent : Int) - start)) := by
  omega

theorem inside_of_lt_clipped_length {len extent start i : Nat} (h : i < min len (extent - start)) :
    i < len ∧ start + i < extent := by
  omega

/-- Settles O58: the corner is the product of index and size, and each position of the rectangle lies in the frame and
on the surface. -/
theorem placementRectangle : Obligations.PlacementRectangle := by
  unfold Obligations.PlacementRectangle
  intro s pl
  have hcol : tileCol s.tile = s.tile.toNat % 2 ^ 16 := getField_zero s.tile 15
  refine ⟨congrArg (· * s.frm.width.toNat) hcol, rfl, clipped_length_cast .., clipped_length_cast ..,
    fun _ hx => inside_of_lt_clipped_length hx, fun _ hy => inside_of_lt_clipped_length hy⟩

/-! ### A bank written -/

/-- A command whose execute phase writes bank `b` and nothing else. -/
theorem succeed_setBank (b : Bank) (s : State) (t : TileBank) :
    succeed (setBank s b t) =
      if b = 0#1 then { s with status := withCode s.status 0x00, ts0 := t }
      else { s with status := withCode s.status 0x00, ts1 := t } := by
  rw [succeed_eq, statusWithCode_eq_withCode, setBank_status]
  rcases bank_cases b with rfl | rfl <;> rfl

/-- Settles O57: TILE_RESET has no check, and its execute phase writes the zero bank. -/
theorem tileResetClearsBank : Obligations.TileResetClearsBank := by
  unfold Obligations.TileResetClearsBank
  refine ⟨rfl, rfl, fun b s => ?_⟩
  rw [exec, execTileReset, command_succeeds, succeed_setBank]
  rfl

/-! ### The check phase of TILE_VALIDATE -/

/-- The check phase and the verdict report the same status number (46_tile_assembly.md rule R273). -/
theorem map_tileValidateCheck (b : Bank) (s : State) :
    (tileValidateCheck b s).map statusCode = tileValidateVerdict b s := by
  simp only [tileValidateCheck, map_firstFailure_cons_or, firstFailure_nil_or, map_validateTile]
  refine if_congr ?_ rfl rfl
  simp only [Bool.or_eq_true, decide_eq_true_eq]

theorem tileValidateVerdict_of_empty {b : Bank} {s : State} (h : s.frm.width = 0 ∨ s.frm.height = 0) :
    tileValidateVerdict b s = some 0x41 := if_pos h

theorem tileValidateVerdict_of_nonempty {b : Bank} {s : State} (hw : s.frm.width ≠ 0) (hh : s.frm.height ≠ 0) :
    tileValidateVerdict b s = tileVerdict b s := if_neg (not_or.2 ⟨hw, hh⟩)

/-- A first tile of a frame that is not empty is never rejected (46_tile_assembly.md rules R271, R272). -/
theorem tileValidateCheck_first {b : Bank} {s : State} (hw : s.frm.width ≠ 0) (hh : s.frm.height ≠ 0)
    (htile : s.tile = 0) : tileValidateCheck b s = none := by
  rw [← Option.map_eq_none_iff, map_tileValidateCheck, tileValidateVerdict_of_nonempty hw hh]
  exact if_pos htile

/-- The low 25 bits of a colour-model word: the four fields of the model (10_state.md rule R42). -/
theorem toNat_and_model (w : Word) : (w &&& 0x01FFFFFF).toNat = w.toNat % 2 ^ 25 :=
  (BitVec.toNat_and ..).trans (Nat.and_two_pow_sub_one_eq_mod w.toNat 25)

/-- Two colour-model words have the same four fields when their low 25 bits agree (46_tile_assembly.md rule R277). -/
theorem and_model_eq_iff {v w : Word} : v &&& 0x01FFFFFF = w &&& 0x01FFFFFF ↔ v.toNat % 2 ^ 25 = w.toNat % 2 ^ 25 := by
  rw [← BitVec.toNat_inj, toNat_and_model, toNat_and_model]

/-- The three comparisons of a later tile with the record: depth and class, then the colour model (46_tile_assembly.md
rule R272). -/
theorem tileVerdict_later {b : Bank} {s : State} (htile : s.tile ≠ 0) :
    (tileVerdict b s).getD 0x00 =
      if s.frm.fmt.toNat % 2 ^ 5 ≠ (bank s b).info.toNat % 2 ^ 5 ∨
          frameClass (frameFormat s.frm.fmt) ≠ (bank s b).info.toNat / 2 ^ 8 % 2 ^ 3 then 0x06
      else if (bank s b).info.getLsbD 17 = true ∧ s.frm.cicp.toNat % 2 ^ 25 ≠ (bank s b).cicp.toNat % 2 ^ 25 then 0x07
      else 0x00 := by
  simp only [tileVerdict, if_neg htile, apply_ite (Option.getD · 0x00), Option.getD_some, Option.getD_none, ite_or,
    getField_zero, ne_eq, and_model_eq_iff]
  rfl

/-! ### TILE_VALIDATE -/

/-- A command without an effect writes the number of its verdict to `STATUS.CODE`, 0 where there is none
(60_exceptions.md rules R290, R294). -/
theorem command_without_effect {failure : Option Status} {verdict : Option Nat}
    (hmap : failure.map statusCode = verdict) (s : State) :
    command failure s s = .next { s with status := withCode s.status (verdict.getD 0x00) } := by
  cases failure with
  | some c => exact command_reports hmap (by rw [← hmap]; rfl) s s
  | none =>
    rw [← hmap, command_succeeds, succeed_eq, statusWithCode_eq_withCode]
    rfl

/-- Settles O54: the check phase passes, and the execute phase writes the record, whose words are those of
`recordedBank_eq`. -/
theorem tileValidateRecordsFirstTile : Obligations.TileValidateRecordsFirstTile := by
  unfold Obligations.TileValidateRecordsFirstTile
  intro b s hw hh htile cls old new
  have hnew : recordedBank s (bank s b) = new := by
    rw [recordedBank_eq, ← and_low_bits]
    rfl
  rw [exec, execTileValidate, tileValidateCheck_first hw hh htile, command_succeeds, recordTile_eq, if_pos htile,
    succeed_setBank, hnew]

/-- Settles O55: an empty frame fails the first check; any other later tile has no effect but its verdict. -/
theorem tileValidateComparesLaterTile : Obligations.TileValidateComparesLaterTile := by
  unfold Obligations.TileValidateComparesLaterTile
  intro b s cls old
  have hcls : frameClass (frameFormat s.frm.fmt) = cls := frameClass_frameFormat _
  refine ⟨fun hempty => ?empty, fun hw hh htile => ?later⟩
  case empty =>
    exact command_reports (map_tileValidateCheck b s) (tileValidateVerdict_of_empty hempty) _ s
  case later =>
    have hrecord : recordTile b s = s := if_neg (mt isFirstTile_iff.1 htile)
    rw [exec, execTileValidate, hrecord, command_without_effect (map_tileValidateCheck b s),
      tileValidateVerdict_of_nonempty hw hh, tileVerdict_later htile, hcls]
    rfl

end Sys2Proof.TileAssembly
end

