-- ==== Sys2Proof/Proofs/FailingCommands.lean ====
section
/-! PROOFS. How a command ends (60_exceptions.md rules R290, R294, R299, R300). Every command is a check phase and an
execute phase joined by `command`: what it reports comes from the list of its checks, and since no check reads `STATUS`,
what it reports once it reports again. -/

namespace Sys2Proof.FailingCommands
open Sys2Proof.Machine Sys2Proof.CommandWords Sys2Proof.DecodeAgain

/-! ### A command as its two phases -/

/-- The check phase of each command; RESOLVE and TILE_RESET have none (60_exceptions.md rule R290). -/
def checkOf : Instr → State → Option Status
  | .resolve, _ => none
  | .buildLut, s => buildLutCheck s
  | .encodeColor, s => encodeColorCheck Config.params s
  | .encodeAlpha, s => encodeAlphaCheck Config.params s
  | .decodeColor, s => decodeColorCheck Config.params s
  | .decodeAlpha, s => decodeAlphaCheck Config.params s
  | .tileValidate b, s => tileValidateCheck b s
  | .tileReset _, _ => none

/-- The execute phase of each command (60_exceptions.md rule R290). -/
def effectOf : Instr → State → State
  | .resolve, s => resolveEffect Config.params s
  | .buildLut, s => buildLutEffect Config.params s
  | .encodeColor, s => encodeColorEffect Config.params s
  | .encodeAlpha, s => encodeAlphaEffect s
  | .decodeColor, s => decodeColorEffect Config.params s
  | .decodeAlpha, s => decodeAlphaEffect Config.params s
  | .tileValidate b, s => recordTile b s
  | .tileReset b, s => setBank s b TileBank.zero

theorem exec_eq_command (i : Instr) (s : State) : exec i s = command (checkOf i s) (effectOf i s) s := by
  cases i <;> rfl

/-- Every command completes: a check fails and `fail` is all there is, or none does and the execute phase ends with
`STATUS.CODE = 0` (60_exceptions.md rules R290, R294). -/
theorem exec_cases (i : Instr) (s : State) :
    (∃ c, checkOf i s = some c ∧ exec i s = .next (fail s c)) ∨
      (checkOf i s = none ∧ exec i s = .next (succeed (effectOf i s))) :=
  exec_eq_command i s ▸ command_cases ..

theorem codeOf_fail (s : State) (c : Status) : codeOf (fail s c) = statusCode c := statusWithCode_code s.status c

/-- A command that ends with a code other than 0 has failed a check, and its code is the number of that check. -/
theorem failed_of_codeOf_ne_zero {i : Instr} {s t : State} (h : exec i s = .next t) (hcode : codeOf t ≠ 0) :
    ∃ c, checkOf i s = some c ∧ t = fail s c := by
  rcases exec_cases i s with ⟨c, hcheck, hexec⟩ | ⟨_, hexec⟩
  · exact ⟨c, hcheck, Host.Outcome.next.inj (h.symm.trans hexec)⟩
  · cases h.symm.trans hexec
    exact absurd (codeOf_fail (effectOf i s) .ok) hcode

theorem fail_eq_withCode (s : State) (c : Status) :
    fail s c = { s with status := withCode s.status (codeOf (fail s c)) } := by
  rw [codeOf_fail, fail_eq, statusWithCode_eq_withCode]
  rfl

/-- Settles O15: a command answers a next state in either case, and one with a nonzero code is that of `fail`. -/
theorem failureChangesOnlyCode : Obligations.FailureChangesOnlyCode := by
  unfold Obligations.FailureChangesOnlyCode
  intro i s
  have ⟨t, hexec⟩ : ∃ t, exec i s = .next t := ⟨_, exec_eq_command i s⟩
  refine ⟨t, hexec, fun hcode => ?_⟩
  obtain ⟨c, _, rfl⟩ := failed_of_codeOf_ne_zero hexec hcode
  exact fail_eq_withCode s c

/-! ### The codes of the checks -/

theorem code_mem_of_firstFailure {l : List (Bool × Status)} {c : Status} {codes : List Nat}
    (hl : ∀ x ∈ l, statusCode x.2 ∈ codes) (h : firstFailure l = some c) : statusCode c ∈ codes := by
  obtain ⟨before, after, rfl, _⟩ := firstFailure_some h
  exact hl (true, c) (by simp)

/-- Tile validation fails with TileFormatMismatch or TileNclxProfileMismatch (46_tile_assembly.md rule R272). -/
theorem code_mem_of_validateTile {b : Bank} {s : State} {c : Status} (h : validateTile b s = some c) :
    statusCode c ∈ [0x06, 0x07] := by
  simp only [validateTile] at h
  split at h
  · cases h
  · exact code_mem_of_firstFailure (by simp [statusCode]) h

/-- A check phase that ends in tile validation (45_decoder.md rules R231, R239, 46_tile_assembly.md rule R273). -/
theorem code_mem_of_check_or_validateTile {l : List (Bool × Status)} {b : Bank} {s : State} {c : Status}
    {codes : List Nat} (hl : ∀ x ∈ l, statusCode x.2 ∈ codes) (htile : [0x06, 0x07] ⊆ codes)
    (h : (firstFailure l).or (validateTile b s) = some c) : statusCode c ∈ codes := by
  rcases Option.or_eq_some_iff.1 h with hfirst | ⟨_, hvalidate⟩
  · exact code_mem_of_firstFailure hl hfirst
  · exact htile (code_mem_of_validateTile hvalidate)

/-- The table of 60_exceptions.md rule R300, command by command. -/
theorem code_mem_of_checkOf {i : Instr} {s : State} {c : Status} (h : checkOf i s = some c) :
    statusCode c ∈ commandCodes i := by
  cases i with
  | resolve => cases h
  | tileReset b => cases h
  | buildLut => exact code_mem_of_firstFailure (by simp [statusCode, commandCodes]) h
  | encodeColor => exact code_mem_of_firstFailure (by simp [statusCode, commandCodes]) h
  | encodeAlpha => exact code_mem_of_firstFailure (by simp [statusCode, commandCodes]) h
  | decodeColor =>
    exact code_mem_of_check_or_validateTile (by simp [statusCode, commandCodes]) (by decide) h
  | decodeAlpha =>
    exact code_mem_of_check_or_validateTile (by simp [statusCode, commandCodes]) (by decide) h
  | tileValidate b =>
    exact code_mem_of_check_or_validateTile (by simp [statusCode, commandCodes]) (by simp [commandCodes]) h

theorem zero_mem_commandCodes (i : Instr) : 0x00 ∈ commandCodes i := by
  cases i <;> exact List.mem_cons_self

theorem runWord_illegal {w : Word} {e : DecodeError} (h : decode w = .error e) (s : State) :
    runWord w s = .next (illegalCommand s) := by
  rw [runWord, h]

/-- Settles O16: a failed check reports a code of the command's row, and a passed check phase ends with 0. -/
theorem commandStatusCodes : Obligations.CommandStatusCodes := by
  unfold Obligations.CommandStatusCodes
  refine ⟨fun i s => ?command, fun w e s hdec => ⟨_, runWord_illegal hdec s, codeOf_fail s .badCommand⟩⟩
  case command =>
    rcases exec_cases i s with ⟨c, hcheck, hexec⟩ | ⟨_, hexec⟩
    · exact ⟨_, hexec, codeOf_fail s c ▸ code_mem_of_checkOf hcheck⟩
    · exact ⟨_, hexec, (codeOf_fail (effectOf i s) .ok).symm ▸ zero_mem_commandCodes i⟩

/-! ### Failing again -/

/-- No check reads `STATUS`. -/
theorem checkOf_fail (i : Instr) (s : State) (c : Status) : checkOf i (fail s c) = checkOf i s := by
  cases i <;> rfl

theorem fail_again (s : State) (c : Status) : fail (fail s c) c = fail s c := by
  simp only [fail_eq, statusWithCode_eq_withCode, setStatus_status, withCode_again]
  rfl

/-- Settles O17: the same check fails again, and writes the code that is there. -/
theorem failedCommandFailsAgain : Obligations.FailedCommandFailsAgain := by
  unfold Obligations.FailedCommandFailsAgain
  intro i s t hexec hcode
  obtain ⟨c, hcheck, rfl⟩ := failed_of_codeOf_ne_zero hexec hcode
  rw [exec_eq_command, checkOf_fail, hcheck, command_fails, fail_again]

end Sys2Proof.FailingCommands
end

