-- ==== Sys2Proof/Proofs/ResetHazards.lean ====
section
/-! PROOFS. Reset and its hazards (70_reset_and_hazards.md): the platform's reset (rule R320), and the tile order after
TILE_RESET (rule R322). No frame has class 0, which is the class a reset bank records, so no later tile matches it. -/

namespace Sys2Proof.ResetHazards
open Sys2Proof.Machine Sys2Proof.HostAccess Sys2Proof.DecodeColorCheck Sys2Proof.PixelCommandChecks
  Sys2Proof.TileAssembly

/-! ### The platform's reset -/

/-- Settles O2: the reset is one access done, which puts back what is no state of the block. -/
theorem platformResetKeepsMemory : Obligations.PlatformResetKeepsMemory := by
  unfold Obligations.PlatformResetKeepsMemory
  intro s rest hhost
  have hreset : hostTransaction Config.params .platformReset (setHost s rest) =
      .done (platformReset (setHost s rest)) := rfl
  rw [step_of_done hhost hreset, platformReset, setHost_mem, setHost_host, setHost_hostReads, setHost_freeCount]

/-! ### A later tile of a reset bank -/

/-- No frame has class 0 (46_tile_assembly.md rule R270). -/
theorem frameClass_ne_zero (f : FrameFormat) : frameClass f ≠ 0 := by
  unfold frameClass
  split_ifs <;> decide

/-- A later tile never matches a bank in which nothing is recorded (70_reset_and_hazards.md rule R322). -/
theorem tileVerdict_of_bank_zero {b : Bank} {s : State} (hbank : bank s b = TileBank.zero) (htile : s.tile ≠ 0) :
    tileVerdict b s = some 0x06 := by
  have hclass : frameClass (frameFormat s.frm.fmt) ≠ getField TileBank.zero.info 10 8 := frameClass_ne_zero _
  simp only [tileVerdict, hbank, if_neg htile, if_pos hclass, ite_self]

/-- What TILE_RESET leaves, as far as a later tile's check depends on it (46_tile_assembly.md rule R274). -/
theorem tileReset_leaves {b : Bank} {s t : State} (h : exec (.tileReset b) s = .next t) :
    bank t b = TileBank.zero ∧ t.tile = s.tile ∧ t.frm = s.frm := by
  cases h
  rcases bank_cases b with rfl | rfl <;> exact ⟨rfl, rfl, rfl⟩

/-- The checks of DECODE_COLOR before tile validation do not read `TILE` (45_decoder.md rule R231). -/
theorem decodeColorCheck_eq_validateTile {p : Params} {s : State}
    (h : decodeColorVerdict p { s with tile := 0 } = none) : decodeColorCheck p s = validateTile 0 s := by
  obtain ⟨hfirst, _⟩ := Option.or_eq_none_iff.1 (decodeColorCheck_eq_none_iff.2 h)
  exact congrArg (Option.or · (validateTile 0 s)) hfirst

/-- The checks of DECODE_ALPHA before tile validation do not read `TILE` (45_decoder.md rule R239). -/
theorem decodeAlphaCheck_eq_validateTile {p : Params} {s : State}
    (h : decodeAlphaVerdict p { s with tile := 0 } = none) : decodeAlphaCheck p s = validateTile 1 s := by
  obtain ⟨hfirst, _⟩ := Option.or_eq_none_iff.1 (decodeAlphaCheck_eq_none_iff.2 h)
  exact congrArg (Option.or · (validateTile 1 s)) hfirst

/-- Settles O56: each of the three check phases comes down to tile validation against the reset bank. -/
theorem firstTileFirst : Obligations.FirstTileFirst := by
  unfold Obligations.FirstTileFirst
  intro b s t hreset htile
  obtain ⟨hbank, htile_eq, hfrm⟩ := tileReset_leaves hreset
  have hverdict : tileVerdict b t = some 0x06 := tileVerdict_of_bank_zero hbank (htile_eq ▸ htile)
  have hvalidate : (validateTile b t).map statusCode = some 0x06 := (map_validateTile b t).trans hverdict
  refine ⟨fun hw hh => ?validate, fun hb hpass => ?colour, fun hb hpass => ?alpha⟩
  case validate =>
    rw [← hfrm] at hw hh
    exact command_reports ((map_tileValidateCheck b t).trans (tileValidateVerdict_of_nonempty hw hh)) hverdict _ t
  case colour =>
    subst hb
    rw [exec, execDecodeColor, decodeColorCheck_eq_validateTile hpass]
    exact command_reports hvalidate rfl _ t
  case alpha =>
    subst hb
    rw [exec, execDecodeAlpha, decodeAlphaCheck_eq_validateTile hpass]
    exact command_reports hvalidate rfl _ t

end Sys2Proof.ResetHazards
end
